-- ==== Sys2Proof/Word.lean ====
section
/-! DEFINITION. The byte, the result of an operation that can stop, and reading bits from a source.

The three things every later file uses: the 8-bit byte (rule R8), the result type of an operation that either
answers a value and the state after it or stops with a reason and the state it stopped in (rule R10: `(value, ok)`),
and the interface of a bit source, so that ONE decoder text serves the pure decoder and the machine's own fetch. -/

namespace Sys2Proof

/-- A byte is 8 bits, bit 7 the most significant (rule R8). -/
abbrev Byte := BitVec 8

/-- What an operation answers (rule R10): a value and the state after, or a stop and the state at the stop. -/
inductive Res (ε σ α : Type) where
  | ok (a : α) (s : σ)
  | stop (e : ε) (s : σ)
deriving DecidableEq, Repr

/-- `v <- op(..)` of the pseudocode (rule R10): run, hand on the value, or propagate the stop. -/
def Res.bind {ε σ α β : Type} (r : Res ε σ α) (f : α → σ → Res ε σ β) : Res ε σ β :=
  match r with
  | .ok a s => f a s
  | .stop e s => .stop e s

/-- A source of bits: `read n` takes the next `n` bits, most significant first, as a number (rule R121). -/
structure Reader (ε σ : Type) where
  read : Nat → σ → Res ε σ Nat

end Sys2Proof
end

