-- ==== Sys2Proof/Config.lean ====
section
/-! DEFINITION. What an implementation fixes: the parameters of rule R6 and the shape of a token table.

`outCap`, `nMax` and `accW` are fixed by the spec. `HIST_CAP`, `LIT_TABLE`, `MATCH_TABLE`, `HIST_INIT` and
`UNDERRUN_POLICY` are OPEN in rule R6, so they are fields of `Config`, which the state carries and no step changes: every
statement about all states is a statement about every value of them (assumptions 1 and 2). The reference tables, the
constraints of rule R7 and the defaults stand in Decode.lean. -/

namespace Sys2Proof

/-- `OUT_CAP`: the capacity of the output staging buffer (rule R6). -/
def outCap : Nat := 65536

/-- `N_MAX`: the largest `n` a `get_bits(n)` may ask for (rules R6, R131). -/
def nMax : Nat := 24

/-- `ACC_W`: the width of the BitReader accumulator in bits (rule R6). -/
def accW : Nat := 32

/-- One Token record of a table (rule R140): the bit pattern includes its two leading bits. -/
structure Token where
  prefixLen : Nat
  prefixCode : Nat
  valueBits : Nat
  base : Nat
deriving DecidableEq, Repr

/-- `TBL_SEL` (rule R25): 0 the match table, 1 the literal table. -/
inductive TableSel where
  | matchTable
  | literalTable
deriving DecidableEq, Repr

/-- `UNDERRUN_POLICY` (rule R266): what the host does when a multipart frame produces fewer bytes than it declared. -/
inductive UnderrunPolicy where
  | fail
  | short
deriving DecidableEq, Repr

/-- `HIST_INIT` (rule R6): any content of the ring, as plain data: the byte listed for an address, `fill` elsewhere. -/
structure HistInit where
  fill : Byte
  cells : List (Nat × Byte)
deriving DecidableEq, Repr

/-- The parameters rule R6 leaves OPEN. `histCap` must be at least 1, and the tables must meet rule R7
(`Config.tablesLegal`); `Machine.State.Inv` says so. -/
structure Config where
  histCap : Nat
  litTable : List Token
  matchTable : List Token
  histInit : HistInit
  underrun : UnderrunPolicy
deriving DecidableEq, Repr

end Sys2Proof
end

