-- ==== Sys2Proof/Syntax.lean ====
section
/-! DEFINITION. The instructions: one constructor per row of spec/opcode_table.json, and what a decoder can read.

The tokens of a compressed segment, the two segment forms and the two frame forms (rule R90's three layers). The rows
are those of the reference token tables; a core with other tables (rules R6, R7) also reads tokens that are no row. -/

namespace Sys2Proof

/-- Which of the three layers of rule R90 an instruction belongs to. -/
inductive Layer where
  | token
  | segment
  | frame
deriving DecidableEq, Repr

/-- The length code of a match (rule R102): `0`; or `extra - 1` one-bits, a zero bit and `w` in `extra` bits; or 16
one-bits, where the decoder stops reading (rule R231). -/
inductive LengthCode where
  | three
  | ext (extra w : Nat)
  | overrun
deriving DecidableEq, Repr

/-- The instructions of the opcode table (rule R110). -/
inductive Instr where
  /-- `LIT8 v`: `0` and the byte (rules R97, R226). -/
  | lit8 (v : BitVec 8)
  /-- `LITC 0x00`: prefix `11000` (rule R150). -/
  | litc00
  /-- `LITC 0x01`: prefix `11001` (rule R151). -/
  | litc01
  /-- `LITC 0x02`: prefix `110100` (rule R152). -/
  | litc02
  /-- `LITC 0x03`: prefix `110101` (rule R153). -/
  | litc03
  /-- `LITC 0xFF`: prefix `110110` (rule R154). -/
  | litcFF
  /-- `LITC 0x04`: prefix `1101110` (rule R155). -/
  | litc04
  /-- `LITC 0x05`: prefix `1101111` (rule R156). -/
  | litc05
  /-- `LITC 0x06`: prefix `1110000` (rule R157). -/
  | litc06
  /-- `LITC 0x07`: prefix `1110001` (rule R158). -/
  | litc07
  /-- `LITC 0x08`: prefix `1110010` (rule R159). -/
  | litc08
  /-- `LITC 0x09`: prefix `1110011` (rule R160). -/
  | litc09
  /-- `LITC 0x0A`: prefix `1110100` (rule R161). -/
  | litc0A
  /-- `LITC 0x0B`: prefix `1110101` (rule R162). -/
  | litc0B
  /-- `LITC 0x3A`: prefix `1110110` (rule R163). -/
  | litc3A
  /-- `LITC 0x3B`: prefix `1110111` (rule R164). -/
  | litc3B
  /-- `LITC 0x3C`: prefix `1111000` (rule R165). -/
  | litc3C
  /-- `LITC 0x3D`: prefix `1111001` (rule R166). -/
  | litc3D
  /-- `LITC 0x3E`: prefix `1111010` (rule R167). -/
  | litc3E
  /-- `LITC 0x3F`: prefix `1111011` (rule R168). -/
  | litc3F
  /-- `LITC 0x40`: prefix `1111100` (rule R169). -/
  | litc40
  /-- `LITC 0x80`: prefix `1111101` (rule R170). -/
  | litc80
  /-- `LITC 0x0C`: prefix `11111100` (rule R171). -/
  | litc0C
  /-- `LITC 0x38`: prefix `11111101` (rule R172). -/
  | litc38
  /-- `LITC 0x39`: prefix `11111110` (rule R173). -/
  | litc39
  /-- `LITC 0x66`: prefix `11111111` (rule R174). -/
  | litc66
  /-- `MATCH.c0`: prefix `10001`, 5 extra bits, base 0 (rule R180). -/
  | matchC0 (x : BitVec 5) (len : LengthCode)
  /-- `MATCH.c1`: prefix `10010`, 7 extra bits, base 32 (rule R181). -/
  | matchC1 (x : BitVec 7) (len : LengthCode)
  /-- `MATCH.c2`: prefix `10011`, 9 extra bits, base 160 (rule R182). -/
  | matchC2 (x : BitVec 9) (len : LengthCode)
  /-- `MATCH.c3`: prefix `10100`, 10 extra bits, base 672 (rule R183). -/
  | matchC3 (x : BitVec 10) (len : LengthCode)
  /-- `MATCH.c4`: prefix `10101`, 12 extra bits, base 1696 (rule R184). -/
  | matchC4 (x : BitVec 12) (len : LengthCode)
  /-- `MATCH.c5`: prefix `101100`, 14 extra bits, base 5792 (rule R185). -/
  | matchC5 (x : BitVec 14) (len : LengthCode)
  /-- `MATCH.c6`: prefix `101101`, 15 extra bits, base 22176 (rule R186). -/
  | matchC6 (x : BitVec 15) (len : LengthCode)
  /-- `MATCH.c7`: prefix `1011100`, 18 extra bits, base 54944 (rule R187). -/
  | matchC7 (x : BitVec 18) (len : LengthCode)
  /-- `MATCH.c8`: prefix `1011101`, 20 extra bits, base 317088 (rule R188). -/
  | matchC8 (x : BitVec 20) (len : LengthCode)
  /-- `MATCH.c9`: prefix `10111100`, 20 extra bits, base 1365664 (rule R189). -/
  | matchC9 (x : BitVec 20) (len : LengthCode)
  /-- `MATCH.c10`: prefix `10111101`, 21 extra bits, base 2414240 (rule R190). -/
  | matchC10 (x : BitVec 21) (len : LengthCode)
  /-- `MATCH.c11`: prefix `101111100`, 22 extra bits, base 4511392 (rule R191). -/
  | matchC11 (x : BitVec 22) (len : LengthCode)
  /-- `MATCH.c12`: prefix `101111101`, 23 extra bits, base 8705696 (rule R192). -/
  | matchC12 (x : BitVec 23) (len : LengthCode)
  /-- `MATCH.c13`: prefix `101111110`, 24 extra bits, base 17094304 (rule R193). -/
  | matchC13 (x : BitVec 24) (len : LengthCode)
  /-- `UNENC`: distance 0, then a 15-bit count (rules R100, R233). The raw bytes are data read from `IN`. -/
  | unenc (count : BitVec 15)
  /-- `ILLEGAL` `10000`: the walk reads four more bits, `rest`, before it fails (rule R194). -/
  | illegal10000 (rest : BitVec 4)
  /-- `ILLEGAL` `101111111` (rule R195). -/
  | illegal101111111
  /-- `SEG_RAW`: a control byte with bit 5 clear (rules R94, R222). -/
  | segRaw (ctrl : Byte)
  /-- `SEG_COMP`: a control byte with bit 5 set (rules R94, R223). -/
  | segComp (ctrl : Byte)
  /-- `FRAME_SINGLE`: descriptor `0xE0` (rules R91, R263). -/
  | frameSingle
  /-- `FRAME_MULTI`: descriptor `0xE1` (rules R92, R264). -/
  | frameMulti
deriving DecidableEq, Repr

/-- The layer of an instruction (rule R90). -/
def Instr.layer : Instr → Layer
  | .segRaw _ | .segComp _ => .segment
  | .frameSingle | .frameMulti => .frame
  | _ => .token

/-- What the decoder reads: a row of the opcode table; or, in a core whose token tables are not the reference tables
(rules R6, R7), a token that no row stands for (assumption 20). -/
inductive Form where
  /-- A row of the opcode table. -/
  | row (i : Instr)
  /-- The literal of an entry of `LIT_TABLE` (rules R98, R145). -/
  | literal (e : Token)
  /-- The match of an entry of `MATCH_TABLE`, its extra bits `x`, and a length code (rules R99, R146). -/
  | copy (e : Token) (x : Nat) (len : LengthCode)
  /-- The unencoded run that an entry of `MATCH_TABLE` with distance 0 selects (rules R100, R146). -/
  | run (e : Token) (count : BitVec 15)
  /-- The `len` bits `pfx` that no entry of the table matches (rule R143). -/
  | unmatched (table : TableSel) (pfx len : Nat)
deriving DecidableEq, Repr

/-- The layer of a form (rule R90). -/
def Form.layer : Form → Layer
  | .row i => i.layer
  | _ => .token

end Sys2Proof
end

