-- ==== Sys2Proof/WellFormed.lean ====
section
/-! DEFINITION. Which terms of `Instr` and of `Form` stand for an encoding. -/

namespace Sys2Proof

/-- A length code that rule R102 lists: `extra` from 2 to 16, and a value of `extra` bits. -/
def LengthCode.wellFormed : LengthCode → Bool
  | .three => true
  | .ext extra w => decide (2 ≤ extra) && decide (extra ≤ 16) && decide (w < 2 ^ extra)
  | .overrun => true

/-- Bit `0x20` of the control byte, the field `COMPRESSED` (rules R31, R221). -/
def compressed (ctrl : Byte) : Bool := ctrl.getLsbD 5

/-- The term stands for an encoding: a listed length code; a match of class 0 has a nonzero distance, because the
pattern with all extra bits zero is `UNENC` (rules R110, R180); the control byte's bit 5 agrees with the form (R94). -/
def Instr.wellFormed : Instr → Bool
  | .matchC0 x len => decide (x ≠ 0) && len.wellFormed
  | .matchC1 _ len => len.wellFormed
  | .matchC2 _ len => len.wellFormed
  | .matchC3 _ len => len.wellFormed
  | .matchC4 _ len => len.wellFormed
  | .matchC5 _ len => len.wellFormed
  | .matchC6 _ len => len.wellFormed
  | .matchC7 _ len => len.wellFormed
  | .matchC8 _ len => len.wellFormed
  | .matchC9 _ len => len.wellFormed
  | .matchC10 _ len => len.wellFormed
  | .matchC11 _ len => len.wellFormed
  | .matchC12 _ len => len.wellFormed
  | .matchC13 _ len => len.wellFormed
  | .segRaw ctrl => !compressed ctrl
  | .segComp ctrl => compressed ctrl
  | _ => true

/-- The form stands for an encoding: extra bits that fit their entry, a nonzero distance and a listed length code for a
match, distance 0 for a run (rules R102, R146). -/
def Form.wellFormed : Form → Bool
  | .row i => i.wellFormed
  | .literal _ => true
  | .copy e x len => decide (x < 2 ^ e.valueBits) && decide (e.base + x ≠ 0) && len.wellFormed
  | .run e _ => decide (e.base = 0)
  | .unmatched _ _ _ => true

end Sys2Proof
end

