-- ==== Sys2Proof/Decode.lean ====
section
/-! DEFINITION. Bits and bytes, the reference token tables and the constraints on tables, the decoder of the three layers
for any tables, and the encoder.

ONE decoder text, `decodeTokenWith`, reads its bits through a `Reader`: with `listReader` it is the pure decoder on a
list of bits, with the machine's `get_bits` it is the machine's fetch (Machine/Fetch.lean). -/

namespace Sys2Proof

/-! ### Bits and bytes (rules R8, R65, R66) -/

/-- The low `w` bits of `v`, most significant first. -/
def natToBits : Nat → Nat → List Bool
  | 0, _ => []
  | w + 1, v => v.testBit w :: natToBits w v

/-- A bit string as an unsigned number, the first bit most significant (rule R65). -/
def bitsToNat (bits : List Bool) : Nat :=
  bits.foldl (fun acc b => 2 * acc + b.toNat) 0

/-- The bits of a byte in stream order: bit 7 first (rule R8). -/
def byteBits (b : Byte) : List Bool := natToBits 8 b.toNat

/-- The bit stream over a byte slice (rule R8). -/
def streamBits (bytes : List Byte) : List Bool := bytes.flatMap byteBits

/-- Bits packed into bytes, first bit in bit 7, the last byte filled with zero bits; `n` is the number of bytes. -/
def packBits : Nat → List Bool → List Byte
  | 0, _ => []
  | n + 1, bits => BitVec.ofNat 8 (bitsToNat (bits.take 8 ++ List.replicate (8 - bits.length) false)) ::
      packBits n (bits.drop 8)

/-- A little-endian unsigned number (rule R66). -/
def leNat : List Byte → Nat
  | [] => 0
  | b :: bs => b.toNat + 256 * leNat bs

/-! ### The token tables -/

/-- The default of `LIT_TABLE`: the reference literal table (rules R150 to R174). PRESUMED: the spec marks its contents as
general knowledge (assumption 2). -/
def refLitTable : List Token :=
  [
   ⟨5, 0b11000, 0, 0x00⟩,  -- entry 0 (R150)
   ⟨5, 0b11001, 0, 0x01⟩,  -- entry 1 (R151)
   ⟨6, 0b110100, 0, 0x02⟩,  -- entry 2 (R152)
   ⟨6, 0b110101, 0, 0x03⟩,  -- entry 3 (R153)
   ⟨6, 0b110110, 0, 0xFF⟩,  -- entry 4 (R154)
   ⟨7, 0b1101110, 0, 0x04⟩,  -- entry 5 (R155)
   ⟨7, 0b1101111, 0, 0x05⟩,  -- entry 6 (R156)
   ⟨7, 0b1110000, 0, 0x06⟩,  -- entry 7 (R157)
   ⟨7, 0b1110001, 0, 0x07⟩,  -- entry 8 (R158)
   ⟨7, 0b1110010, 0, 0x08⟩,  -- entry 9 (R159)
   ⟨7, 0b1110011, 0, 0x09⟩,  -- entry 10 (R160)
   ⟨7, 0b1110100, 0, 0x0A⟩,  -- entry 11 (R161)
   ⟨7, 0b1110101, 0, 0x0B⟩,  -- entry 12 (R162)
   ⟨7, 0b1110110, 0, 0x3A⟩,  -- entry 13 (R163)
   ⟨7, 0b1110111, 0, 0x3B⟩,  -- entry 14 (R164)
   ⟨7, 0b1111000, 0, 0x3C⟩,  -- entry 15 (R165)
   ⟨7, 0b1111001, 0, 0x3D⟩,  -- entry 16 (R166)
   ⟨7, 0b1111010, 0, 0x3E⟩,  -- entry 17 (R167)
   ⟨7, 0b1111011, 0, 0x3F⟩,  -- entry 18 (R168)
   ⟨7, 0b1111100, 0, 0x40⟩,  -- entry 19 (R169)
   ⟨7, 0b1111101, 0, 0x80⟩,  -- entry 20 (R170)
   ⟨8, 0b11111100, 0, 0x0C⟩,  -- entry 21 (R171)
   ⟨8, 0b11111101, 0, 0x38⟩,  -- entry 22 (R172)
   ⟨8, 0b11111110, 0, 0x39⟩,  -- entry 23 (R173)
   ⟨8, 0b11111111, 0, 0x66⟩  -- entry 24 (R174)
  ]

/-- The default of `MATCH_TABLE`: the reference match table (rules R180 to R193). PRESUMED as `refLitTable`
(assumption 2). -/
def refMatchTable : List Token :=
  [
   ⟨5, 0b10001, 5, 0⟩,  -- entry 0 (R180)
   ⟨5, 0b10010, 7, 32⟩,  -- entry 1 (R181)
   ⟨5, 0b10011, 9, 160⟩,  -- entry 2 (R182)
   ⟨5, 0b10100, 10, 672⟩,  -- entry 3 (R183)
   ⟨5, 0b10101, 12, 1696⟩,  -- entry 4 (R184)
   ⟨6, 0b101100, 14, 5792⟩,  -- entry 5 (R185)
   ⟨6, 0b101101, 15, 22176⟩,  -- entry 6 (R186)
   ⟨7, 0b1011100, 18, 54944⟩,  -- entry 7 (R187)
   ⟨7, 0b1011101, 20, 317088⟩,  -- entry 8 (R188)
   ⟨8, 0b10111100, 20, 1365664⟩,  -- entry 9 (R189)
   ⟨8, 0b10111101, 21, 2414240⟩,  -- entry 10 (R190)
   ⟨9, 0b101111100, 22, 4511392⟩,  -- entry 11 (R191)
   ⟨9, 0b101111101, 23, 8705696⟩,  -- entry 12 (R192)
   ⟨9, 0b101111110, 24, 17094304⟩  -- entry 13 (R193)
  ]

/-- The instruction each literal entry stands for, in table order. -/
def litInstrs : List Instr :=
  [.litc00, .litc01, .litc02, .litc03, .litcFF, .litc04, .litc05,
   .litc06, .litc07, .litc08, .litc09, .litc0A, .litc0B, .litc3A,
   .litc3B, .litc3C, .litc3D, .litc3E, .litc3F, .litc40, .litc80,
   .litc0C, .litc38, .litc39, .litc66]

/-- The instruction each match entry stands for, from its distance extra bits and its length code, in table order. -/
def matchInstrs : List (Nat → LengthCode → Instr) :=
  [fun x len => .matchC0 (BitVec.ofNat 5 x) len,
   fun x len => .matchC1 (BitVec.ofNat 7 x) len,
   fun x len => .matchC2 (BitVec.ofNat 9 x) len,
   fun x len => .matchC3 (BitVec.ofNat 10 x) len,
   fun x len => .matchC4 (BitVec.ofNat 12 x) len,
   fun x len => .matchC5 (BitVec.ofNat 14 x) len,
   fun x len => .matchC6 (BitVec.ofNat 15 x) len,
   fun x len => .matchC7 (BitVec.ofNat 18 x) len,
   fun x len => .matchC8 (BitVec.ofNat 20 x) len,
   fun x len => .matchC9 (BitVec.ofNat 20 x) len,
   fun x len => .matchC10 (BitVec.ofNat 21 x) len,
   fun x len => .matchC11 (BitVec.ofNat 22 x) len,
   fun x len => .matchC12 (BitVec.ofNat 23 x) len,
   fun x len => .matchC13 (BitVec.ofNat 24 x) len]

/-- The rows of the opcode table that stand for literal entries (rule R110). -/
def litRows : List (Token × Instr) := refLitTable.zip litInstrs

/-- The rows of the opcode table that stand for match entries (rule R110). -/
def matchRows : List (Token × (Nat → LengthCode → Instr)) := refMatchTable.zip matchInstrs

/-- The defaults of rule R6: a history of 2500000 bytes, all `0x00`, the reference tables, and `fail`. PRESUMED: the spec
takes the capacity, the tables and the zero fill from general knowledge (assumptions 1 and 2). -/
def Config.reference : Config :=
  { histCap := 2500000, litTable := refLitTable, matchTable := refMatchTable, histInit := { fill := 0, cells := [] },
    underrun := .fail }

/-! ### The constraints on a table (rules R7, R131, R140, U15) -/

/-- The prefix of an entry: at least two bits, no more than the accumulator can hold (U15), a number of that many bits
that starts with `lead` (`0b10` or `0b11`). -/
def Token.prefixLegal (lead : Nat) (e : Token) : Bool :=
  decide (2 ≤ e.prefixLen) && decide (e.prefixLen ≤ accW) && decide (e.prefixCode < 2 ^ e.prefixLen) &&
    decide (e.prefixCode / 2 ^ (e.prefixLen - 2) = lead)

/-- Increasing prefix length from `len` bits on (rules R7, R320), no step of more than `N_MAX` bits, which the walk asks
for in one `get_bits` (rule R131, assumption 21). -/
def ascending : Nat → List Token → Bool
  | _, [] => true
  | len, e :: es => decide (len ≤ e.prefixLen) && decide (e.prefixLen ≤ len + nMax) && ascending e.prefixLen es

/-- A literal table that rule R7 allows: no extra value bits, and the base is a byte (rule R140). -/
def litTableLegal (t : List Token) : Bool :=
  t.all (fun e => e.prefixLegal 0b11 && decide (e.valueBits = 0) && decide (e.base < 256)) && ascending 2 t

/-- A match table that rule R7 allows: at most `N_MAX` extra value bits. -/
def matchTableLegal (t : List Token) : Bool :=
  t.all (fun e => e.prefixLegal 0b10 && decide (e.valueBits ≤ nMax)) && ascending 2 t

/-- The tables are tables of this hardware. The two are then disjoint, because their leading bits differ. -/
def Config.tablesLegal (cfg : Config) : Bool := litTableLegal cfg.litTable && matchTableLegal cfg.matchTable

/-- The width of `PFX`: the longest prefix length of either table (rule R25), at least the two bits of the outer branch. -/
def Config.prefixWidth (cfg : Config) : Nat :=
  (cfg.litTable ++ cfg.matchTable).foldl (fun w e => max w e.prefixLen) 2

/-- The largest distance that `DIST` can hold (rule R25). -/
def Config.maxDistance (cfg : Config) : Nat :=
  cfg.matchTable.foldl (fun d e => max d (e.base + 2 ^ e.valueBits - 1)) 0

/-! ### The decoder -/

/-- What the table walk ends in: an entry, or the bits that no entry matches (rules R142, R143). -/
inductive Walked where
  | found (e : Token)
  | unmatched (pfx len : Nat)

/-- The literal of an entry, by its row of the opcode table where it has one (rules R110, R145). -/
def literalForm (e : Token) : Form :=
  match litRows.find? fun r => r.1 == e with
  | some r => .row r.2
  | none => .literal e

/-- The match of an entry, by its row where it has one (rules R110, R146). -/
def matchForm (e : Token) (x : Nat) (len : LengthCode) : Form :=
  match matchRows.find? fun r => r.1 == e with
  | some r => .row (r.2 x len)
  | none => .copy e x len

/-- The unencoded run that an entry selects: the row `UNENC` is that of reference entry 0 (rules R100, R110). -/
def runForm (e : Token) (count : Nat) : Form :=
  if refMatchTable.head? = some e then .row (.unenc (BitVec.ofNat 15 count)) else .run e (BitVec.ofNat 15 count)

/-- Bits that no entry matches, by the two `ILLEGAL` rows where they are those nine bits (rules R143, R194, R195). -/
def unmatchedForm (t : TableSel) (pfx len : Nat) : Form :=
  if t = .matchTable ∧ len = 9 ∧ pfx = 0b101111111 then .row .illegal101111111
  else if t = .matchTable ∧ len = 9 ∧ pfx / 16 = 0b10000 then .row (.illegal10000 (BitVec.ofNat 4 pfx))
  else .unmatched t pfx len

section
variable {ε σ : Type} (rd : Reader ε σ)

/-- `get_bits` of the missing bits of a prefix, appended to it (the first `if` of rule R142's loop). -/
def extendPrefix (want pfx len : Nat) (s : σ) : Res ε σ (Nat × Nat) :=
  if len < want then
    (rd.read (want - len) s).bind fun v s => .ok ((pfx <<< (want - len)) ||| v, want) s
  else .ok (pfx, len) s

/-- The table walk, entry by entry in table order (rule R142). -/
def walk : List Token → Nat → Nat → σ → Res ε σ Walked
  | [], pfx, len, s => .ok (.unmatched pfx len) s
  | e :: rest, pfx, len, s =>
    (extendPrefix rd e.prefixLen pfx len s).bind fun p s =>
      if p.2 = e.prefixLen ∧ p.1 = e.prefixCode then .ok (.found e) s
      else walk rest p.1 p.2 s

/-- The unary part of the length code and its value bits, with `extra` the bits to read so far and `fuel` the doublings
still allowed: `extra = 16` with no fuel left is rule R231's guard. -/
def readUnary : Nat → Nat → σ → Res ε σ LengthCode
  | fuel, extra, s =>
    (rd.read 1 s).bind fun b s =>
      if b = 0 then (rd.read extra s).bind fun w s => .ok (.ext extra w) s
      else match fuel with
        | 0 => .ok .overrun s
        | fuel + 1 => readUnary fuel (extra + 1) s

/-- The length code (rule R230): one bit, then from `extra = 2` at most 14 doublings (rule R231). -/
def readLength (s : σ) : Res ε σ LengthCode :=
  (rd.read 1 s).bind fun b s => if b = 0 then .ok .three s else readUnary rd 14 2 s

/-- The token after the bits `11` (rule R228). -/
def decodeLiteral (cfg : Config) (s : σ) : Res ε σ Form :=
  (walk rd cfg.litTable 0b11 2 s).bind fun r s =>
    match r with
    | .found e => .ok (literalForm e) s
    | .unmatched pfx len => .ok (unmatchedForm .literalTable pfx len) s

/-- The token after the bits `10` (rule R229): entry, extra bits, then the count of a run or the length code. -/
def decodeMatch (cfg : Config) (s : σ) : Res ε σ Form :=
  (walk rd cfg.matchTable 0b10 2 s).bind fun r s =>
    match r with
    | .unmatched pfx len => .ok (unmatchedForm .matchTable pfx len) s
    | .found e =>
      (rd.read e.valueBits s).bind fun x s =>
        if e.base + x = 0 then (rd.read 15 s).bind fun c s => .ok (runForm e c) s
        else (readLength rd s).bind fun len s => .ok (matchForm e x len) s

/-- One token of a core with the tables of `cfg` (rule R225): the selector bit, then the table-select bit. -/
def decodeTokenWith (cfg : Config) (s : σ) : Res ε σ Form :=
  (rd.read 1 s).bind fun b s =>
    if b = 0 then (rd.read 8 s).bind fun v s => .ok (.row (.lit8 (BitVec.ofNat 8 v))) s
    else (rd.read 1 s).bind fun t s => if t = 0 then decodeMatch rd cfg s else decodeLiteral rd cfg s

end

/-- Why a list of bits is no instruction: it ends too soon (rule R122), or the byte is no frame descriptor (rule R93). -/
inductive DecodeError where
  | exhausted
  | notAFrame (descriptor : Byte)
deriving DecidableEq, Repr

/-- The next `n` bits of a list (rule R123); a read that finds fewer takes none (rule R122). -/
def listReader : Reader DecodeError (List Bool) where
  read n bits :=
    if n ≤ bits.length then .ok (bitsToNat (bits.take n)) (bits.drop n) else .stop .exhausted bits

/-- The segment form a control byte selects (rules R94, R221). -/
def decodeSegment (ctrl : Byte) : Instr :=
  if ctrl.getLsbD 5 then .segComp ctrl else .segRaw ctrl

/-- The frame form a descriptor byte selects, `none` where it is no frame (rules R91 to R93). -/
def decodeFrame (descriptor : Byte) : Option Instr :=
  if descriptor = 0xE0 then some .frameSingle
  else if descriptor = 0xE1 then some .frameMulti
  else none

/-- Decoding of one instruction of a layer from a list of bits, by a core with the tables of `cfg`; the bits after it are
handed back. -/
def decode (cfg : Config) (layer : Layer) (bits : List Bool) : Res DecodeError (List Bool) Form :=
  match layer with
  | .token => decodeTokenWith listReader cfg bits
  | .segment =>
    (listReader.read 8 bits).bind fun c rest => .ok (.row (decodeSegment (BitVec.ofNat 8 c))) rest
  | .frame =>
    (listReader.read 8 bits).bind fun d rest =>
      match decodeFrame (BitVec.ofNat 8 d) with
      | some i => .ok (.row i) rest
      | none => .stop (.notAFrame (BitVec.ofNat 8 d)) rest

/-! ### The encoder -/

/-- The length code's bits (rule R102). -/
def encodeLength : LengthCode → List Bool
  | .three => [false]
  | .ext extra w => List.replicate (extra - 1) true ++ false :: natToBits extra w
  | .overrun => List.replicate 16 true

/-- The bits of an instruction in stream order (rules R91, R92, R94, R97 to R100, R194, R195): of a token all bits the
decoder reads, of a segment or frame its first byte. -/
def encode : Instr → List Bool
  | .lit8 v => false :: natToBits 8 v.toNat
  | .litc00 => natToBits 5 0b11000
  | .litc01 => natToBits 5 0b11001
  | .litc02 => natToBits 6 0b110100
  | .litc03 => natToBits 6 0b110101
  | .litcFF => natToBits 6 0b110110
  | .litc04 => natToBits 7 0b1101110
  | .litc05 => natToBits 7 0b1101111
  | .litc06 => natToBits 7 0b1110000
  | .litc07 => natToBits 7 0b1110001
  | .litc08 => natToBits 7 0b1110010
  | .litc09 => natToBits 7 0b1110011
  | .litc0A => natToBits 7 0b1110100
  | .litc0B => natToBits 7 0b1110101
  | .litc3A => natToBits 7 0b1110110
  | .litc3B => natToBits 7 0b1110111
  | .litc3C => natToBits 7 0b1111000
  | .litc3D => natToBits 7 0b1111001
  | .litc3E => natToBits 7 0b1111010
  | .litc3F => natToBits 7 0b1111011
  | .litc40 => natToBits 7 0b1111100
  | .litc80 => natToBits 7 0b1111101
  | .litc0C => natToBits 8 0b11111100
  | .litc38 => natToBits 8 0b11111101
  | .litc39 => natToBits 8 0b11111110
  | .litc66 => natToBits 8 0b11111111
  | .matchC0 x len => natToBits 5 0b10001 ++ natToBits 5 x.toNat ++ encodeLength len
  | .matchC1 x len => natToBits 5 0b10010 ++ natToBits 7 x.toNat ++ encodeLength len
  | .matchC2 x len => natToBits 5 0b10011 ++ natToBits 9 x.toNat ++ encodeLength len
  | .matchC3 x len => natToBits 5 0b10100 ++ natToBits 10 x.toNat ++ encodeLength len
  | .matchC4 x len => natToBits 5 0b10101 ++ natToBits 12 x.toNat ++ encodeLength len
  | .matchC5 x len => natToBits 6 0b101100 ++ natToBits 14 x.toNat ++ encodeLength len
  | .matchC6 x len => natToBits 6 0b101101 ++ natToBits 15 x.toNat ++ encodeLength len
  | .matchC7 x len => natToBits 7 0b1011100 ++ natToBits 18 x.toNat ++ encodeLength len
  | .matchC8 x len => natToBits 7 0b1011101 ++ natToBits 20 x.toNat ++ encodeLength len
  | .matchC9 x len => natToBits 8 0b10111100 ++ natToBits 20 x.toNat ++ encodeLength len
  | .matchC10 x len => natToBits 8 0b10111101 ++ natToBits 21 x.toNat ++ encodeLength len
  | .matchC11 x len => natToBits 9 0b101111100 ++ natToBits 22 x.toNat ++ encodeLength len
  | .matchC12 x len => natToBits 9 0b101111101 ++ natToBits 23 x.toNat ++ encodeLength len
  | .matchC13 x len => natToBits 9 0b101111110 ++ natToBits 24 x.toNat ++ encodeLength len
  | .unenc count => natToBits 10 0b1000100000 ++ natToBits 15 count.toNat
  | .illegal10000 rest => natToBits 5 0b10000 ++ natToBits 4 rest.toNat
  | .illegal101111111 => natToBits 9 0b101111111
  | .segRaw ctrl => byteBits ctrl
  | .segComp ctrl => byteBits ctrl
  | .frameSingle => byteBits 0xE0
  | .frameMulti => byteBits 0xE1

/-- The bits of an entry's prefix (rule R140). -/
def Token.prefixBits (e : Token) : List Bool := natToBits e.prefixLen e.prefixCode

/-- The bits of a form in stream order (rules R98 to R100, R143). -/
def encodeForm : Form → List Bool
  | .row i => encode i
  | .literal e => e.prefixBits
  | .copy e x len => e.prefixBits ++ natToBits e.valueBits x ++ encodeLength len
  | .run e count => e.prefixBits ++ natToBits e.valueBits 0 ++ natToBits 15 count.toNat
  | .unmatched _ pfx len => natToBits len pfx

/-! ### The opcode table's numbering -/

/-- One row of spec/opcode_table.json: the fixed leading bits as a number of `width` bits, first stream bit most
significant (rule R110). -/
structure OpcodeRow where
  layer : Layer
  width : Nat
  mask : Nat
  pattern : Nat

/-- The rows, tokens first, then frames, then the segment rows, whose one fixed bit is the least specific. -/
def opcodeRows : List OpcodeRow :=
  [
   ⟨.token, 9, 0x100, 0x000⟩,  -- LIT8
   ⟨.token, 5, 0x1F, 0x18⟩,  -- LITC_0x00
   ⟨.token, 5, 0x1F, 0x19⟩,  -- LITC_0x01
   ⟨.token, 6, 0x3F, 0x34⟩,  -- LITC_0x02
   ⟨.token, 6, 0x3F, 0x35⟩,  -- LITC_0x03
   ⟨.token, 6, 0x3F, 0x36⟩,  -- LITC_0xFF
   ⟨.token, 7, 0x7F, 0x6E⟩,  -- LITC_0x04
   ⟨.token, 7, 0x7F, 0x6F⟩,  -- LITC_0x05
   ⟨.token, 7, 0x7F, 0x70⟩,  -- LITC_0x06
   ⟨.token, 7, 0x7F, 0x71⟩,  -- LITC_0x07
   ⟨.token, 7, 0x7F, 0x72⟩,  -- LITC_0x08
   ⟨.token, 7, 0x7F, 0x73⟩,  -- LITC_0x09
   ⟨.token, 7, 0x7F, 0x74⟩,  -- LITC_0x0A
   ⟨.token, 7, 0x7F, 0x75⟩,  -- LITC_0x0B
   ⟨.token, 7, 0x7F, 0x76⟩,  -- LITC_0x3A
   ⟨.token, 7, 0x7F, 0x77⟩,  -- LITC_0x3B
   ⟨.token, 7, 0x7F, 0x78⟩,  -- LITC_0x3C
   ⟨.token, 7, 0x7F, 0x79⟩,  -- LITC_0x3D
   ⟨.token, 7, 0x7F, 0x7A⟩,  -- LITC_0x3E
   ⟨.token, 7, 0x7F, 0x7B⟩,  -- LITC_0x3F
   ⟨.token, 7, 0x7F, 0x7C⟩,  -- LITC_0x40
   ⟨.token, 7, 0x7F, 0x7D⟩,  -- LITC_0x80
   ⟨.token, 8, 0xFF, 0xFC⟩,  -- LITC_0x0C
   ⟨.token, 8, 0xFF, 0xFD⟩,  -- LITC_0x38
   ⟨.token, 8, 0xFF, 0xFE⟩,  -- LITC_0x39
   ⟨.token, 8, 0xFF, 0xFF⟩,  -- LITC_0x66
   ⟨.token, 10, 0x3E0, 0x220⟩,  -- MATCH.c0
   ⟨.token, 12, 0xF80, 0x900⟩,  -- MATCH.c1
   ⟨.token, 14, 0x3E00, 0x2600⟩,  -- MATCH.c2
   ⟨.token, 15, 0x7C00, 0x5000⟩,  -- MATCH.c3
   ⟨.token, 17, 0x1F000, 0x15000⟩,  -- MATCH.c4
   ⟨.token, 20, 0xFC000, 0xB0000⟩,  -- MATCH.c5
   ⟨.token, 21, 0x1F8000, 0x168000⟩,  -- MATCH.c6
   ⟨.token, 25, 0x1FC0000, 0x1700000⟩,  -- MATCH.c7
   ⟨.token, 27, 0x7F00000, 0x5D00000⟩,  -- MATCH.c8
   ⟨.token, 28, 0xFF00000, 0xBC00000⟩,  -- MATCH.c9
   ⟨.token, 29, 0x1FE00000, 0x17A00000⟩,  -- MATCH.c10
   ⟨.token, 31, 0x7FC00000, 0x5F000000⟩,  -- MATCH.c11
   ⟨.token, 32, 0xFF800000, 0xBE800000⟩,  -- MATCH.c12
   ⟨.token, 33, 0x1FF000000, 0x17E000000⟩,  -- MATCH.c13
   ⟨.token, 25, 0x1FF8000, 0x1100000⟩,  -- UNENC
   ⟨.token, 5, 0x1F, 0x10⟩,  -- ILLEGAL
   ⟨.token, 9, 0x1FF, 0x17F⟩,  -- ILLEGAL
   ⟨.frame, 8, 0xFF, 0xE0⟩,  -- FRAME_SINGLE
   ⟨.frame, 8, 0xFF, 0xE1⟩,  -- FRAME_MULTI
   ⟨.segment, 8, 0x20, 0x00⟩,  -- SEG_RAW
   ⟨.segment, 8, 0x20, 0x20⟩  -- SEG_COMP
  ]

/-- The row whose number `w` is, among the rows of `nbits` bits in whole bytes. -/
def opcodeRow (nbits w : Nat) : Option OpcodeRow :=
  opcodeRows.find? fun r =>
    decide ((r.width + 7) / 8 * 8 = nbits) && decide (w < 2 ^ r.width) && decide (w &&& r.mask = r.pattern)

/-- An instruction numbered as the table numbers it, in stream order: the row's `width` bits, then zero bits. -/
def opcodeBits (nbits w : Nat) : Option (Layer × List Bool) :=
  (opcodeRow nbits w).map fun r => (r.layer, natToBits r.width w ++ List.replicate 63 false)

/-- The instruction the decoder reads, with the reference tables, from an instruction whose bits are `w`, numbered as
the opcode table numbers them; every bit above `nbits` is 0. -/
def decodeTableWord (nbits w : Nat) : Option Instr :=
  match opcodeBits nbits w with
  | none => none
  | some (layer, bits) =>
    match decode Config.reference layer bits with
    | .ok (.row i) _ => some i
    | .ok _ _ => none
    | .stop _ _ => none

end Sys2Proof
end

