-- ==== Sys2Proof/Machine/State.lean ====
section
/-! DEFINITION. The machine's state as plain data, its stops, and the state after a session reset.

Registers that the spec treats as bits (`ACC`, `CTRL`, `PAD`) are bit vectors; counts, indexes and lengths are naturals,
as rule R9 and decision D6 take them, and `State.Widths` (Safety.lean) says that each stays inside the width that
10_state.md gives it. -/

namespace Sys2Proof.Machine

/-- `STATE` (rule R29). -/
inductive DecState where
  | readSelector
  | literal
  | matchOrLiteral
  | decodeToken
  | matchBody
  | unencoded
  | done
  | failed
deriving DecidableEq, Repr

/-- The numeric code of `STATE` (rule R29). -/
def DecState.code : DecState → BitVec 3
  | .readSelector => 0
  | .literal => 1
  | .matchOrLiteral => 2
  | .decodeToken => 3
  | .matchBody => 4
  | .unencoded => 5
  | .done => 6
  | .failed => 7

/-- The four error kinds (rule R280). -/
inductive ErrKind where
  | bitstreamExhausted
  | invalidPadIndicator
  | outputCapacityExceeded
  | unmatchedCode
deriving DecidableEq, Repr

/-- The numeric code of `ERR` (rule R30): `none` is 0, and 5 to 7 are never written. -/
def errCode : Option ErrKind → BitVec 3
  | none => 0
  | some .bitstreamExhausted => 1
  | some .invalidPadIndicator => 2
  | some .outputCapacityExceeded => 3
  | some .unmatchedCode => 4

/-- The address spaces that hold bytes (rule R72). -/
inductive Space where
  | input
  | history
  | output
deriving DecidableEq, Repr

/-- A memory: a list of addresses and bytes. `Memory.wf` (Ops.lean) is its canonical form; `initBytes` and `noByte`
there say what an address that is not listed reads as. -/
structure Memory where
  cells : List Host.Cell
deriving DecidableEq, Repr

/-- What the host still has to ask of the core, each once the one before has ended (rules R270, R310): a `decompress`
call (rule R260), a bare segment start (rule R220), a session reset (rule R310), and a session reset that the host
does not hold back to the end of a multipart frame: it comes before segment `before` of the frame (rule R314, U14). -/
inductive Command where
  | decompress (input : List Byte) (offset : Nat)
  | segment (seg : List Byte)
  | sessionReset
  | resetInFrame (before : Nat)
deriving DecidableEq, Repr

/-- What a `decompress` call returned (rules R260, R268, R269): an output buffer, the value of an error register, or
the input unchanged. -/
inductive CallResult where
  | ok (bytes : List Byte)
  | error (e : Option ErrKind)
  | passThrough (input : List Byte)
deriving DecidableEq, Repr

/-- Where the FrameAssembler is (rules R263 to R266): no frame open; waiting for the segment of a single frame; at the
head of the multipart loop; waiting for a segment of a multipart frame. -/
inductive HostPhase where
  | idle
  | single
  | multiNext
  | multiWait
deriving DecidableEq, Repr

/-- Everything the machine holds. INVENTORY.md names the rule of the spec for each field. -/
structure State where
  cfg : Config
  hist : Memory
  histIdx : Nat
  out : Memory
  outCnt : Nat
  inBytes : List Byte
  inLen : Nat
  byteCur : Nat
  acc : BitVec 32
  accCnt : Nat
  bitsRem : Nat
  state : DecState
  err : Option ErrKind
  ctrl : Byte
  pad : Byte
  tblSel : TableSel
  pfx : Nat
  pfxLen : Nat
  dist : Nat
  len : Nat
  extra : Nat
  count : Nat
  calls : List Command
  presented : Option (List Byte)
  phase : HostPhase
  input : List Byte
  offset : Nat
  cursor : Nat
  segmentCount : Nat
  segIndex : Nat
  uncompressedSize : Nat
  segmentSize : Nat
  total : Nat
  result : List Byte
  ret : Option CallResult
deriving DecidableEq, Repr

/-- Why the machine stops with a fault. No state that meets `State.Inv` raises one (rule R73). -/
inductive Fault where
  /-- Raised by a read of `IN` past the bytes the host presents (rules R72, R73, R79). Safe: the machine stops. -/
  | noSuchAddress (space : Space) (addr : Nat)
  /-- Raised when the host reads a byte of `OUT` that nothing has written (rule R62). Safe: the machine stops. -/
  | unwrittenOutput (count : Nat)
deriving DecidableEq, Repr

/-- Requests the spec gives no meaning (rule R11). -/
inductive Refusal where
  /-- An instruction whose meaning is not written yet; no arm of `exec` answers it. Safe. -/
  | notModelled (mnemonic : String)
  /-- A segment start, or a frame, while a segment is in progress (rule R313, U6). Safe. -/
  | startWhileBusy
  /-- A session reset while a segment is in progress (U6). Safe. -/
  | resetWhileBusy
  /-- `get_bits(n)` with `n` above `N_MAX` (rule R131, U2). Safe. -/
  | getBitsTooWide (n : Nat)
  /-- A segment of `2^32` bytes or more, outside rule R220's operand range. Safe. -/
  | segmentTooLong
  /-- The term `matchC0 0 _`, which no encoding stands for (rule R110): its bits are `UNENC`. Safe. -/
  | zeroDistanceMatch
  /-- A token step of a core whose token tables break a constraint of rule R7 (U15). Safe. -/
  | illegalTables
  /-- A step in the middle of a token; a token is atomic (rules R5, R29). Safe. -/
  | insideToken
deriving DecidableEq, Repr

/-- Why an operation stops: `raise K` (rule R10), a fault, or a refusal. -/
inductive Stop where
  | raise (k : ErrKind)
  | fault (f : Fault)
  | refuse (r : Refusal)
deriving DecidableEq, Repr

/-- What an operation on the state answers. -/
abbrev Act (α : Type) := Res Stop State α

/-- What a step answers. -/
abbrev Outcome := Host.Outcome State Fault Refusal

/-- The state right after a session reset of a core with the parameters `cfg` (rules R310, R311), with no command
pending. Every register that rule R311 leaves unspecified is 0 and `OUT` holds no written byte
(DESIGN CHOICE, assumption 3). -/
def State.resetWith (cfg : Config) : State where
  cfg := cfg
  hist := ⟨[]⟩
  histIdx := 0
  out := ⟨[]⟩
  outCnt := 0
  inBytes := []
  inLen := 0
  byteCur := 0
  acc := 0
  accCnt := 0
  bitsRem := 0
  state := .done
  err := none
  ctrl := 0
  pad := 0
  tblSel := .matchTable
  pfx := 0
  pfxLen := 0
  dist := 0
  len := 0
  extra := 0
  count := 0
  calls := []
  presented := none
  phase := .idle
  input := []
  offset := 0
  cursor := 0
  segmentCount := 0
  segIndex := 0
  uncompressedSize := 0
  segmentSize := 0
  total := 0
  result := []
  ret := none

/-- The machine right after a session reset, with the parameters at the defaults of rule R6. -/
def State.reset : State := State.resetWith Config.reference

end Sys2Proof.Machine
end

