-- ==== Sys2Proof/Machine/Flags.lean ====
section
/-! DEFINITION. The status conditions of rule R28, all functions of `STATE`; the hardware has no other flag. -/

namespace Sys2Proof.Machine

/-- `BUSY`: `STATE` is not in `{Done, Failed}`. -/
def State.busy (s : State) : Bool := !(s.state == .done || s.state == .failed)

/-- `DONE`: `STATE = Done`. -/
def State.isDone (s : State) : Bool := s.state == .done

/-- `FAILED`: `STATE = Failed`. -/
def State.isFailed (s : State) : Bool := s.state == .failed

/-- `OUT_VALID`: `OUT[0 .. OUT_CNT-1]` is a valid decoded segment. It is `DONE`. -/
def State.outValid (s : State) : Bool := s.isDone

end Sys2Proof.Machine
end

