-- ==== Sys2Proof/Machine/Operands.lean ====
section
/-! DEFINITION. The operand forms: the distance and the length of a match, the slices of a segment, the host's
little-endian fields, and the program counter. -/

namespace Sys2Proof.Machine

/-- `DIST = base + x` (rules R101, R229). -/
def distanceOf (e : Token) (x : Nat) : Nat := e.base + x

/-- `LEN` and `EXTRA` at the end of the length code (rules R102, R230). After rule R231's guard `LEN` is `2^16`, the
value it had when the sixteenth one-bit was read. The code `0` does not write `EXTRA`, so `extra` is kept. -/
def lengthOf (len : LengthCode) (extra : Nat) : Nat × Nat :=
  match len with
  | .three => (3, extra)
  | .ext e w => (2 ^ e + w, e)
  | .overrun => (2 ^ 16, 16)

/-- The budget of a compressed segment of `segLen` bytes (rule R95). -/
def bitBudget (segLen pad : Nat) : Nat := 8 * (segLen - 2) - pad

/-- The bitstream bytes `seg[1 .. segment_len-2]` (rules R60, R94). -/
def bitstreamBytes (seg : List Byte) : List Byte := (seg.drop 1).take (seg.length - 2)

/-- The body `seg[1 .. segment_len-1]` of a raw segment (rule R222). -/
def rawBody (seg : List Byte) : List Byte := seg.drop 1

/-- A little-endian field of `n` bytes at `p` in the host's input (rules R66, R264, R265). -/
def inputField (input : List Byte) (p n : Nat) : Nat := leNat ((input.drop p).take n)

/-- `BIT_POS = 8 * BYTE_CUR - ACC_CNT`, the program counter (rule R27). -/
def State.bitPos (s : State) : Nat := 8 * s.byteCur - s.accCnt

/-- The bits the BitReader has not handed out: the low `ACC_CNT` bits of `ACC`, then the bits of `IN` from `BYTE_CUR`
to `IN_LEN`. By the accumulator invariant (rule R128) these are the stream bits from `BIT_POS` on (rule R123). -/
def State.pendingBits (s : State) : List Bool :=
  natToBits s.accCnt s.acc.toNat ++ streamBits ((s.inBytes.take s.inLen).drop s.byteCur)

/-- The bits that tokens may still use: the pending bits within the bit budget (rule R95). -/
def State.tokenBits (s : State) : List Bool := s.pendingBits.take s.bitsRem

end Sys2Proof.Machine
end

