-- ==== Sys2Proof/Machine/Ops.lean ====
section
/-! DEFINITION. The named operations: memory, BitReader, history and output, entry to and return from `Failed`. -/

namespace Sys2Proof.Machine

/-! ### Memory (rules R61, R62, R70) -/

/-- What an address that a memory does not list reads as: a byte, or nothing. -/
abbrev Unlisted := Nat → Option Byte

/-- The byte of `HIST_INIT` at an address (rules R6, R311). -/
def initByte (h : HistInit) (a : Nat) : Byte :=
  ((h.cells.find? fun c => c.1 == a).map Prod.snd).getD h.fill

/-- An unlisted address of `HIST` reads as `HIST_INIT` (rules R61, R75). -/
def initBytes (h : HistInit) : Unlisted := fun a => some (initByte h a)

/-- An unlisted address of `OUT` holds no byte: its content after a session reset is unspecified (rule R62). -/
def noByte : Unlisted := fun _ => none

/-- The canonical form of a memory: addresses strictly rising, and no listed byte equal to what its address would read
as if it were not listed. Equal memories are equal data. -/
def Memory.wf (m : Memory) (unlisted : Unlisted) : Bool :=
  decide ((m.cells.map Prod.fst).Pairwise (· < ·)) && m.cells.all fun c => decide (unlisted c.1 ≠ some c.2)

/-- The byte listed at `a`. -/
def Memory.get? (m : Memory) (a : Nat) : Option Byte :=
  (m.cells.find? fun c => c.1 == a).map Prod.snd

/-- The cell list with `b` at `a`, in rising order. -/
def insertCell (a : Nat) (b : Byte) : List Host.Cell → List Host.Cell
  | [] => [(a, b)]
  | c :: cs =>
    if a < c.1 then (a, b) :: c :: cs
    else if a = c.1 then (a, b) :: cs
    else c :: insertCell a b cs

/-- The cell list with nothing at `a`. -/
def eraseCell (a : Nat) (cells : List Host.Cell) : List Host.Cell := cells.filter fun c => decide (c.1 ≠ a)

/-- `MemWrite` of one byte (rule R10); writing what the unlisted address reads as removes the entry. -/
def Memory.write (m : Memory) (unlisted : Unlisted) (a : Nat) (b : Byte) : Memory :=
  ⟨if unlisted a = some b then eraseCell a m.cells else insertCell a b m.cells⟩

/-- `MemWrite` of a byte string at rising addresses (rules R10, R70). -/
def Memory.writeList (m : Memory) (unlisted : Unlisted) : Nat → List Byte → Memory
  | _, [] => m
  | a, b :: bs => (m.write unlisted a b).writeList unlisted (a + 1) bs

/-- `MemRead` of `n` bytes of `OUT` from `a`; `none` where one of them has not been written. -/
def Memory.readList (m : Memory) (a n : Nat) : Option (List Byte) :=
  (List.range n).mapM fun i => m.get? (a + i)

/-- The byte of the ring at address `a mod HIST_CAP`: the byte most recently written there, or `HIST_INIT` if none has
been since the session reset (rules R61, R75). -/
def State.histByte (s : State) (a : Nat) : Byte :=
  (s.hist.get? (a % s.cfg.histCap)).getD (initByte s.cfg.histInit (a % s.cfg.histCap))

/-- `OUT[0 .. OUT_CNT-1]` as the host reads it after `Done` (rules R62, R263); a byte nothing has written is a fault. -/
def State.outBytes (s : State) : Except Fault (List Byte) :=
  match s.out.readList 0 s.outCnt with
  | some bytes => .ok bytes
  | none => .error (.unwrittenOutput s.outCnt)

/-- `MemRead(IN, a, n)` (rule R10); an address past the presented bytes does not exist (rules R72, R73). -/
def readInput (a n : Nat) (s : State) : Act (List Byte) :=
  let slice := (s.inBytes.drop a).take n
  if slice.length = n then .ok slice s else .stop (.fault (.noSuchAddress .input (a + slice.length))) s

/-! ### The BitReader (rules R120 to R131) -/

/-- `init(input, bit_length)` (rule R120). -/
def State.initReader (s : State) (bytes : List Byte) (bitLength : Nat) : State :=
  { s with inBytes := bytes, inLen := bytes.length, byteCur := 0, acc := 0, accCnt := 0, bitsRem := bitLength }

/-- The accumulator with one more byte (the body of rule R121's `while`). -/
def State.pushByte (s : State) (b : Byte) : State :=
  { s with acc := (s.acc <<< 8) ||| b.zeroExtend 32, byteCur := s.byteCur + 1, accCnt := s.accCnt + 8 }

/-- The refill loop of rule R121, at most `fuel` bytes; three are enough for `n ≤ 24` (rule R64). -/
def refill (n : Nat) : Nat → State → Act Unit
  | 0, s => .ok () s
  | fuel + 1, s =>
    if s.accCnt < n then
      match s.inBytes[s.byteCur]? with
      | some b => refill n fuel (s.pushByte b)
      | none => .stop (.fault (.noSuchAddress .input s.byteCur)) s
    else .ok () s

/-- The value of the top `n` bits of the accumulator (rule R121). -/
def State.accTop (s : State) (n : Nat) : Nat := (s.acc >>> (s.accCnt - n)).toNat % 2 ^ n

/-- The accumulator and the budget after `n` bits have left (rule R121). -/
def State.dropBits (s : State) (n : Nat) : State :=
  { s with accCnt := s.accCnt - n, acc := s.acc &&& BitVec.ofNat 32 (2 ^ (s.accCnt - n) - 1),
           bitsRem := s.bitsRem - n }

/-- `get_bits(n)` (rules R121, R122, R131). A failing call changes nothing: both checks come first. -/
def getBits (n : Nat) (s : State) : Act Nat :=
  if nMax < n then .stop (.refuse (.getBitsTooWide n)) s
  else if s.bitsRem < n then .stop (.raise .bitstreamExhausted) s
  else if 8 * (s.inLen - s.byteCur) + s.accCnt < n then .stop (.raise .bitstreamExhausted) s
  else (refill n 3 s).bind fun _ s => .ok (s.accTop n) (s.dropBits n)

/-- `copy_raw(dest, n_bytes)` (rule R124): a look-ahead that changes no register. No token calls it. -/
def copyRaw (n : Nat) (s : State) : Act (List Byte) :=
  if s.inLen - s.byteCur < n then .stop (.raise .bitstreamExhausted) s else readInput s.byteCur n s

/-- `copy_raw_advance(dest, n_bytes)` (rule R125): slice first, then budget; the accumulator is not touched. -/
def copyRawAdvance (n : Nat) (s : State) : Act (List Byte) :=
  if s.inLen - s.byteCur < n then .stop (.raise .bitstreamExhausted) s
  else if s.bitsRem < 8 * n then .stop (.raise .bitstreamExhausted) s
  else (readInput s.byteCur n s).bind fun bytes s =>
    .ok bytes { s with byteCur := s.byteCur + n, bitsRem := s.bitsRem - 8 * n }

/-- `realign()` (rules R126, R127): the budget stops at 0. -/
def State.realign (s : State) : State :=
  { s with acc := 0, accCnt := 0, bitsRem := s.bitsRem - min s.accCnt s.bitsRem }

/-! ### History and output (rules R200, R201, R208) -/

/-- `ring_write_byte(b)` (rule R200); the address is reduced `mod HIST_CAP` (rules R10, R61). -/
def State.ringWriteByte (s : State) (b : Byte) : State :=
  { s with hist := s.hist.write (initBytes s.cfg.histInit) (s.histIdx % s.cfg.histCap) b,
           histIdx := (s.histIdx + 1) % s.cfg.histCap }

/-- `ring_write(bytes)` (rule R201). -/
def State.ringWrite (s : State) (bytes : List Byte) : State := bytes.foldl State.ringWriteByte s

/-- The writes of `emit` (rule R208): the output first, then the ring. -/
def State.append (s : State) (bytes : List Byte) : State :=
  State.ringWrite { s with out := s.out.writeList noByte s.outCnt bytes, outCnt := s.outCnt + bytes.length } bytes

/-- `emit(bytes)` (rule R208): the capacity check comes before both writes. -/
def emit (bytes : List Byte) (s : State) : Act Unit :=
  if outCap - s.outCnt < bytes.length then .stop (.raise .outputCapacityExceeded) s
  else .ok () (s.append bytes)

/-! ### The segment decoder's control (rules R220, R224, R287, R290) -/

/-- The test of the token loop at a token boundary (rule R224). -/
def State.loopTest (s : State) : State :=
  { s with state := if 0 < s.bitsRem then .readSelector else .done }

/-- TAKING AN EXCEPTION: entry to `Failed` on `raise K` (rule R287). Nothing else is saved. -/
def State.enterFailed (s : State) (k : ErrKind) : State := { s with err := some k, state := .failed }

/-- RETURNING FROM AN EXCEPTION is the next segment start (rules R220, R290): refused while `BUSY` (rule R313) and for a
length outside the operand range; then `OUT_CNT` and `ERR` are reset, and a segment with no control byte fails.
The presented segment is taken; the operation answers it. -/
def startSegment (s : State) : Act (List Byte) :=
  if s.busy then .stop (.refuse .startWhileBusy) s
  else
    let seg := s.presented.getD []
    if 2 ^ 32 ≤ seg.length then .stop (.refuse .segmentTooLong) s
    else
      let s := { s with presented := none, outCnt := 0, err := none }
      if seg.length < 1 then .stop (.raise .bitstreamExhausted) s else .ok seg s

/-- The outcome of a stop: a raised error enters `Failed` and the machine goes on; faults and refusals stop it. -/
def stopOutcome (e : Stop) (s : State) : Outcome :=
  match e with
  | .raise k => .next (s.enterFailed k)
  | .fault f => .fault f
  | .refuse r => .refused r

/-- The outcome of an operation that answers no value. -/
def outcomeOf (r : Act Unit) : Outcome :=
  match r with
  | .ok _ s => .next s
  | .stop e s => stopOutcome e s

/-- The end of a token's meaning: `emit`, then the loop test (rules R224, R226, R228, R232, R233). -/
def emitAndLoop (bytes : List Byte) (s : State) : Act Unit :=
  (emit bytes s).bind fun _ s => .ok () s.loopTest

end Sys2Proof.Machine
end

