-- ==== Sys2Proof/Machine/Frame.lean ====
section
/-! DEFINITION. The host: the two frame forms and the FrameAssembler's own steps between segments (rules R260 to R270).

The host acts only while the core is idle (rule R270). A frame form reads its descriptor and header; the segments it
presents are run by the core, and `hostStep` takes up the frame when the core is idle again. -/

namespace Sys2Proof.Machine

/-- The call returns (rules R263, R266, R268, R269); the core's state is left as it is. -/
def State.hostReturn (s : State) (r : CallResult) : State := { s with phase := .idle, ret := some r }

/-- An error the host raises itself (rules R261, R264, R265): it touches no register of the core. -/
def State.hostRaise (s : State) (k : ErrKind) : State := s.hostReturn (.error (some k))

/-- `FRAME_SINGLE` (rule R263): all bytes after the descriptor are presented as one segment. -/
def execFrameSingle (s : State) : Outcome :=
  if s.busy then .refused .startWhileBusy
  else .next { s with presented := some (s.input.drop (s.offset + 1)), phase := .single, ret := none }

/-- The registers of a multipart header at `p` (rule R264). -/
def State.openFrame (s : State) (p : Nat) : State :=
  { s with segmentCount := inputField s.input p 2, uncompressedSize := inputField s.input (p + 2) 4,
           cursor := p + 6, segIndex := 0, total := 0, result := [], phase := .multiNext, ret := none }

/-- `FRAME_MULTI` (rule R264): the header; the loop is `nextSegment` and `collectMulti`. -/
def execFrameMulti (s : State) : Outcome :=
  if s.busy then .refused .startWhileBusy
  else if s.input.length < s.offset + 1 + 6 then .next (s.hostRaise .bitstreamExhausted)
  else .next (s.openFrame (s.offset + 1))

/-- The end of the multipart loop (rule R266). -/
def State.closeFrame (s : State) : State :=
  if s.total = s.uncompressedSize then s.hostReturn (.ok s.result)
  else match s.cfg.underrun with
    | .fail => s.hostRaise .outputCapacityExceeded
    | .short => s.hostReturn (.ok s.result)

/-- The head of the multipart loop (rule R265): a size field, then its bytes presented as a segment. -/
def State.nextSegment (s : State) : State :=
  if s.segIndex < s.segmentCount then
    if s.input.length < s.cursor + 4 then s.hostRaise .bitstreamExhausted
    else
      let size := inputField s.input s.cursor 4
      let s := { s with segmentSize := size, cursor := s.cursor + 4 }
      if s.input.length < s.cursor + size then s.hostRaise .bitstreamExhausted
      else { s with presented := some ((s.input.drop s.cursor).take size), phase := .multiWait }
  else s.closeFrame

/-- The end of a single frame's segment (rule R263). -/
def collectSingle (s : State) : Outcome :=
  if s.isFailed then .next (s.hostReturn (.error s.err))
  else match s.outBytes with
    | .ok bytes => .next (s.hostReturn (.ok bytes))
    | .error f => .fault f

/-- The end of a multipart frame's segment (rule R265). -/
def collectMulti (s : State) : Outcome :=
  if s.isFailed then .next (s.hostReturn (.error s.err))
  else
    let s := { s with cursor := s.cursor + s.segmentSize }
    if s.uncompressedSize < s.total + s.outCnt then .next (s.hostRaise .outputCapacityExceeded)
    else match s.outBytes with
      | .ok bytes =>
        .next { s with result := s.result ++ bytes, total := s.total + s.outCnt, segIndex := s.segIndex + 1,
                       phase := .multiNext }
      | .error f => .fault f

/-- The core of `s` as a session reset leaves it (rules R310, R311): a new DecoderContext with the same parameters. The
host's registers are not the core's and stay (rule R26). -/
def State.resetContext (s : State) : State :=
  { State.resetWith s.cfg with
      calls := s.calls, presented := s.presented, phase := s.phase, input := s.input, offset := s.offset,
      cursor := s.cursor, segmentCount := s.segmentCount, segIndex := s.segIndex,
      uncompressedSize := s.uncompressedSize, segmentSize := s.segmentSize, total := s.total, result := s.result,
      ret := s.ret }

/-- A session reset, refused while `BUSY` (U6). Between two segments of a frame it is no error (rule R314, U14). -/
def sessionReset (s : State) : Outcome :=
  if s.busy then .refused .resetWhileBusy else .next s.resetContext

/-- The host's registers at the entry of a `decompress` call (rule R260). -/
def State.enterCall (s : State) (input : List Byte) (offset : Nat) : State :=
  { s with input := input, offset := offset, ret := none }

end Sys2Proof.Machine
end

