-- ==== Sys2Proof/Machine/Literal.lean ====
section
/-! DEFINITION. The literal tokens: `LIT8` (rule R226), any entry of a literal table (rule R228), and the 25 entries of
the reference table.

A token's meaning starts after the fetch has read its bits (Machine/Fetch.lean), so the `BitstreamExhausted` that
these rules name is raised by the fetch. -/

namespace Sys2Proof.Machine

/-- `LIT8 v` (rule R226): emit the byte. -/
def execLit8 (v : BitVec 8) (s : State) : Outcome :=
  outcomeOf (emitAndLoop [v] { s with state := .literal })

/-- Entry `k` of the reference literal table. -/
def litEntry (k : Nat) : Token := refLitTable.getD k ⟨0, 0, 0, 0⟩

/-- The registers after a walk that found `e` (rules R25, R142, R225). -/
def State.walked (s : State) (t : TableSel) (e : Token) : State :=
  { s with state := .decodeToken, tblSel := t, pfx := e.prefixCode, pfxLen := e.prefixLen }

/-- A literal-table token (rules R145, R228): emit the entry's base, with no extra bits. -/
def literalToken (e : Token) (s : State) : Outcome :=
  outcomeOf (emitAndLoop [BitVec.ofNat 8 e.base] (s.walked .literalTable e))

/-- `LITC 0x00` (rules R150, R228). -/
def execLitc00 (s : State) : Outcome := literalToken (litEntry 0) s

/-- `LITC 0x01` (rules R151, R228). -/
def execLitc01 (s : State) : Outcome := literalToken (litEntry 1) s

/-- `LITC 0x02` (rules R152, R228). -/
def execLitc02 (s : State) : Outcome := literalToken (litEntry 2) s

/-- `LITC 0x03` (rules R153, R228). -/
def execLitc03 (s : State) : Outcome := literalToken (litEntry 3) s

/-- `LITC 0xFF` (rules R154, R228). -/
def execLitcFF (s : State) : Outcome := literalToken (litEntry 4) s

/-- `LITC 0x04` (rules R155, R228). -/
def execLitc04 (s : State) : Outcome := literalToken (litEntry 5) s

/-- `LITC 0x05` (rules R156, R228). -/
def execLitc05 (s : State) : Outcome := literalToken (litEntry 6) s

/-- `LITC 0x06` (rules R157, R228). -/
def execLitc06 (s : State) : Outcome := literalToken (litEntry 7) s

/-- `LITC 0x07` (rules R158, R228). -/
def execLitc07 (s : State) : Outcome := literalToken (litEntry 8) s

/-- `LITC 0x08` (rules R159, R228). -/
def execLitc08 (s : State) : Outcome := literalToken (litEntry 9) s

/-- `LITC 0x09` (rules R160, R228). -/
def execLitc09 (s : State) : Outcome := literalToken (litEntry 10) s

/-- `LITC 0x0A` (rules R161, R228). -/
def execLitc0A (s : State) : Outcome := literalToken (litEntry 11) s

/-- `LITC 0x0B` (rules R162, R228). -/
def execLitc0B (s : State) : Outcome := literalToken (litEntry 12) s

/-- `LITC 0x3A` (rules R163, R228). -/
def execLitc3A (s : State) : Outcome := literalToken (litEntry 13) s

/-- `LITC 0x3B` (rules R164, R228). -/
def execLitc3B (s : State) : Outcome := literalToken (litEntry 14) s

/-- `LITC 0x3C` (rules R165, R228). -/
def execLitc3C (s : State) : Outcome := literalToken (litEntry 15) s

/-- `LITC 0x3D` (rules R166, R228). -/
def execLitc3D (s : State) : Outcome := literalToken (litEntry 16) s

/-- `LITC 0x3E` (rules R167, R228). -/
def execLitc3E (s : State) : Outcome := literalToken (litEntry 17) s

/-- `LITC 0x3F` (rules R168, R228). -/
def execLitc3F (s : State) : Outcome := literalToken (litEntry 18) s

/-- `LITC 0x40` (rules R169, R228). -/
def execLitc40 (s : State) : Outcome := literalToken (litEntry 19) s

/-- `LITC 0x80` (rules R170, R228). -/
def execLitc80 (s : State) : Outcome := literalToken (litEntry 20) s

/-- `LITC 0x0C` (rules R171, R228). -/
def execLitc0C (s : State) : Outcome := literalToken (litEntry 21) s

/-- `LITC 0x38` (rules R172, R228). -/
def execLitc38 (s : State) : Outcome := literalToken (litEntry 22) s

/-- `LITC 0x39` (rules R173, R228). -/
def execLitc39 (s : State) : Outcome := literalToken (litEntry 23) s

/-- `LITC 0x66` (rules R174, R228). -/
def execLitc66 (s : State) : Outcome := literalToken (litEntry 24) s

end Sys2Proof.Machine
end

