-- ==== Sys2Proof/Machine/MatchCopy.lean ====
section
/-! DEFINITION. The match copy engine (rules R203 to R207), with the two procedures the spec compares it with. -/

namespace Sys2Proof.Machine

/-- The ring address of byte `i` of a match of distance `d`: `(HIST_IDX - d + i) mod HIST_CAP` on mathematical integers
(rules R9, R203, R204). -/
def State.sourceAddr (s : State) (d i : Nat) : Nat :=
  (((s.histIdx : Int) - d + i) % (s.cfg.histCap : Int)).toNat

/-- The bytes of `match_copy(d, l)`: `o[i] = H[(w - d + (i mod d)) mod HIST_CAP]`, all read from the history as it was
before the token (rules R76, R204). -/
def State.matchBytes (s : State) (d l : Nat) : List Byte :=
  (List.range l).map fun i => s.histByte (s.sourceAddr d (i % d))

/-- The doubling loop of rule R205: while bytes are missing, append a copy of the output's own first bytes. -/
def doubleUntil (l : Nat) : Nat → List Byte → List Byte
  | 0, o => o
  | fuel + 1, o =>
    if o.length < l then doubleUntil l fuel (o ++ o.take (min o.length (l - o.length))) else o

/-- The source's procedure (rule R205): a template of `min(d, l)` bytes from the ring, then doubling. -/
def State.matchBytesByDoubling (s : State) (d l : Nat) : List Byte :=
  doubleUntil l l ((List.range (min d l)).map fun i => s.histByte (s.sourceAddr d i))

/-- The copy rule R76 compares with: byte by byte, each byte written to the ring as it goes. -/
def State.copyByteByByte (d : Nat) : Nat → State → List Byte × State
  | 0, s => ([], s)
  | l + 1, s =>
    let b := s.histByte (s.sourceAddr d 0)
    let r := State.copyByteByByte d l (s.ringWriteByte b)
    (b :: r.1, r.2)

/-- `match_copy(d, l)` after rule R232's capacity check, which comes before any byte is read or written. -/
def matchCopy (d l : Nat) (s : State) : Act Unit :=
  if outCap - s.outCnt < l then .stop (.raise .outputCapacityExceeded) s
  else emitAndLoop (s.matchBytes d l) s

end Sys2Proof.Machine
end

