-- ==== Sys2Proof/Machine/Match.lean ====
section
/-! DEFINITION. The match tokens (rules R229 to R232), the unencoded run (R233) and the unmatched prefixes (R143, R194,
R195), each for any entry, and then the rows of the reference table. As for the literals, the meaning starts after the fetch has read the token's bits. -/

namespace Sys2Proof.Machine

/-- Entry `k` of the reference match table. -/
def matchEntry (k : Nat) : Token := refMatchTable.getD k ⟨0, 0, 0, 0⟩

/-- The registers when a match's distance and length code are known (rules R25, R229, R230). -/
def State.matchOperands (s : State) (e : Token) (x : Nat) (len : LengthCode) : State :=
  { s.walked .matchTable e with
      state := .matchBody, dist := distanceOf e x,
      len := (lengthOf len s.extra).1, extra := (lengthOf len s.extra).2 }

/-- A match token: a length code past the guard raises (rule R231), any other length is checked against the free space
and copied (rule R232). A distance of 0 has no match encoding (rules R110, R180). -/
def matchToken (e : Token) (x : Nat) (len : LengthCode) (s : State) : Outcome :=
  if distanceOf e x = 0 then .refused .zeroDistanceMatch
  else
    let s := s.matchOperands e x len
    match len with
    | .overrun => stopOutcome (.raise .outputCapacityExceeded) s
    | _ => outcomeOf (matchCopy s.dist s.len s)

/-- `MATCH.c0`: distances 1 to 31 (rules R180, R229 to R232). -/
def execMatchC0 (x : BitVec 5) (len : LengthCode) (s : State) : Outcome :=
  matchToken (matchEntry 0) x.toNat len s

/-- `MATCH.c1`: distances 32 to 159 (rules R181, R229 to R232). -/
def execMatchC1 (x : BitVec 7) (len : LengthCode) (s : State) : Outcome :=
  matchToken (matchEntry 1) x.toNat len s

/-- `MATCH.c2`: distances 160 to 671 (rules R182, R229 to R232). -/
def execMatchC2 (x : BitVec 9) (len : LengthCode) (s : State) : Outcome :=
  matchToken (matchEntry 2) x.toNat len s

/-- `MATCH.c3`: distances 672 to 1695 (rules R183, R229 to R232). -/
def execMatchC3 (x : BitVec 10) (len : LengthCode) (s : State) : Outcome :=
  matchToken (matchEntry 3) x.toNat len s

/-- `MATCH.c4`: distances 1696 to 5791 (rules R184, R229 to R232). -/
def execMatchC4 (x : BitVec 12) (len : LengthCode) (s : State) : Outcome :=
  matchToken (matchEntry 4) x.toNat len s

/-- `MATCH.c5`: distances 5792 to 22175 (rules R185, R229 to R232). -/
def execMatchC5 (x : BitVec 14) (len : LengthCode) (s : State) : Outcome :=
  matchToken (matchEntry 5) x.toNat len s

/-- `MATCH.c6`: distances 22176 to 54943 (rules R186, R229 to R232). -/
def execMatchC6 (x : BitVec 15) (len : LengthCode) (s : State) : Outcome :=
  matchToken (matchEntry 6) x.toNat len s

/-- `MATCH.c7`: distances 54944 to 317087 (rules R187, R229 to R232). -/
def execMatchC7 (x : BitVec 18) (len : LengthCode) (s : State) : Outcome :=
  matchToken (matchEntry 7) x.toNat len s

/-- `MATCH.c8`: distances 317088 to 1365663 (rules R188, R229 to R232). -/
def execMatchC8 (x : BitVec 20) (len : LengthCode) (s : State) : Outcome :=
  matchToken (matchEntry 8) x.toNat len s

/-- `MATCH.c9`: distances 1365664 to 2414239 (rules R189, R229 to R232). -/
def execMatchC9 (x : BitVec 20) (len : LengthCode) (s : State) : Outcome :=
  matchToken (matchEntry 9) x.toNat len s

/-- `MATCH.c10`: distances 2414240 to 4511391 (rules R190, R229 to R232). -/
def execMatchC10 (x : BitVec 21) (len : LengthCode) (s : State) : Outcome :=
  matchToken (matchEntry 10) x.toNat len s

/-- `MATCH.c11`: distances 4511392 to 8705695 (rules R191, R229 to R232). -/
def execMatchC11 (x : BitVec 22) (len : LengthCode) (s : State) : Outcome :=
  matchToken (matchEntry 11) x.toNat len s

/-- `MATCH.c12`: distances 8705696 to 17094303 (rules R192, R229 to R232). -/
def execMatchC12 (x : BitVec 23) (len : LengthCode) (s : State) : Outcome :=
  matchToken (matchEntry 12) x.toNat len s

/-- `MATCH.c13`: distances 17094304 to 33871519 (rules R193, R229 to R232). -/
def execMatchC13 (x : BitVec 24) (len : LengthCode) (s : State) : Outcome :=
  matchToken (matchEntry 13) x.toNat len s

/-- The registers when the count of an unencoded run is known (rules R25, R229, R233). -/
def State.runOperands (s : State) (e : Token) (count : Nat) : State :=
  { s.walked .matchTable e with state := .unencoded, dist := 0, count := count }

/-- The run after the count: realign, output capacity, then the raw bytes of `IN` (rule R233). -/
def copyRun (count : Nat) (s : State) : Act Unit :=
  let s := s.realign
  if outCap - s.outCnt < count then .stop (.raise .outputCapacityExceeded) s
  else (copyRawAdvance count s).bind fun bytes s => emitAndLoop bytes s

/-- The unencoded run that entry `e` selects (rule R233). -/
def runToken (e : Token) (count : Nat) (s : State) : Outcome :=
  outcomeOf (copyRun count (s.runOperands e count))

/-- `UNENC` (rule R233). -/
def execUnenc (count : BitVec 15) (s : State) : Outcome := runToken (matchEntry 0) count.toNat s

/-- The registers after a walk of a table that found no entry for the `n` bits `p` (rule R143). -/
def State.walkedOff (s : State) (t : TableSel) (p n : Nat) : State :=
  { s with state := .decodeToken, tblSel := t, pfx := p, pfxLen := n }

/-- The walk has read the `n` bits `p` and raises `UnmatchedCode` (rule R143). -/
def unmatchedToken (t : TableSel) (p n : Nat) (s : State) : Outcome :=
  stopOutcome (.raise .unmatchedCode) (s.walkedOff t p n)

/-- `ILLEGAL` `10000`: the walk has read nine bits (rules R143, R194). -/
def execIllegal10000 (rest : BitVec 4) (s : State) : Outcome :=
  unmatchedToken .matchTable (0b100000000 + rest.toNat) 9 s

/-- `ILLEGAL` `101111111` (rules R143, R195). -/
def execIllegal101111111 (s : State) : Outcome := unmatchedToken .matchTable 0b101111111 9 s

end Sys2Proof.Machine
end

