-- ==== Sys2Proof/Machine/Segment.lean ====
section
/-! DEFINITION. The two segment forms (rules R220 to R223). -/

namespace Sys2Proof.Machine

/-- `SEG_RAW` (rules R220, R222): the body goes to output and history; the BitReader is not touched. -/
def rawSegment (ctrl : Byte) (s : State) : Act Unit :=
  (startSegment s).bind fun seg s =>
    (emit (rawBody seg) { s with ctrl := ctrl }).bind fun _ s => .ok () { s with state := .done }

/-- `SEG_RAW`. -/
def execSegRaw (ctrl : Byte) (s : State) : Outcome := outcomeOf (rawSegment ctrl s)

/-- The header checks of a compressed segment and the set-up of the BitReader (rule R223). -/
def openBitstream (seg : List Byte) (s : State) : Act Unit :=
  if seg.length < 2 then .stop (.raise .bitstreamExhausted) s
  else
    let pad := seg.getLastD 0
    let s := { s with pad := pad }
    if 7 < pad.toNat then .stop (.raise .invalidPadIndicator) s
    else if 8 * (seg.length - 2) < pad.toNat then .stop (.raise .invalidPadIndicator) s
    else .ok () (s.initReader (bitstreamBytes seg) (bitBudget seg.length pad.toNat))

/-- `SEG_COMP` (rules R220, R223): header checks and set-up, then the first test of the token loop (rule R224). -/
def compressedSegment (ctrl : Byte) (s : State) : Act Unit :=
  (startSegment s).bind fun seg s =>
    (openBitstream seg { s with ctrl := ctrl }).bind fun _ s => .ok () s.loopTest

/-- `SEG_COMP`. -/
def execSegComp (ctrl : Byte) (s : State) : Outcome := outcomeOf (compressedSegment ctrl s)

end Sys2Proof.Machine
end

