-- ==== Sys2Proof/Machine/Fetch.lean ====
section
/-! DEFINITION. What the machine does next: which instruction it fetches, from where, and what it does where there is
none. Step.lean only hands what is fetched to `exec`. -/

namespace Sys2Proof.Machine

/-- What a step begins with: an instruction and the state in which it runs, or an outcome that needs none. -/
inductive Fetched where
  | run (f : Form) (s : State)
  | done (o : Outcome)

/-- The BitReader as the decoder's bit source (rules R142, R225 to R230). -/
def bitReader : Reader Stop State where
  read := getBits

/-- The token at `BIT_POS` (rule R225): its bits leave the BitReader as they are read; a read that fails ends the
segment in `Failed`, with the BitReader where the successful reads moved it (rule R288). Tables that rule R7 does not
allow are refused: they are not this hardware (U15). -/
def fetchToken (s : State) : Fetched :=
  if s.cfg.tablesLegal then
    match decodeTokenWith bitReader s.cfg s with
    | .ok f s => .run f s
    | .stop e s => .done (stopOutcome e s)
  else .done (.refused .illegalTables)

/-- The segment form a presented segment starts with (rules R220, R221); an empty one starts and fails at once. -/
def fetchSegment (seg : List Byte) (s : State) : Fetched :=
  match seg with
  | ctrl :: _ => .run (.row (decodeSegment ctrl)) s
  | [] => .done (outcomeOf ((startSegment s).bind fun _ s => .ok () s))

/-- The frame form at the descriptor byte of a `decompress` call (rules R261, R268). -/
def fetchFrame (s : State) : Fetched :=
  match s.input[s.offset]? with
  | none => .done (.next (s.hostRaise .bitstreamExhausted))
  | some d =>
    match decodeFrame d with
    | some i => .run (.row i) s
    | none => .done (.next (s.hostReturn (.passThrough s.input)))

/-- The next command of a host with no frame open; with none pending the core holds its state (rule R294). -/
def fetchCommand (s : State) : Fetched :=
  match s.calls with
  | [] => .done (.next s)
  | .decompress input offset :: rest => fetchFrame (State.enterCall { s with calls := rest } input offset)
  | .segment seg :: rest => .done (.next { s with calls := rest, presented := some seg })
  | .sessionReset :: rest => .done (sessionReset { s with calls := rest })
  | .resetInFrame _ :: rest => .done (sessionReset { s with calls := rest })

/-- The head of the multipart loop, unless the host resets the session there (rules R265, R314). -/
def fetchLoop (s : State) : Fetched :=
  match s.calls with
  | .resetInFrame n :: rest =>
    if s.segIndex = n then .done (sessionReset { s with calls := rest }) else .done (.next s.nextSegment)
  | _ => .done (.next s.nextSegment)

/-- The next thing the host does while the core is idle (rules R260 to R266). -/
def fetchHost (s : State) : Fetched :=
  match s.presented with
  | some seg => fetchSegment seg s
  | none =>
    match s.phase with
    | .idle => fetchCommand s
    | .single => .done (collectSingle s)
    | .multiNext => fetchLoop s
    | .multiWait => .done (collectMulti s)

/-- At a token boundary a token; while the core is idle, the host; a token is atomic, so no step begins inside one
(rules R5, R29, R224, R294). -/
def fetch (s : State) : Fetched :=
  match s.state with
  | .readSelector => fetchToken s
  | .done => fetchHost s
  | .failed => fetchHost s
  | .literal => .done (.refused .insideToken)
  | .matchOrLiteral => .done (.refused .insideToken)
  | .decodeToken => .done (.refused .insideToken)
  | .matchBody => .done (.refused .insideToken)
  | .unencoded => .done (.refused .insideToken)

/-- How many raw bytes follow the bits of an instruction in the stream (rule R100). -/
def rawTail : Instr → Nat
  | .unenc count => count.toNat
  | _ => 0

/-- The bytes of an instruction numbered as the opcode table numbers it, and zero bytes after it. -/
def tableBytes (bits : List Bool) (tail : Nat) : List Byte :=
  packBits ((bits.length + 7) / 8) bits ++ List.replicate tail 0

/-- `s` with a token placed where the next token is fetched: `IN` holds it, the BitReader is at its start as `init`
leaves it, and the core is at a token boundary. -/
def State.placeToken (s : State) (bytes : List Byte) : State :=
  { s.initReader bytes (8 * bytes.length) with state := .readSelector }

/-- `s` with a segment presented to an idle core. -/
def State.placeSegment (s : State) (bytes : List Byte) : State :=
  { s with state := .done, presented := some bytes }

/-- `s` with a `decompress` call of an idle host pending. -/
def State.placeFrame (s : State) (bytes : List Byte) : State :=
  { s with state := .done, presented := none, phase := .idle, calls := .decompress bytes 0 :: s.calls }

/-- `s` with the instruction whose bits are `w` placed where the next step fetches; zero bits follow it. A word that is
no row's changes nothing. -/
def placeWord (s : State) (nbits w : Nat) : State :=
  match opcodeBits nbits w with
  | none => s
  | some (.token, bits) =>
    s.placeToken (tableBytes bits (((decodeTableWord nbits w).map rawTail).getD 0))
  | some (.segment, bits) => s.placeSegment (packBits 2 bits)
  | some (.frame, bits) => s.placeFrame (packBits 8 bits)

end Sys2Proof.Machine
end

