-- ==== Sys2Proof/Machine/Dispatch.lean ====
section
/-! DEFINITION. One arm per instruction, each one direct call of its meaning. -/

namespace Sys2Proof.Machine

/-- The meaning of an instruction. -/
def exec (i : Instr) (s : State) : Host.Outcome State Fault Refusal :=
  match i with
  | .lit8 v => Sys2Proof.Machine.execLit8 v s
  | .litc00 => Sys2Proof.Machine.execLitc00 s
  | .litc01 => Sys2Proof.Machine.execLitc01 s
  | .litc02 => Sys2Proof.Machine.execLitc02 s
  | .litc03 => Sys2Proof.Machine.execLitc03 s
  | .litcFF => Sys2Proof.Machine.execLitcFF s
  | .litc04 => Sys2Proof.Machine.execLitc04 s
  | .litc05 => Sys2Proof.Machine.execLitc05 s
  | .litc06 => Sys2Proof.Machine.execLitc06 s
  | .litc07 => Sys2Proof.Machine.execLitc07 s
  | .litc08 => Sys2Proof.Machine.execLitc08 s
  | .litc09 => Sys2Proof.Machine.execLitc09 s
  | .litc0A => Sys2Proof.Machine.execLitc0A s
  | .litc0B => Sys2Proof.Machine.execLitc0B s
  | .litc3A => Sys2Proof.Machine.execLitc3A s
  | .litc3B => Sys2Proof.Machine.execLitc3B s
  | .litc3C => Sys2Proof.Machine.execLitc3C s
  | .litc3D => Sys2Proof.Machine.execLitc3D s
  | .litc3E => Sys2Proof.Machine.execLitc3E s
  | .litc3F => Sys2Proof.Machine.execLitc3F s
  | .litc40 => Sys2Proof.Machine.execLitc40 s
  | .litc80 => Sys2Proof.Machine.execLitc80 s
  | .litc0C => Sys2Proof.Machine.execLitc0C s
  | .litc38 => Sys2Proof.Machine.execLitc38 s
  | .litc39 => Sys2Proof.Machine.execLitc39 s
  | .litc66 => Sys2Proof.Machine.execLitc66 s
  | .matchC0 x len => Sys2Proof.Machine.execMatchC0 x len s
  | .matchC1 x len => Sys2Proof.Machine.execMatchC1 x len s
  | .matchC2 x len => Sys2Proof.Machine.execMatchC2 x len s
  | .matchC3 x len => Sys2Proof.Machine.execMatchC3 x len s
  | .matchC4 x len => Sys2Proof.Machine.execMatchC4 x len s
  | .matchC5 x len => Sys2Proof.Machine.execMatchC5 x len s
  | .matchC6 x len => Sys2Proof.Machine.execMatchC6 x len s
  | .matchC7 x len => Sys2Proof.Machine.execMatchC7 x len s
  | .matchC8 x len => Sys2Proof.Machine.execMatchC8 x len s
  | .matchC9 x len => Sys2Proof.Machine.execMatchC9 x len s
  | .matchC10 x len => Sys2Proof.Machine.execMatchC10 x len s
  | .matchC11 x len => Sys2Proof.Machine.execMatchC11 x len s
  | .matchC12 x len => Sys2Proof.Machine.execMatchC12 x len s
  | .matchC13 x len => Sys2Proof.Machine.execMatchC13 x len s
  | .unenc count => Sys2Proof.Machine.execUnenc count s
  | .illegal10000 rest => Sys2Proof.Machine.execIllegal10000 rest s
  | .illegal101111111 => Sys2Proof.Machine.execIllegal101111111 s
  | .segRaw ctrl => Sys2Proof.Machine.execSegRaw ctrl s
  | .segComp ctrl => Sys2Proof.Machine.execSegComp ctrl s
  | .frameSingle => Sys2Proof.Machine.execFrameSingle s
  | .frameMulti => Sys2Proof.Machine.execFrameMulti s

end Sys2Proof.Machine
end

