-- ==== Sys2Proof/Machine/Form.lean ====
section
/-! DEFINITION. What a decoded form does: a row of the opcode table is run by `exec`; a token that only other tables have
runs through the operation its rule shares with the rows. -/

namespace Sys2Proof.Machine

/-- The meaning of a form (rules R143, R228, R229, R233). -/
def execForm (f : Form) (s : State) : Outcome :=
  match f with
  | .row i => exec i s
  | .literal e => literalToken e s
  | .copy e x len => matchToken e x len s
  | .run e count => runToken e count.toNat s
  | .unmatched t pfx len => unmatchedToken t pfx len s

end Sys2Proof.Machine
end

