-- ==== Sys2Proof/Machine/Step.lean ====
section
/-! DEFINITION. One step of the machine: what is fetched is run. -/

namespace Sys2Proof.Machine

/-- One step: a token, a segment form or a frame form run by `exec` (`execForm`), or what the host does between them. -/
def step (s : State) : Host.Outcome State Fault Refusal :=
  match fetch s with
  | .run f s => execForm f s
  | .done o => o

/-- `s` with the instruction whose bits are `w` stored where `step` fetches next (assumption 6). -/
def State.withFetchWord (s : State) (nbits w : Nat) : State := placeWord s nbits w

end Sys2Proof.Machine
end

