-- ==== Sys2Proof/Safety.lean ====
section
/-! DEFINITION. What a sound state is, and the words the statements use: what stays the same, and what `emit` does. -/

namespace Sys2Proof.Machine

/-! ### The invariant of the state (rules R35, R122, R128) -/

/-- The history ring (rule R35 (a)): the write index is inside the ring, and so is every listed byte. -/
structure State.RingInv (s : State) : Prop where
  cap_pos : 1 ≤ s.cfg.histCap
  idx_lt : s.histIdx < s.cfg.histCap
  canonical : s.hist.wf (initBytes s.cfg.histInit) = true
  addr_lt : ∀ c, c ∈ s.hist.cells → c.1 < s.cfg.histCap

/-- The output staging buffer (rules R35 (b), R62): the count is at most the capacity, and every byte below it has
been written. -/
structure State.OutInv (s : State) : Prop where
  cnt_le : s.outCnt ≤ outCap
  canonical : s.out.wf noByte = true
  addr_lt : ∀ c, c ∈ s.out.cells → c.1 < outCap
  filled : ∀ a, a < s.outCnt → (s.out.get? a).isSome = true

/-- The BitReader (rules R21, R122, R128): the accumulator holds the unconsumed low bits of the last byte fetched, at
most 7 of them, and the budget never exceeds the bits the slice still holds. -/
structure State.ReaderInv (s : State) : Prop where
  len_eq : s.inLen = s.inBytes.length
  cur_le : s.byteCur ≤ s.inLen
  cnt_le : s.accCnt ≤ 7
  acc_rest : (s.accCnt = 0 ∧ s.acc = 0) ∨
    ∃ b : Byte, 1 ≤ s.byteCur ∧ s.inBytes[s.byteCur - 1]? = some b ∧ s.acc.toNat = b.toNat % 2 ^ s.accCnt
  budget_le : s.bitsRem ≤ 8 * (s.inLen - s.byteCur) + s.accCnt

/-- Between steps the core is at a token boundary with budget left, or idle; `ERR` names a kind exactly in `Failed`
(rules R24, R29, R30, R224, R287). -/
structure State.ControlInv (s : State) : Prop where
  boundary : s.state = .readSelector ∨ s.state = .done ∨ s.state = .failed
  budget_pos : s.state = .readSelector → 0 < s.bitsRem
  err_failed : s.err.isSome = true ↔ s.state = .failed

/-- The host (rules R264, R265, R270): a segment is presented only to an idle core, and an open multipart frame is
inside its input, its segment count and its declared size. -/
structure State.HostInv (s : State) : Prop where
  presented_idle : s.presented.isSome = true → s.busy = false
  presented_phase : s.presented.isSome = true → s.phase ≠ .multiNext
  busy_phase : s.busy = true → s.phase ≠ .multiNext
  total_eq : s.phase = .multiNext ∨ s.phase = .multiWait → s.total = s.result.length
  total_le : s.phase = .multiNext ∨ s.phase = .multiWait → s.total ≤ s.uncompressedSize
  index_le : s.phase = .multiNext → s.segIndex ≤ s.segmentCount
  index_lt : s.phase = .multiWait → s.segIndex < s.segmentCount
  cursor_le : s.phase = .multiNext → s.cursor ≤ s.input.length
  segment_le : s.phase = .multiWait → s.cursor + s.segmentSize ≤ s.input.length

/-- Every counter fits the width 10_state.md and rule R264 give it (rules R21, R23, R25, R236). The widths of
`HIST_IDX` and `BYTE_CUR` follow from `RingInv` and `ReaderInv`; those of `PFX`, `PFX_LEN` and `DIST` are the tables'. -/
structure State.Widths (s : State) : Prop where
  inLen : s.inLen < 2 ^ 32
  accCnt : s.accCnt < 2 ^ 5
  bitsRem : s.bitsRem < 2 ^ 35
  outCnt : s.outCnt < 2 ^ 17
  pfx : s.pfx < 2 ^ s.cfg.prefixWidth
  pfxLen : s.pfxLen ≤ s.cfg.prefixWidth
  dist : s.dist ≤ s.cfg.maxDistance
  len : s.len < 2 ^ 17
  extra : s.extra < 2 ^ 5
  count : s.count < 2 ^ 15
  segmentCount : s.segmentCount < 2 ^ 16
  uncompressedSize : s.uncompressedSize < 2 ^ 32
  segmentSize : s.segmentSize < 2 ^ 32
  total : s.total < 2 ^ 33

/-- The invariant of the machine; its tables are tables of this hardware (rule R7, U15). -/
structure State.Inv (s : State) : Prop where
  tables : s.cfg.tablesLegal = true
  ring : s.RingInv
  out : s.OutInv
  reader : s.ReaderInv
  control : s.ControlInv
  host : s.HostInv
  widths : s.Widths

/-- The last `min(OUT_CNT, HIST_CAP)` bytes of the ring before `HIST_IDX` are the tail of the output (rule R208). -/
def State.TailAgrees (s : State) : Prop :=
  ∀ k, k < min s.outCnt s.cfg.histCap →
    s.out.get? (s.outCnt - 1 - k) = some (s.histByte (s.histIdx + s.cfg.histCap - 1 - k))

/-- What the host does next is a session reset: at the head of its queue, with no frame open, or inside a multipart frame
where the queue says so (rules R310, R314). -/
def State.resetDue (s : State) : Prop :=
  s.busy = false ∧ s.presented = none ∧
    ((s.phase = .idle ∧ ∃ rest, s.calls = .sessionReset :: rest ∨ ∃ n, s.calls = .resetInFrame n :: rest) ∨
      (s.phase = .multiNext ∧ ∃ rest, s.calls = .resetInFrame s.segIndex :: rest))

/-- The BitReader has handed out or discarded at least `n` bits between `s` and `t` (rules R27, R129, R224). -/
def Consumed (n : Nat) (s t : State) : Prop := s.bitPos + n ≤ t.bitPos ∧ t.bitsRem + n ≤ s.bitsRem

/-- The core has the reference tables (rules R147 to R193). -/
def ReferenceTables (cfg : Config) : Prop := cfg.litTable = refLitTable ∧ cfg.matchTable = refMatchTable

/-- No prefix of a table is a prefix of another entry's (rules R141, R148 (a)). -/
def PrefixFree (table : List Token) : Prop :=
  table.Pairwise fun a b => ¬a.prefixBits <+: b.prefixBits ∧ ¬b.prefixBits <+: a.prefixBits

/-- Reads of `get_bits` one after another (rules R121, R122). -/
def readAll : List Nat → State → Act Unit
  | [], s => .ok () s
  | n :: ns, s => (getBits n s).bind fun _ s => readAll ns s

/-! ### What stays the same -/

/-- The BitReader's registers and its input. -/
structure SameReader (s t : State) : Prop where
  inBytes : t.inBytes = s.inBytes
  inLen : t.inLen = s.inLen
  byteCur : t.byteCur = s.byteCur
  acc : t.acc = s.acc
  accCnt : t.accCnt = s.accCnt
  bitsRem : t.bitsRem = s.bitsRem

/-- The history, the output buffer, their registers: every byte of memory reads as before. -/
structure SameMemory (s t : State) : Prop where
  histIdx : t.histIdx = s.histIdx
  outCnt : t.outCnt = s.outCnt
  histByte : ∀ a, t.histByte a = s.histByte a
  outByte : ∀ a, t.out.get? a = s.out.get? a

/-- The token working registers (rule R25). -/
structure SameWorking (s t : State) : Prop where
  tblSel : t.tblSel = s.tblSel
  pfx : t.pfx = s.pfx
  pfxLen : t.pfxLen = s.pfxLen
  dist : t.dist = s.dist
  len : t.len = s.len
  extra : t.extra = s.extra
  count : t.count = s.count

/-- The working registers that hold operands (rule R25). -/
structure SameOperands (s t : State) : Prop where
  dist : t.dist = s.dist
  len : t.len = s.len
  extra : t.extra = s.extra
  count : t.count = s.count

/-- The latched header bytes of the segment (rules R31, R32). -/
structure SameHeader (s t : State) : Prop where
  ctrl : t.ctrl = s.ctrl
  pad : t.pad = s.pad

/-- The host's state, and the parameters of the machine. -/
structure SameHost (s t : State) : Prop where
  cfg : t.cfg = s.cfg
  calls : t.calls = s.calls
  presented : t.presented = s.presented
  phase : t.phase = s.phase
  input : t.input = s.input
  offset : t.offset = s.offset
  cursor : t.cursor = s.cursor
  segmentCount : t.segmentCount = s.segmentCount
  segIndex : t.segIndex = s.segIndex
  uncompressedSize : t.uncompressedSize = s.uncompressedSize
  segmentSize : t.segmentSize = s.segmentSize
  total : t.total = s.total
  result : t.result = s.result
  ret : t.ret = s.ret

/-- What a token leaves besides the memory and the registers named at its use: the BitReader, the header bytes, the
error register, and the host. -/
structure SameAroundToken (s t : State) : Prop where
  reader : SameReader s t
  header : SameHeader s t
  host : SameHost s t
  err : t.err = s.err

/-- Entry to `Failed` with the kind `k` (rules R287, R288): `ERR` and `STATE` are written, memory is not. -/
structure FailedWith (k : ErrKind) (s t : State) : Prop where
  err : t.err = some k
  state : t.state = .failed
  memory : SameMemory s t
  header : SameHeader s t
  host : SameHost s t

/-- What `emit(bytes)` does (rules R201, R208): the bytes stand in `OUT` from `OUT_CNT` on and in the ring from
`HIST_IDX` on, `mod HIST_CAP`; of more than `HIST_CAP` bytes the ring keeps the last; nothing else of either changes. -/
structure Emitted (bytes : List Byte) (s t : State) : Prop where
  outCnt : t.outCnt = s.outCnt + bytes.length
  histIdx : t.histIdx = (s.histIdx + bytes.length) % s.cfg.histCap
  outNew : ∀ i, i < bytes.length → t.out.get? (s.outCnt + i) = bytes[i]?
  outOld : ∀ a, a < s.outCnt ∨ s.outCnt + bytes.length ≤ a → t.out.get? a = s.out.get? a
  histNew : ∀ i, i < bytes.length → bytes.length ≤ i + s.cfg.histCap → some (t.histByte (s.histIdx + i)) = bytes[i]?
  histOld : ∀ a, (∀ i, i < bytes.length → a % s.cfg.histCap ≠ (s.histIdx + i) % s.cfg.histCap) →
    t.histByte a = s.histByte a

/-- `OUT` has gained exactly `bytes` from address `start` on, and the ring the same bytes (rules R61, R201, R208). -/
structure Gained (start : Nat) (bytes : List Byte) (s t : State) : Prop where
  outCnt : t.outCnt = start + bytes.length
  outNew : ∀ i, i < bytes.length → t.out.get? (start + i) = bytes[i]?
  outOld : ∀ a, a < start ∨ start + bytes.length ≤ a → t.out.get? a = s.out.get? a
  hist : t.hist = (s.ringWrite bytes).hist
  histIdx : t.histIdx = (s.ringWrite bytes).histIdx

/-- `STATE` after a completed token (rule R224). -/
def afterToken (bitsRem : Nat) : DecState := if bitsRem = 0 then .done else .readSelector

/-- `TBL_SEL`, `PFX` and `PFX_LEN` after a walk of table `t` that stopped at the `n` bits `p` (rules R25, R142). -/
structure HoldsPrefix (t : TableSel) (p n : Nat) (u : State) : Prop where
  tblSel : u.tblSel = t
  pfx : u.pfx = p
  pfxLen : u.pfxLen = n

/-- A completed literal-table token (rule R228): the byte is emitted, the prefix is held, nothing else changes. -/
structure LiteralDone (b : Byte) (p n : Nat) (s t : State) : Prop where
  emitted : Emitted [b] s t
  around : SameAroundToken s t
  state : t.state = afterToken s.bitsRem
  walked : HoldsPrefix .literalTable p n t
  operands : SameOperands s t

/-! ### The operands as the rules of 41_code_tables.md print them -/

/-- The byte a coded literal stands for (rules R150 to R174). -/
def literalByteOf : Instr → Option Byte
  | .litc00 => some 0x00
  | .litc01 => some 0x01
  | .litc02 => some 0x02
  | .litc03 => some 0x03
  | .litcFF => some 0xFF
  | .litc04 => some 0x04
  | .litc05 => some 0x05
  | .litc06 => some 0x06
  | .litc07 => some 0x07
  | .litc08 => some 0x08
  | .litc09 => some 0x09
  | .litc0A => some 0x0A
  | .litc0B => some 0x0B
  | .litc3A => some 0x3A
  | .litc3B => some 0x3B
  | .litc3C => some 0x3C
  | .litc3D => some 0x3D
  | .litc3E => some 0x3E
  | .litc3F => some 0x3F
  | .litc40 => some 0x40
  | .litc80 => some 0x80
  | .litc0C => some 0x0C
  | .litc38 => some 0x38
  | .litc39 => some 0x39
  | .litc66 => some 0x66
  | _ => none

/-- The distance and length code of a match token (rules R180 to R193). -/
def matchOperandsOf : Instr → Option (Nat × LengthCode)
  | .matchC0 x len => some (0 + x.toNat, len)
  | .matchC1 x len => some (32 + x.toNat, len)
  | .matchC2 x len => some (160 + x.toNat, len)
  | .matchC3 x len => some (672 + x.toNat, len)
  | .matchC4 x len => some (1696 + x.toNat, len)
  | .matchC5 x len => some (5792 + x.toNat, len)
  | .matchC6 x len => some (22176 + x.toNat, len)
  | .matchC7 x len => some (54944 + x.toNat, len)
  | .matchC8 x len => some (317088 + x.toNat, len)
  | .matchC9 x len => some (1365664 + x.toNat, len)
  | .matchC10 x len => some (2414240 + x.toNat, len)
  | .matchC11 x len => some (4511392 + x.toNat, len)
  | .matchC12 x len => some (8705696 + x.toNat, len)
  | .matchC13 x len => some (17094304 + x.toNat, len)
  | _ => none

/-- The length a length code stands for, `none` where the code runs past rule R231's guard (rule R102). -/
def lengthValue : LengthCode → Option Nat
  | .three => some 3
  | .ext extra w => some (2 ^ extra + w)
  | .overrun => none

/-- The output of a match of distance `d` and length `l` as rule R204 writes it: byte `i` comes from the old history
while `i < d`, and repeats the match's own byte `i - d` from there on. -/
def IsMatchOutput (s : State) (d l : Nat) (o : List Byte) : Prop :=
  o.length = l ∧ ∀ i, i < l → o[i]? = if i < d then some (s.histByte (s.sourceAddr d i)) else o[i - d]?

/-- A completed match of distance `d` and a length code `code` for `l` (rules R204, R229 to R232): the copy is emitted, the prefix
and the operands are held, nothing else changes. -/
structure MatchDone (d l : Nat) (code : LengthCode) (p n : Nat) (s t : State) : Prop where
  copied : ∃ o, IsMatchOutput s d l o ∧ Emitted o s t
  around : SameAroundToken s t
  state : t.state = afterToken s.bitsRem
  walked : HoldsPrefix .matchTable p n t
  dist : t.dist = d
  len : t.len = l
  extra : t.extra = match code with
    | .ext extra _ => extra
    | _ => s.extra
  count : t.count = s.count

/-- A completed unencoded run of `count` bytes (rule R233): the raw bytes from `BYTE_CUR` on are emitted, the BitReader
stands after them, the prefix and the operands are held, nothing else changes. -/
structure RunDone (count p n : Nat) (s t : State) : Prop where
  emitted : Emitted ((s.inBytes.drop s.byteCur).take count) s t
  inBytes : t.inBytes = s.inBytes
  inLen : t.inLen = s.inLen
  byteCur : t.byteCur = s.byteCur + count
  acc : t.acc = 0
  accCnt : t.accCnt = 0
  bitsRem : t.bitsRem = s.bitsRem - min s.accCnt s.bitsRem - 8 * count
  state : t.state = afterToken t.bitsRem
  err : t.err = s.err
  header : SameHeader s t
  host : SameHost s t
  walked : HoldsPrefix .matchTable p n t
  dist : t.dist = 0
  len : t.len = s.len
  extra : t.extra = s.extra
  count : t.count = count

/-- How many bits the prefix of a coded instruction has (rules R150 to R174, R180 to R193, R100): 0 where there is none. -/
def prefixLength : Instr → Nat
  | .litc00 | .litc01 => 5
  | .litc02 | .litc03 | .litcFF => 6
  | .litc04 | .litc05 | .litc06 | .litc07 | .litc08 | .litc09 | .litc0A | .litc0B => 7
  | .litc3A | .litc3B | .litc3C | .litc3D | .litc3E | .litc3F | .litc40 | .litc80 => 7
  | .litc0C | .litc38 | .litc39 | .litc66 => 8
  | .matchC0 _ _ | .matchC1 _ _ | .matchC2 _ _ | .matchC3 _ _ | .matchC4 _ _ => 5
  | .matchC5 _ _ | .matchC6 _ _ => 6
  | .matchC7 _ _ | .matchC8 _ _ => 7
  | .matchC9 _ _ | .matchC10 _ _ => 8
  | .matchC11 _ _ | .matchC12 _ _ | .matchC13 _ _ => 9
  | .unenc _ => 5
  | _ => 0

/-- The prefix of a coded instruction as a number, first stream bit most significant (rule R140). -/
def prefixOf (i : Instr) : Nat := bitsToNat ((encode i).take (prefixLength i))

/-- How many bits of a length code the decoder reads (rules R102, R231). -/
def lengthBits : LengthCode → Nat
  | .three => 1
  | .ext extra _ => 2 * extra
  | .overrun => 16

/-- How many bits of an instruction the decoder reads (rules R103, R194, R195): of `UNENC` those before the alignment
bits, of a segment or a frame its first byte. -/
def bitLength : Instr → Nat
  | .lit8 _ => 9
  | .litc00 | .litc01 => 5
  | .litc02 | .litc03 | .litcFF => 6
  | .litc04 | .litc05 | .litc06 | .litc07 | .litc08 | .litc09 | .litc0A | .litc0B => 7
  | .litc3A | .litc3B | .litc3C | .litc3D | .litc3E | .litc3F | .litc40 | .litc80 => 7
  | .litc0C | .litc38 | .litc39 | .litc66 => 8
  | .matchC0 _ len => 10 + lengthBits len
  | .matchC1 _ len => 12 + lengthBits len
  | .matchC2 _ len => 14 + lengthBits len
  | .matchC3 _ len => 15 + lengthBits len
  | .matchC4 _ len => 17 + lengthBits len
  | .matchC5 _ len => 20 + lengthBits len
  | .matchC6 _ len => 21 + lengthBits len
  | .matchC7 _ len => 25 + lengthBits len
  | .matchC8 _ len => 27 + lengthBits len
  | .matchC9 _ len => 28 + lengthBits len
  | .matchC10 _ len => 29 + lengthBits len
  | .matchC11 _ len => 31 + lengthBits len
  | .matchC12 _ len => 32 + lengthBits len
  | .matchC13 _ len => 33 + lengthBits len
  | .unenc _ => 25
  | .illegal10000 _ | .illegal101111111 => 9
  | .segRaw _ | .segComp _ | .frameSingle | .frameMulti => 8

/-- How many bits of a form the decoder reads (rules R103, R143): as `bitLength`. -/
def formLength : Form → Nat
  | .row i => bitLength i
  | .literal e => e.prefixLen
  | .copy e _ len => e.prefixLen + e.valueBits + lengthBits len
  | .run e _ => e.prefixLen + e.valueBits + 15
  | .unmatched _ _ len => len

/-- How many raw bytes a form copies after its bits (rule R100). -/
def rawBytes : Form → Option Nat
  | .row (.unenc count) => some count.toNat
  | .run _ count => some count.toNat
  | _ => none

/-- Where the bit position stands after a completed token that started at `p` (rules R27, R103, R126): after its bits,
and for an unencoded run at the next byte boundary and then after its raw bytes. -/
def tokenEnd (p : Nat) (f : Form) : Nat :=
  match rawBytes f with
  | some count => (p + formLength f + 7) / 8 * 8 + 8 * count
  | none => p + formLength f

/-- The form is an unmatched prefix (rules R143, R194, R195). -/
def isUnmatched : Form → Bool
  | .row (.illegal10000 _) | .row .illegal101111111 | .unmatched _ _ _ => true
  | _ => false

end Sys2Proof.Machine
end

