-- ==== Sys2Proof/Certificates/Slice0/Obligations.lean ====
section
/-! DEFINITION. The statements for the provers, each one definition; OBLIGATIONS.json lists them in this order.

`State.Inv`, `Emitted`, `FailedWith`, the `…Done` and the `Same…` structures are in Safety.lean. -/

section
open Sys2Proof Sys2Proof.Machine

/-! ### Reset and control -/

/-- What a session reset leaves, for every value of the open parameters (70_reset_and_hazards.md section 1). The values
are the spec's decisions D5 and D20; that nothing is pending is the model's (assumption 3). -/
def Obligations.ResetHoldsTheSpecifiedValues : Prop :=
  State.reset = State.resetWith Config.reference ∧
  ∀ cfg : Config,
    (∀ a, (State.resetWith cfg).histByte a = initByte cfg.histInit (a % cfg.histCap)) ∧
    (State.resetWith cfg).histIdx = 0 ∧ (State.resetWith cfg).outCnt = 0 ∧
    (State.resetWith cfg).state.code = 6 ∧ errCode (State.resetWith cfg).err = 0 ∧
    (State.resetWith cfg).isDone = true ∧ (State.resetWith cfg).isFailed = false ∧
    (State.resetWith cfg).presented = none ∧ (State.resetWith cfg).calls = []

/-- The invariant (rule R35) and the agreement of ring and output (42_history_match.md section 2) hold after a session
reset, whatever the parameters, as long as the ring has a byte and the tables are legal. That the BitReader's and the
working registers meet it rests on the model's choice of 0 for them (assumption 3, DESIGN CHOICE), and `State.reset` on
the default parameters and tables (assumptions 1 and 2, PRESUMED). -/
def Obligations.ResetMeetsTheInvariant : Prop :=
  State.reset.Inv ∧ ∀ cfg : Config, 1 ≤ cfg.histCap → cfg.tablesLegal = true →
    (State.resetWith cfg).Inv ∧ (State.resetWith cfg).TailAgrees

/-- The three status conditions and `OUT_VALID` are functions of `STATE` (rule R28); their codes are those of R29. -/
def Obligations.StatusConditionsFollowState : Prop :=
  ∀ s : State,
    (s.isDone = true ↔ s.state.code = 6) ∧ (s.isFailed = true ↔ s.state.code = 7) ∧
    (s.busy = true ↔ s.state.code.toNat < 6) ∧ s.outValid = s.isDone

/-- A step runs the fetched instruction: the token the BitReader delivers at a token boundary, a row of the opcode table
or a token that only other tables have, the segment form of a presented segment, the frame form at the descriptor of a
call (rules R220, R221, R225, R261). -/
def Obligations.StepRunsTheFetchedInstruction : Prop :=
  (∀ (s t : State) (i : Instr), s.state = .readSelector → s.cfg.tablesLegal = true →
    decodeTokenWith bitReader s.cfg s = .ok (.row i) t → step s = exec i t) ∧
  (∀ (s t : State) (f : Form), s.state = .readSelector → s.cfg.tablesLegal = true →
    decodeTokenWith bitReader s.cfg s = .ok f t → step s = execForm f t) ∧
  (∀ (s : State) (ctrl : Byte) (body : List Byte), s.busy = false → s.presented = some (ctrl :: body) →
    step s = exec (decodeSegment ctrl) s) ∧
  (∀ (s : State) (input : List Byte) (offset : Nat) (rest : List Command) (d : Byte) (i : Instr),
    s.busy = false → s.presented = none → s.phase = .idle → s.calls = .decompress input offset :: rest →
    input[offset]? = some d → decodeFrame d = some i →
    step s = exec i { s with calls := rest, input := input, offset := offset, ret := none })

/-- Words written out from the spec's encodings decode to their instructions (30_encoding.md sections 2 to 4). The words of
`LITC`, `MATCH`, `UNENC` and `ILLEGAL` are those of the reference tables (assumption 2, PRESUMED), and that `ILLEGAL`
`10000` has four more bits is the model's reading (assumption 15, DEDUCED). -/
def Obligations.WordsOfTheSpecDecode : Prop :=
  decode Config.reference .token [false, false, true, false, false, false, false, false, true] =
      .ok (.row (.lit8 0x41)) [] ∧
  decode Config.reference .token [true, true, false, true, true, false] = .ok (.row .litcFF) [] ∧
  decode Config.reference .token [true, true, true, true, true, true, true, true] = .ok (.row .litc66) [] ∧
  decode Config.reference .token [true, false, false, false, true, false, false, true, false, false, true, true,
    false, false, false, false] =
      .ok (.row (.matchC0 4 (.ext 3 0))) [] ∧
  decode Config.reference .token [true, false, false, true, false, false, false, false, false, false, false, true,
    false] =
      .ok (.row (.matchC1 1 .three)) [] ∧
  decode Config.reference .token [true, false, false, false, true, false, false, false, false, false, false,
    false, false, false, false, false, false, false, false, false, false, false, false, true, true] =
      .ok (.row (.unenc 3)) [] ∧
  decode Config.reference .token [true, false, false, false, false, false, false, false, false] =
      .ok (.row (.illegal10000 0)) [] ∧
  decode Config.reference .segment [false, false, false, true, true, true, true, true] =
      .ok (.row (.segRaw 0x1F)) [] ∧
  decode Config.reference .segment [false, false, true, false, false, false, false, false] =
      .ok (.row (.segComp 0x20)) [] ∧
  decode Config.reference .frame [true, true, true, false, false, false, false, false] = .ok (.row .frameSingle) [] ∧
  decode Config.reference .frame [true, true, true, false, false, false, false, true] = .ok (.row .frameMulti) []

/-- The reference tables (assumption 2, PRESUMED) meet the constraints of rule R7, have the properties of rule R148 (a),
(d) and (e), and give the widths that rule R25 prints for `PFX` and `DIST`. -/
def Obligations.ReferenceTablesAreLegal : Prop :=
  ReferenceTables Config.reference ∧ Config.reference.tablesLegal = true ∧ PrefixFree (refLitTable ++ refMatchTable) ∧
  (refMatchTable.map Token.base).head? = some 0 ∧
  (∀ k, k + 1 < refMatchTable.length →
    (matchEntry (k + 1)).base = (matchEntry k).base + 2 ^ (matchEntry k).valueBits) ∧
  (matchEntry 13).base + 2 ^ (matchEntry 13).valueBits = 33871520 ∧
  (refLitTable.map Token.base).Nodup ∧
  Config.reference.prefixWidth = 9 ∧ Config.reference.maxDistance = 33871519

/-! ### The BitReader -/

/-- `init` (rule R120): the registers, nothing else; a budget of 0 serves no bit; a budget past the slice is accepted and
shows later, at the first read of a row of reads that would pass the slice's last bit; every row of reads inside slice and
budget succeeds; the segment decoder never passes such a budget (rule R223). -/
def Obligations.InitStartsTheBitReader : Prop :=
  ∀ (s : State) (bytes : List Byte) (n : Nat),
    s.initReader bytes n =
      { s with inBytes := bytes, inLen := bytes.length, byteCur := 0, acc := 0, accCnt := 0, bitsRem := n } ∧
    (n = 0 → ∀ m, 0 < m → m ≤ nMax →
      getBits m (s.initReader bytes n) = .stop (.raise .bitstreamExhausted) (s.initReader bytes n)) ∧
    (∀ (ns : List Nat) (m : Nat) (t : State), readAll ns (s.initReader bytes n) = .ok () t → m ≤ nMax →
      (n < ns.sum + m ∨ 8 * bytes.length < ns.sum + m) → getBits m t = .stop (.raise .bitstreamExhausted) t) ∧
    (∀ (ns : List Nat), (∀ m, m ∈ ns → m ≤ nMax) → ns.sum ≤ n → ns.sum ≤ 8 * bytes.length →
      ∃ t, readAll ns (s.initReader bytes n) = .ok () t) ∧
    (∀ (seg : List Byte) (t : State), openBitstream seg s = .ok () t → t.bitsRem ≤ 8 * t.inLen)

/-- `get_bits` (rules R121, R123): the next `n` stream bits from `BIT_POS` on, as a number; the bit position and the
budget move by `n`, and nothing outside the BitReader changes. -/
def Obligations.GetBitsDeliversTheStreamBits : Prop :=
  ∀ (s : State) (n : Nat), s.ReaderInv → n ≤ nMax → n ≤ s.bitsRem →
    ∃ t, getBits n s = .ok (bitsToNat (((streamBits s.inBytes).drop s.bitPos).take n)) t ∧
      t.bitPos = s.bitPos + n ∧ t.bitsRem = s.bitsRem - n ∧ t.pendingBits = s.pendingBits.drop n ∧ t.ReaderInv ∧
      t = { s with byteCur := t.byteCur, acc := t.acc, accCnt := t.accCnt, bitsRem := t.bitsRem }

/-- A `get_bits` that runs out of budget or of slice raises `BitstreamExhausted` and changes nothing (rule R122). -/
def Obligations.GetBitsFailsCleanly : Prop :=
  ∀ (s : State) (n : Nat), n ≤ nMax → (s.bitsRem < n ∨ 8 * (s.inLen - s.byteCur) + s.accCnt < n) →
    getBits n s = .stop (.raise .bitstreamExhausted) s

/-- The raw copies (rules R124, R125): `copy_raw` is a look-ahead at whole bytes of the slice; `copy_raw_advance` also
takes them from slice and budget. Neither touches the accumulator, and a failing call changes nothing. -/
def Obligations.RawCopiesTakeWholeBytes : Prop :=
  ∀ (s : State) (n : Nat), s.inLen = s.inBytes.length →
    (s.inLen - s.byteCur < n → copyRaw n s = .stop (.raise .bitstreamExhausted) s) ∧
    (s.inLen - s.byteCur < n ∨ s.bitsRem < 8 * n → copyRawAdvance n s = .stop (.raise .bitstreamExhausted) s) ∧
    (n ≤ s.inLen - s.byteCur →
      ∃ bytes : List Byte, bytes.length = n ∧ (∀ i, i < n → bytes[i]? = s.inBytes[s.byteCur + i]?) ∧
        copyRaw n s = .ok bytes s ∧
        (8 * n ≤ s.bitsRem →
          copyRawAdvance n s = .ok bytes { s with byteCur := s.byteCur + n, bitsRem := s.bitsRem - 8 * n }))

/-- `realign` moves to the next byte boundary and keeps the BitReader sound; its budget stops at 0 (rules R126, R127). -/
def Obligations.RealignMovesToAByteBoundary : Prop :=
  ∀ s : State, s.ReaderInv →
    s.realign = { s with acc := 0, accCnt := 0, bitsRem := s.bitsRem - s.accCnt } ∧
    s.realign.ReaderInv ∧ s.realign.bitPos = (s.bitPos + 7) / 8 * 8 ∧ (s.accCnt = 0 → s.realign = s)

/-! ### History and output -/

/-- `ring_write_byte` (rule R200): one byte at `HIST_IDX`, the index advanced modulo the capacity and never outside the
ring; at the last address it wraps; after `HIST_CAP` writes the ring holds exactly those bytes. -/
def Obligations.RingWriteByteWritesAndAdvances : Prop :=
  (∀ (s : State) (b : Byte), s.histIdx < s.cfg.histCap →
    (s.ringWriteByte b).histByte s.histIdx = b ∧
    (∀ a, a % s.cfg.histCap ≠ s.histIdx → (s.ringWriteByte b).histByte a = s.histByte a) ∧
    (s.ringWriteByte b).histIdx = (s.histIdx + 1) % s.cfg.histCap ∧
    (s.ringWriteByte b).histIdx < s.cfg.histCap ∧
    (s.histIdx = s.cfg.histCap - 1 → (s.ringWriteByte b).histIdx = 0) ∧
    s.ringWriteByte b = { s with hist := (s.ringWriteByte b).hist, histIdx := (s.ringWriteByte b).histIdx }) ∧
  (∀ (s : State) (bytes : List Byte), s.histIdx < s.cfg.histCap → bytes.length = s.cfg.histCap →
    ∀ i, i < bytes.length → some ((bytes.foldl State.ringWriteByte s).histByte (s.histIdx + i)) = bytes[i]?) ∧
  (∀ s : State, s.cfg.histCap = 16 → s.histIdx = 15 →
    (s.ringWriteByte 0x41).histByte 15 = 0x41 ∧ (s.ringWriteByte 0x41).histIdx = 0)

/-- `emit` appends to output and history, or fails before it writes a byte (rule R208). -/
def Obligations.EmitAppendsOrFails : Prop :=
  ∀ (s : State) (bytes : List Byte), s.histIdx < s.cfg.histCap →
    (outCap - s.outCnt < bytes.length → emit bytes s = .stop (.raise .outputCapacityExceeded) s) ∧
    (bytes.length ≤ outCap - s.outCnt →
      ∃ t, emit bytes s = .ok () t ∧ Emitted bytes s t ∧
        t = { s with hist := t.hist, histIdx := t.histIdx, out := t.out, outCnt := t.outCnt })

/-- The source address of a match (rule R203): the floor remainder, inside the ring for every distance, and equal to what
an implementation with unsigned registers computes (rule R236). -/
def Obligations.SourceAddressIsInsideTheRing : Prop :=
  ∀ (s : State) (d : Nat), s.histIdx < s.cfg.histCap →
    ((s.sourceAddr d 0 : Nat) : Int) = ((s.histIdx : Int) - d) % (s.cfg.histCap : Int) ∧
    s.sourceAddr d 0 < s.cfg.histCap ∧
    s.sourceAddr d 0 = (s.histIdx + s.cfg.histCap - d % s.cfg.histCap) % s.cfg.histCap ∧
    (d ≤ s.histIdx → s.sourceAddr d 0 = s.histIdx - d) ∧
    (s.histIdx < d → d ≤ s.histIdx + s.cfg.histCap → s.sourceAddr d 0 = s.histIdx + s.cfg.histCap - d) ∧
    (∀ i, s.sourceAddr d i = (s.sourceAddr d 0 + i) % s.cfg.histCap) ∧
    (s.cfg.histCap = 16 → s.histIdx = 2 → s.sourceAddr 5 0 = 13)

/-- `match_copy` (rule R204): the output by the rule's recursion and by its periodic formula, emitted whole; a known
4-byte suffix at distance 4 and length 8 is doubled. -/
def Obligations.MatchCopyEmitsThePeriodicOutput : Prop :=
  ∀ (s : State) (d l : Nat), 1 ≤ d → s.histIdx < s.cfg.histCap →
    IsMatchOutput s d l (s.matchBytes d l) ∧
    (∀ i, i < l → (s.matchBytes d l)[i]? = some (s.histByte (s.sourceAddr d (i % d)))) ∧
    (l ≤ outCap - s.outCnt →
      ∃ t, matchCopy d l s = .ok () t ∧ Emitted (s.matchBytes d l) s t ∧ SameAroundToken s t ∧ SameWorking s t ∧
        t.state = afterToken s.bitsRem) ∧
    (∀ a b c e : Byte, (∀ i, i < 4 → some (s.histByte (s.sourceAddr 4 i)) = [a, b, c, e][i]?) →
      s.matchBytes 4 8 = [a, b, c, e, a, b, c, e])

/-- The doubling procedure of rule R205 gives the match output of rule R204. -/
def Obligations.DoublingCopyGivesTheMatchOutput : Prop :=
  ∀ (s : State) (d l : Nat), 1 ≤ d → s.matchBytesByDoubling d l = s.matchBytes d l

/-- A copy that writes each byte to the ring as it goes gives the same bytes and the same ring as the read-first match,
as long as the distance is within the ring; beyond it they can differ: there is a sound state, a distance and a length
for which they do (rule R76). -/
def Obligations.ByteByByteCopyAgreesWithinTheRing : Prop :=
  (∀ (s : State) (d l : Nat), s.histIdx < s.cfg.histCap → 1 ≤ d → d ≤ s.cfg.histCap →
    State.copyByteByByte d l s = (s.matchBytes d l, s.ringWrite (s.matchBytes d l))) ∧
  (∃ (s : State) (d l : Nat), s.Inv ∧ s.cfg.histCap < d ∧ 3 ≤ l ∧
    (State.copyByteByByte d l s).1 ≠ s.matchBytes d l)

/-! ### Literal tokens -/

/-- `LIT8 v` (rule R226): one byte to output and history, then the loop test; nothing else changes. -/
def Obligations.Lit8EmitsItsByte : Prop :=
  ∀ (v : BitVec 8) (s : State), s.outCnt < outCap →
    ∃ t, exec (.lit8 v) s = .next t ∧ Emitted [v] s t ∧ SameAroundToken s t ∧ SameWorking s t ∧
      t.state = afterToken s.bitsRem

/-- Each of the 25 coded literals (rules R145, R150 to R174, R228) emits the byte its rule prints, leaves its prefix in
`PFX` and the prefix's length in `PFX_LEN`, and changes nothing else; so does an entry of any other literal table. The 25
are the reference table's (assumption 2, PRESUMED); that the meaning writes the working registers is assumption 4. -/
def Obligations.CodedLiteralsEmitTheirByte : Prop :=
  (∀ (i : Instr) (b : Byte), literalByteOf i = some b → ∀ s : State, s.outCnt < outCap →
    ∃ t, exec i s = .next t ∧ LiteralDone b (prefixOf i) (prefixLength i) s t) ∧
  (∀ (e : Token) (s : State), s.outCnt < outCap →
    ∃ t, execForm (.literal e) s = .next t ∧ LiteralDone (BitVec.ofNat 8 e.base) e.prefixCode e.prefixLen s t)

/-- A literal, of any literal table, that finds the output buffer full fails with `OutputCapacityExceeded` and writes
nothing (rule R208). -/
def Obligations.LiteralsFailOnAFullBuffer : Prop :=
  (∀ (i : Instr) (s : State), ((∃ v, i = .lit8 v) ∨ ∃ b, literalByteOf i = some b) → outCap ≤ s.outCnt →
    ∃ t, exec i s = .next t ∧ FailedWith .outputCapacityExceeded s t ∧ SameReader s t ∧ SameOperands s t) ∧
  (∀ (e : Token) (s : State), outCap ≤ s.outCnt →
    ∃ t, execForm (.literal e) s = .next t ∧ FailedWith .outputCapacityExceeded s t ∧ SameReader s t ∧
      SameOperands s t)

/-! ### Match tokens -/

/-- Each of the 14 match classes (rules R180 to R193, R230, R232) with a length that fits copies `l` bytes from distance
`d`, leaves prefix, prefix length, distance, length and the count of length bits in their registers, and changes nothing
else; so does an entry of any other match table. The 14 are the reference table's (assumption 2, PRESUMED); that the
meaning writes the working registers is assumption 4. -/
def Obligations.MatchesCopyFromTheHistory : Prop :=
  (∀ (i : Instr) (d l : Nat) (len : LengthCode), matchOperandsOf i = some (d, len) → lengthValue len = some l → d ≠ 0 →
    ∀ s : State, s.histIdx < s.cfg.histCap → l ≤ outCap - s.outCnt →
      ∃ t, exec i s = .next t ∧ MatchDone d l len (prefixOf i) (prefixLength i) s t) ∧
  (∀ (e : Token) (x l : Nat) (len : LengthCode), lengthValue len = some l → e.base + x ≠ 0 →
    ∀ s : State, s.histIdx < s.cfg.histCap → l ≤ outCap - s.outCnt →
      ∃ t, execForm (.copy e x len) s = .next t ∧ MatchDone (e.base + x) l len e.prefixCode e.prefixLen s t)

/-- A match, of any match table, whose length does not fit, or whose length code runs past the guard, fails with
`OutputCapacityExceeded` before a byte is read or written (rules R231, R232). -/
def Obligations.MatchesThatDoNotFitFail : Prop :=
  (∀ (i : Instr) (d : Nat) (len : LengthCode), matchOperandsOf i = some (d, len) → d ≠ 0 →
    ∀ s : State, (len = .overrun ∨ ∃ l, lengthValue len = some l ∧ outCap - s.outCnt < l) →
      ∃ t, exec i s = .next t ∧ FailedWith .outputCapacityExceeded s t ∧ SameReader s t ∧ t.dist = d ∧
        t.count = s.count) ∧
  (∀ (e : Token) (x : Nat) (len : LengthCode), e.base + x ≠ 0 →
    ∀ s : State, (len = .overrun ∨ ∃ l, lengthValue len = some l ∧ outCap - s.outCnt < l) →
      ∃ t, execForm (.copy e x len) s = .next t ∧ FailedWith .outputCapacityExceeded s t ∧ SameReader s t ∧
        t.dist = e.base + x ∧ t.count = s.count)

/-- `UNENC` (rule R233) that fits, by the reference entry or by an entry of any other match table: the raw bytes at the
next byte boundary go to output and history, the BitReader stands after them, the prefix and its length are held, and
nothing else changes. The reference entry is assumption 2 (PRESUMED), the working registers are assumption 4. -/
def Obligations.UnencodedRunsCopyRawBytes : Prop :=
  (∀ (count : BitVec 15) (s : State), s.histIdx < s.cfg.histCap → s.inLen = s.inBytes.length →
    count.toNat ≤ outCap - s.outCnt → count.toNat ≤ s.inLen - s.byteCur →
    8 * count.toNat ≤ s.bitsRem - min s.accCnt s.bitsRem →
      ∃ t, exec (.unenc count) s = .next t ∧
        RunDone count.toNat (prefixOf (.unenc count)) (prefixLength (.unenc count)) s t) ∧
  (∀ (e : Token) (count : BitVec 15) (s : State), s.histIdx < s.cfg.histCap → s.inLen = s.inBytes.length →
    count.toNat ≤ outCap - s.outCnt → count.toNat ≤ s.inLen - s.byteCur →
    8 * count.toNat ≤ s.bitsRem - min s.accCnt s.bitsRem →
      ∃ t, execForm (.run e count) s = .next t ∧ RunDone count.toNat e.prefixCode e.prefixLen s t)

/-- An unencoded run, of any match table, that does not fit realigns and fails, on the output first and then on slice
and budget (rule R233). The order is the spec's decision D16. -/
def Obligations.UnencodedRunFailureOrder : Prop :=
  ∀ (f : Form) (count : BitVec 15), (f = .row (.unenc count) ∨ ∃ e, f = .run e count) → ∀ s : State,
    (outCap - s.outCnt < count.toNat →
      ∃ t, execForm f s = .next t ∧ FailedWith .outputCapacityExceeded s t ∧ SameReader s.realign t) ∧
    (count.toNat ≤ outCap - s.outCnt →
      (s.inLen - s.byteCur < count.toNat ∨ s.bitsRem - min s.accCnt s.bitsRem < 8 * count.toNat) →
      ∃ t, execForm f s = .next t ∧ FailedWith .bitstreamExhausted s t ∧ SameReader s.realign t)

/-- The two unmatched prefixes of the reference tables, and bits that no entry of other tables matches, raise
`UnmatchedCode` (rules R143, R194, R195): memory and the BitReader are as the walk left them, and `PFX` holds the bits.
The two prefixes are assumption 2 (PRESUMED), their nine bits assumption 15 (DEDUCED). -/
def Obligations.UnmatchedPrefixesRaiseUnmatchedCode : Prop :=
  (∀ (i : Instr) (s : State), ((∃ rest, i = .illegal10000 rest) ∨ i = .illegal101111111) →
    ∃ t, exec i s = .next t ∧ FailedWith .unmatchedCode s t ∧ SameReader s t ∧
      HoldsPrefix .matchTable (bitsToNat (encode i)) 9 t ∧ SameOperands s t) ∧
  (∀ (table : TableSel) (p n : Nat) (s : State),
    ∃ t, execForm (.unmatched table p n) s = .next t ∧ FailedWith .unmatchedCode s t ∧ SameReader s t ∧
      HoldsPrefix table p n t ∧ SameOperands s t)

/-! ### Segments -/

/-- The control byte selects the form by its bit `0x20` and by no other (rule R221): another control byte with the same
bit `0x20` gives the same step but for the latched byte. -/
def Obligations.ControlByteSelectsTheFormByOneBit : Prop :=
  ∀ (s : State) (c c' : Byte) (body : List Byte), s.busy = false → s.presented = some (c :: body) →
    (c &&& 0x20 = 0x20 → step s = exec (.segComp c) s) ∧
    (c &&& 0x20 = 0 → step s = exec (.segRaw c) s) ∧
    (c &&& 0x20 = c' &&& 0x20 → ∀ t, step s = .next t →
      step { s with presented := some (c' :: body) } = .next { t with ctrl := c' })

/-- `SEG_RAW` (rules R220, R222): a body that fits is the segment's output and is appended to the history; the BitReader
is not touched. -/
def Obligations.RawSegmentsCopyTheirBody : Prop :=
  ∀ (s : State) (ctrl : Byte) (body : List Byte), s.histIdx < s.cfg.histCap → s.busy = false →
    s.presented = some (ctrl :: body) → body.length ≤ outCap →
      ∃ t, exec (.segRaw ctrl) s = .next t ∧ Emitted body { s with outCnt := 0 } t ∧ t.state = .done ∧ t.err = none ∧
        t.ctrl = ctrl ∧ t.pad = s.pad ∧ SameReader s t ∧ SameWorking s t ∧ SameHost { s with presented := none } t

/-- A raw body of more than 65536 bytes fails before a byte is written (rule R222; decision D18). -/
def Obligations.RawSegmentsTooLongFail : Prop :=
  ∀ (s : State) (ctrl : Byte) (body : List Byte), s.busy = false → s.presented = some (ctrl :: body) →
    outCap < body.length → body.length + 1 < 2 ^ 32 →
      ∃ t, exec (.segRaw ctrl) s = .next t ∧
        FailedWith .outputCapacityExceeded { s with presented := none, outCnt := 0, ctrl := ctrl } t ∧
        SameReader s t ∧ SameWorking s t

/-- `SEG_COMP` with a legal header (rules R95, R220, R223, R224): the BitReader views the bytes between control byte and
pad indicator with the budget of rule R95; the history is kept and the output count is 0. -/
def Obligations.CompressedSegmentsOpenTheBitstream : Prop :=
  ∀ (s : State) (c ctrl pad : Byte) (bytes : List Byte), s.busy = false →
    s.presented = some (c :: (bytes ++ [pad])) → bytes.length + 2 < 2 ^ 32 → pad.toNat ≤ 7 →
    pad.toNat ≤ 8 * bytes.length →
      ∃ t, exec (.segComp ctrl) s = .next t ∧
        t.inBytes = bytes ∧ t.inLen = bytes.length ∧ t.byteCur = 0 ∧ t.acc = 0 ∧ t.accCnt = 0 ∧
        t.bitsRem = 8 * bytes.length - pad.toNat ∧ t.bitPos = 0 ∧ t.state = afterToken t.bitsRem ∧ t.err = none ∧
        t.ctrl = ctrl ∧ t.pad = pad ∧ t.outCnt = 0 ∧ SameMemory { s with outCnt := 0 } t ∧ SameWorking s t ∧
        SameHost { s with presented := none } t

/-- `InvalidPadIndicator` (rule R282) is what a compressed segment raises whose last byte is above 7, or 1 to 7 in a
segment with no bitstream byte; nothing else raises it, and nothing has been written or set up when it is. -/
def Obligations.InvalidPadIndicatorIsTheHeaders : Prop :=
  (∀ (s t : State) (seg : List Byte), s.busy = false → s.presented = some seg → step s = .next t →
    (t.err = some .invalidPadIndicator ↔
      2 ≤ seg.length ∧ compressed (seg.headD 0) = true ∧
        (7 < (seg.getLastD 0).toNat ∨ seg.length = 2 ∧ (seg.getLastD 0).toNat ≠ 0)) ∧
    (t.err = some .invalidPadIndicator →
      FailedWith .invalidPadIndicator
        { s with presented := none, outCnt := 0, ctrl := seg.headD 0, pad := seg.getLastD 0 } t ∧
      SameReader s t ∧ SameWorking s t)) ∧
  (∀ s t : State, s.state = .readSelector → step s = .next t → t.err = some .invalidPadIndicator →
    s.err = some .invalidPadIndicator) ∧
  (∀ s t : State, s.busy = false → s.presented = none → step s = .next t → t.err = some .invalidPadIndicator →
    s.err = some .invalidPadIndicator)

/-- A segment with a byte missing (rules R220, R223; decision D17): an empty segment, and a compressed segment with no
pad indicator, fail with `BitstreamExhausted`. -/
def Obligations.SegmentsCutShortFail : Prop :=
  (∀ s : State, s.busy = false → s.presented = some [] →
    ∃ t, step s = .next t ∧ FailedWith .bitstreamExhausted { s with presented := none, outCnt := 0 } t ∧
      SameReader s t ∧ SameWorking s t) ∧
  (∀ (s : State) (ctrl : Byte), s.busy = false → s.presented = some [ctrl] → compressed ctrl = true →
    ∃ t, step s = .next t ∧
      FailedWith .bitstreamExhausted { s with presented := none, outCnt := 0, ctrl := ctrl } t ∧
      SameReader s t ∧ SameWorking s t)

/-- What the spec gives no meaning is refused by name (rules R7, R11, R131, R180, R220, R313; U2, U6, U15; assumptions 5,
9, 10 and 21). The last clause is the model's own choice: one step is one token, so a state inside a token has no step
(assumption 11, DESIGN CHOICE). -/
def Obligations.RequestsWithoutMeaningAreRefused : Prop :=
  (∀ (s : State) (ctrl : Byte), s.busy = true →
    exec (.segRaw ctrl) s = .refused .startWhileBusy ∧ exec (.segComp ctrl) s = .refused .startWhileBusy ∧
    exec .frameSingle s = .refused .startWhileBusy ∧ exec .frameMulti s = .refused .startWhileBusy ∧
    sessionReset s = .refused .resetWhileBusy) ∧
  (∀ (s : State) (ctrl : Byte) (seg : List Byte), s.busy = false → s.presented = some seg → 2 ^ 32 ≤ seg.length →
    exec (.segRaw ctrl) s = .refused .segmentTooLong ∧ exec (.segComp ctrl) s = .refused .segmentTooLong) ∧
  (∀ (s : State) (n : Nat), nMax < n → getBits n s = .stop (.refuse (.getBitsTooWide n)) s) ∧
  (∀ (s : State) (len : LengthCode), exec (.matchC0 0 len) s = .refused .zeroDistanceMatch) ∧
  (∀ s : State, s.state = .readSelector → s.cfg.tablesLegal = false → step s = .refused .illegalTables) ∧
  (∀ s : State, s.busy = true → s.state ≠ .readSelector → step s = .refused .insideToken)

/-! ### The host -/

/-- `FRAME_SINGLE` (rule R263) presents all bytes after the descriptor as one segment and touches nothing else. -/
def Obligations.SingleFramesPresentTheRest : Prop :=
  ∀ (s : State) (before rest : List Byte) (d : Byte), s.busy = false → s.input = before ++ d :: rest →
    s.offset = before.length →
      exec .frameSingle s = .next { s with presented := some rest, phase := .single, ret := none }

/-- `FRAME_MULTI` (rule R264): the little-endian header, or `BitstreamExhausted` where it is cut short (decision D25). -/
def Obligations.MultipartFramesReadTheirHeader : Prop :=
  (∀ s : State, s.busy = false → s.input.length < s.offset + 7 →
    exec .frameMulti s = .next { s with phase := .idle, ret := some (.error (some .bitstreamExhausted)) }) ∧
  (∀ (s : State) (before rest : List Byte) (d c0 c1 u0 u1 u2 u3 : Byte), s.busy = false →
    s.input = before ++ d :: c0 :: c1 :: u0 :: u1 :: u2 :: u3 :: rest → s.offset = before.length →
      exec .frameMulti s =
        .next { s with
          segmentCount := c0.toNat + 256 * c1.toNat,
          uncompressedSize := u0.toNat + 2 ^ 8 * u1.toNat + 2 ^ 16 * u2.toNat + 2 ^ 24 * u3.toNat,
          cursor := s.offset + 7, segIndex := 0, total := 0, result := [], phase := .multiNext, ret := none })

/-- The head of the multipart loop (rule R265): a little-endian size and that many bytes presented as a segment, or
`BitstreamExhausted` where size or bytes are cut short (decision D25). -/
def Obligations.MultipartLoopPresentsEachSegment : Prop :=
  ∀ s : State, s.busy = false → s.presented = none → s.phase = .multiNext → ¬s.resetDue →
    s.segIndex < s.segmentCount →
    (s.input.length < s.cursor + 4 →
      step s = .next { s with phase := .idle, ret := some (.error (some .bitstreamExhausted)) }) ∧
    (∀ (z0 z1 z2 z3 : Byte) (rest : List Byte) (size : Nat), s.input.drop s.cursor = z0 :: z1 :: z2 :: z3 :: rest →
      size = z0.toNat + 2 ^ 8 * z1.toNat + 2 ^ 16 * z2.toNat + 2 ^ 24 * z3.toNat →
      (rest.length < size →
        step s = .next { s with segmentSize := size, cursor := s.cursor + 4, phase := .idle,
                                ret := some (.error (some .bitstreamExhausted)) }) ∧
      (size ≤ rest.length →
        step s = .next { s with segmentSize := size, cursor := s.cursor + 4, presented := some (rest.take size),
                                phase := .multiWait }))

/-- The end of a segment of a frame (rules R263, R265): a failed segment ends the call with its error; otherwise the
bytes of `OUT` are the result or are added to it, unless the declared size would be exceeded. -/
def Obligations.SegmentResultsAreCollected : Prop :=
  ∀ s : State, s.busy = false → s.presented = none → s.OutInv →
    ∃ bytes : List Byte, bytes.length = s.outCnt ∧ (∀ i, i < s.outCnt → bytes[i]? = s.out.get? i) ∧
      (s.phase = .single →
        (s.state = .failed → step s = .next { s with phase := .idle, ret := some (.error s.err) }) ∧
        (s.state = .done → step s = .next { s with phase := .idle, ret := some (.ok bytes) })) ∧
      (s.phase = .multiWait →
        (s.state = .failed → step s = .next { s with phase := .idle, ret := some (.error s.err) }) ∧
        (s.state = .done → s.uncompressedSize < s.total + s.outCnt →
          step s = .next { s with cursor := s.cursor + s.segmentSize, phase := .idle,
                                  ret := some (.error (some .outputCapacityExceeded)) }) ∧
        (s.state = .done → s.total + s.outCnt ≤ s.uncompressedSize →
          step s = .next { s with cursor := s.cursor + s.segmentSize, result := s.result ++ bytes,
                                  total := s.total + s.outCnt, segIndex := s.segIndex + 1, phase := .multiNext }))

/-- The end of a multipart frame (rule R266): the result when it has the declared size, else what `UNDERRUN_POLICY`
says (decision D21). -/
def Obligations.MultipartFramesEndByTheirTotal : Prop :=
  ∀ s : State, s.busy = false → s.presented = none → s.phase = .multiNext → ¬s.resetDue →
    s.segmentCount ≤ s.segIndex →
    (s.total = s.uncompressedSize → step s = .next { s with phase := .idle, ret := some (.ok s.result) }) ∧
    (s.total ≠ s.uncompressedSize → s.cfg.underrun = .short →
      step s = .next { s with phase := .idle, ret := some (.ok s.result) }) ∧
    (s.total ≠ s.uncompressedSize → s.cfg.underrun = .fail →
      step s = .next { s with phase := .idle, ret := some (.error (some .outputCapacityExceeded)) })

/-- A call whose descriptor is no frame's returns the whole input, a call with no byte at its offset an error; neither
touches the core (rules R93, R261, R268; decision D25). -/
def Obligations.UnrecognisedInputIsPassedThrough : Prop :=
  ∀ (s : State) (input : List Byte) (offset : Nat) (rest : List Command), s.busy = false → s.presented = none →
    s.phase = .idle → s.calls = .decompress input offset :: rest →
    (∀ d, input[offset]? = some d → d ≠ 0xE0 → d ≠ 0xE1 →
      step s = .next { s with calls := rest, input := input, offset := offset,
                              ret := some (.passThrough input) }) ∧
    (input.length ≤ offset →
      step s = .next { s with calls := rest, input := input, offset := offset,
                              ret := some (.error (some .bitstreamExhausted)) })

/-- The other commands of the host (rules R220, R294): a segment start presents its segment, and with none pending the
state stays. That commands wait in a queue is the model's (assumption 7). -/
def Obligations.HostCommandsAreTakenInOrder : Prop :=
  ∀ s : State, s.busy = false → s.presented = none → s.phase = .idle →
    (s.calls = [] → step s = .next s) ∧
    (∀ (seg : List Byte) (rest : List Command), s.calls = .segment seg :: rest →
      step s = .next { s with calls := rest, presented := some seg })

/-- A session reset (rules R310, R311, R314) gives a new DecoderContext with the same parameters, between two segments of
a frame too, and leaves the host's registers but for the command taken. -/
def Obligations.SessionResetsRenewTheContext : Prop :=
  ∀ s : State, s.resetDue →
    ∃ t, step s = .next t ∧ SameHost { s with calls := s.calls.tail } t ∧
      (∀ a, t.histByte a = initByte s.cfg.histInit (a % s.cfg.histCap)) ∧ t.histIdx = 0 ∧ t.outCnt = 0 ∧
      t.state = .done ∧ t.err = none

/-! ### Decoding and encoding -/

/-- Decoding inverts encoding: with the reference tables (assumption 2) the bits of every well-formed instruction, with
anything after them, decode to it; and with any legal tables in which no prefix begins another, the bits of every entry
with every operand decode to that entry and those operands. -/
def Obligations.DecodeInvertsEncode : Prop :=
  (∀ (cfg : Config) (i : Instr) (rest : List Bool), ReferenceTables cfg → i.wellFormed = true →
    decode cfg i.layer (encode i ++ rest) = .ok (.row i) rest) ∧
  (∀ (cfg : Config) (rest : List Bool), cfg.tablesLegal = true → PrefixFree cfg.litTable → PrefixFree cfg.matchTable →
    (∀ v : Byte, decode cfg .token (encode (.lit8 v) ++ rest) = .ok (.row (.lit8 v)) rest) ∧
    (∀ e, e ∈ cfg.litTable → decode cfg .token (e.prefixBits ++ rest) = .ok (literalForm e) rest) ∧
    (∀ e, e ∈ cfg.matchTable → ∀ x, x < 2 ^ e.valueBits →
      (∀ len : LengthCode, len.wellFormed = true → e.base + x ≠ 0 →
        decode cfg .token (e.prefixBits ++ natToBits e.valueBits x ++ encodeLength len ++ rest) =
          .ok (matchForm e x len) rest) ∧
      (∀ count : BitVec 15, e.base + x = 0 →
        decode cfg .token (e.prefixBits ++ natToBits e.valueBits x ++ natToBits 15 count.toNat ++ rest) =
          .ok (runForm e count.toNat) rest)))

/-- Each bit string has one meaning, with any tables: what decodes is the encoding of what it decodes to, and that is
well-formed. With the reference tables (assumption 2) everything that decodes is a row of the opcode table. -/
def Obligations.EncodeInvertsDecode : Prop :=
  (∀ (cfg : Config) (layer : Layer) (bits rest : List Bool) (f : Form), decode cfg layer bits = .ok f rest →
    f.wellFormed = true ∧ f.layer = layer ∧ bits = encodeForm f ++ rest) ∧
  (∀ (cfg : Config) (layer : Layer) (bits rest : List Bool) (f : Form), ReferenceTables cfg →
    decode cfg layer bits = .ok f rest → ∃ i, f = .row i)

/-- The reference literal table is complete under `11`, and on the match side of the reference tables exactly the two
`ILLEGAL` prefixes are unmatched (rules R106, R148 (b) and (c); assumption 2, PRESUMED). -/
def Obligations.OnlyTwoPrefixesAreUnmatched : Prop :=
  ∀ cfg : Config, ReferenceTables cfg →
  (∀ bits : List Bool, 8 ≤ bits.length → bits.take 2 = [true, true] →
    ∃ i b rest, decode cfg .token bits = .ok (.row i) rest ∧ literalByteOf i = some b) ∧
  (∀ (bits rest : List Bool) (f : Form), decode cfg .token bits = .ok f rest →
    (isUnmatched f = true ↔
      bits.take 5 = [true, false, false, false, false] ∨
      bits.take 9 = [true, false, true, true, true, true, true, true, true]))

/-- Every length from 3 to 131071 has exactly one code, and no code stands for another length (rule R102). -/
def Obligations.EveryLengthHasOneCode : Prop :=
  (∀ l, 3 ≤ l → l < 2 ^ 17 →
    ∃ len : LengthCode, len.wellFormed = true ∧ lengthValue len = some l ∧
      ∀ len' : LengthCode, len'.wellFormed = true → lengthValue len' = some l → len' = len) ∧
  (∀ (len : LengthCode) (l : Nat), len.wellFormed = true → lengthValue len = some l → 3 ≤ l ∧ l < 2 ^ 17)

/-- Every distance from 1 to 33871519 belongs to exactly one match class and extra-bit value, and no other distance to
any (rules R101, R148 (d); assumption 2, PRESUMED). -/
def Obligations.EveryDistanceHasOneClass : Prop :=
  ∀ (len : LengthCode) (d : Nat),
    (1 ≤ d → d ≤ 33871519 →
      ∃ i, matchOperandsOf i = some (d, len) ∧ ∀ j, matchOperandsOf j = some (d, len) → j = i) ∧
    (33871519 < d → ∀ i, matchOperandsOf i ≠ some (d, len))

/-- The machine's own fetch agrees with the decoder on the bits the budget leaves, with any legal tables: the step runs
the decoded instruction, in a state that differs only in the BitReader, which stands after exactly the instruction's bits
(rules R27, R103, R144, R225). -/
def Obligations.StepRunsTheDecodedToken : Prop :=
  ∀ (s : State) (f : Form) (rest : List Bool), s.ReaderInv → s.cfg.tablesLegal = true → s.state = .readSelector →
    decode s.cfg .token s.tokenBits = .ok f rest →
      ∃ t, step s = execForm f t ∧ (∀ i, f = .row i → step s = exec i t) ∧ t.ReaderInv ∧ t.tokenBits = rest ∧
        t.bitPos = s.bitPos + formLength f ∧ t.bitsRem + formLength f = s.bitsRem ∧
        t = { s with byteCur := t.byteCur, acc := t.acc, accCnt := t.accCnt, bitsRem := t.bitsRem }

/-- A token cut short by the budget fails with `BitstreamExhausted`, with memory as it was and the BitReader after the
reads that succeeded (rules R106 (c), R122, R224, R288). That the working registers are as before is the model's choice
(assumption 4, DESIGN CHOICE). -/
def Obligations.TokensCutShortFail : Prop :=
  ∀ (s : State) (e : DecodeError) (rest : List Bool), s.ReaderInv → s.cfg.tablesLegal = true →
    s.state = .readSelector → decode s.cfg .token s.tokenBits = .stop e rest →
      ∃ t, step s = .next t ∧ FailedWith .bitstreamExhausted s t ∧ SameWorking s t ∧ t.ReaderInv ∧
        t.tokenBits = rest ∧ t.inBytes = s.inBytes ∧ t.inLen = s.inLen

/-! ### The machine as a whole -/

/-- Every step keeps the invariant (rules R35, R128). -/
def Obligations.StepKeepsTheInvariant : Prop :=
  ∀ s t : State, s.Inv → step s = .next t → t.Inv

/-- Every step keeps the tail of the ring equal to the tail of the output (rule R208). -/
def Obligations.StepKeepsTheTailsEqual : Prop :=
  ∀ s t : State, s.Inv → s.TailAgrees → step s = .next t → t.TailAgrees

/-- From a state that meets the invariant the machine goes on, unless the host has presented a segment of `2^32` bytes or
more, outside the operand range of rule R220; no fault can be raised (rules R73, R322). -/
def Obligations.SoundStatesGoOn : Prop :=
  ∀ s : State, s.Inv →
    (∃ t, step s = .next t) ∨
      (step s = .refused .segmentTooLong ∧ ∃ seg, s.presented = some seg ∧ 2 ^ 32 ≤ seg.length)

/-- The history changes only by the bytes that `OUT` gains in the same step, from `OUT_CNT` on in a token and from 0 on in
a raw segment, or by a session reset (rules R61, R208, R209, R310), and no step changes the parameters (rule R6). A token
that fails gains no byte. -/
def Obligations.HistoryOnlyGrowsOrIsReset : Prop :=
  ∀ s t : State, step s = .next t → t.cfg = s.cfg ∧
    (s.state = .readSelector → ∃ bytes, Gained s.outCnt bytes s t) ∧
    (∀ (ctrl : Byte) (body : List Byte), s.busy = false → s.presented = some (ctrl :: body) → compressed ctrl = false →
      Gained 0 (if body.length ≤ outCap then body else []) s t) ∧
    (s.resetDue → (∀ a, t.histByte a = initByte s.cfg.histInit (a % s.cfg.histCap)) ∧ t.histIdx = 0) ∧
    (s.busy = false → ¬s.resetDue → (∀ ctrl body, s.presented = some (ctrl :: body) → compressed ctrl = true) →
      t.hist = s.hist ∧ t.histIdx = s.histIdx)

/-- An idle core holds its state: without a segment start or a session reset no register and no byte of the core changes
(rules R268, R290, R294). -/
def Obligations.IdleCoreHoldsItsState : Prop :=
  ∀ s t : State, s.busy = false → s.presented = none → ¬s.resetDue → step s = .next t →
      t.state = s.state ∧ t.err = s.err ∧ SameMemory s t ∧ SameReader s t ∧ SameWorking s t ∧ SameHeader s t

/-- The token that fails has written neither output nor history; only `ERR`, `STATE`, the BitReader and the working
registers have changed (rules R287, R288). -/
def Obligations.FailingTokensWriteNoMemory : Prop :=
  ∀ s t : State, s.state = .readSelector → step s = .next t → t.state = .failed →
    ∃ k, FailedWith k s t ∧ t.inBytes = s.inBytes ∧ t.inLen = s.inLen

/-- Every token consumes budget: the bit position never moves back, and a token that completes consumes at least 2 bits,
at least 5 with the reference tables (rules R27, R129, R224; assumption 2, PRESUMED). -/
def Obligations.TokensConsumeBits : Prop :=
  ∀ s t : State, s.ReaderInv → s.state = .readSelector → step s = .next t →
    Consumed 0 s t ∧ (t.state ≠ .failed → Consumed 2 s t) ∧
    (ReferenceTables s.cfg → t.state ≠ .failed → Consumed 5 s t)

/-- A completed token, of any legal tables, advances the bit position by exactly its length (rules R27, R103); position
and budget keep their sum unless `realign` has clamped the budget to 0 (rule R127). -/
def Obligations.CompletedTokensAdvanceByTheirLength : Prop :=
  ∀ (s t : State) (f : Form) (rest : List Bool), s.ReaderInv → s.state = .readSelector →
    decode s.cfg .token s.tokenBits = .ok f rest → step s = .next t → t.state ≠ .failed →
      t.bitPos = tokenEnd s.bitPos f ∧ (t.bitPos + t.bitsRem = s.bitPos + s.bitsRem ∨ t.bitsRem = 0)

/-- A segment decode ends, in `Done` or `Failed`, after at most one token for every 2 bits of its budget, the last of
which may be cut short (rules R224, R322). The bound of one token for every 5 bits is the reference tables' (assumption 2,
PRESUMED). -/
def Obligations.SegmentDecodesEnd : Prop :=
  ∀ s : State, s.Inv → s.state = .readSelector →
    (∃ (k : Nat) (t : State), k ≤ (s.bitsRem + 1) / 2 ∧ Host.Core.run core k s = .next t ∧ t.busy = false) ∧
    (ReferenceTables s.cfg →
      ∃ (k : Nat) (t : State), k ≤ (s.bitsRem + 4) / 5 ∧ Host.Core.run core k s = .next t ∧ t.busy = false)

/-- Every `decompress` call returns: from a sound state with a frame open, and a presented segment within the operand
range, the machine reaches a state with no frame open and a result (rules R260, R322). -/
def Obligations.EveryCallReturns : Prop :=
  ∀ s : State, s.Inv → s.phase ≠ .idle → (∀ seg, s.presented = some seg → seg.length < 2 ^ 32) →
    ∃ (k : Nat) (t : State), Host.Core.run core k s = .next t ∧ t.phase = .idle ∧ t.ret.isSome = true

/-- The identity for uncompressed segments (property S1): a call on a single frame with a raw segment returns its body
and appends it to the history. -/
def Obligations.RawFramesReturnTheirBody : Prop :=
  ∀ (s : State) (before body : List Byte) (ctrl : Byte) (rest : List Command), s.Inv → s.busy = false →
    s.phase = .idle → s.presented = none → s.calls = .decompress (before ++ 0xE0 :: ctrl :: body) before.length :: rest →
    compressed ctrl = false → body.length ≤ outCap →
      ∃ t : State, Host.Core.run core 3 s = .next t ∧ t.ret = some (.ok body) ∧ t.state = .done ∧ t.calls = rest ∧
        t.phase = .idle ∧ Emitted body { s with outCnt := 0 } t

/-- Unencoded-run fidelity (property S2): with the reference tables (assumption 2, PRESUMED) a compressed segment that is
one unencoded run decodes to its raw bytes, whatever the seven alignment bits are. -/
def Obligations.UnencodedSegmentsDecodeToTheirBytes : Prop :=
  ∀ (s : State) (ctrl : Byte) (align : List Bool) (body : List Byte), s.Inv → ReferenceTables s.cfg → s.busy = false →
    align.length = 7 → body.length < 2 ^ 15 → compressed ctrl = true →
    s.presented =
      some (ctrl :: (packBits 4 (encode (.unenc (BitVec.ofNat 15 body.length)) ++ align) ++ body ++ [0])) →
      ∃ t : State, Host.Core.run core 2 s = .next t ∧ t.state = .done ∧ t.err = none ∧
        Emitted body { s with outCnt := 0 } t

/-- The single-literal round trip (property S3): the bit `0` and the 8 bits of `v` decode to `v`. -/
def Obligations.SingleLiteralSegmentsDecode : Prop :=
  ∀ (s : State) (ctrl v : Byte), s.Inv → s.busy = false → compressed ctrl = true →
    s.presented = some [ctrl, v >>> (1 : Nat), v <<< (7 : Nat), 7] →
      ∃ t : State, Host.Core.run core 2 s = .next t ∧ t.state = .done ∧ t.err = none ∧
        Emitted [v] { s with outCnt := 0 } t

end
end

