-- ==== Sys2Proof/Laws/Bits.lean ====
section
/-! SUPPORT. The laws of bit strings: `natToBits` and `bitsToNat` are inverse, and they split and join. -/

namespace Sys2Proof

@[simp] theorem natToBits_length (w v : Nat) : (natToBits w v).length = w := by
  induction w with
  | zero => rfl
  | succ w ih => simp [natToBits, ih]

@[simp] theorem byteBits_length (b : Byte) : (byteBits b).length = 8 := natToBits_length 8 _

theorem streamBits_cons (b : Byte) (bs : List Byte) : streamBits (b :: bs) = byteBits b ++ streamBits bs := by
  simp [streamBits]

@[simp] theorem streamBits_length (bs : List Byte) : (streamBits bs).length = 8 * bs.length := by
  induction bs with
  | nil => rfl
  | cons b bs ih => rw [streamBits_cons, List.length_append, byteBits_length, ih, List.length_cons]; omega

theorem foldl_bits (bits : List Bool) (a : Nat) :
    bits.foldl (fun acc b => 2 * acc + b.toNat) a = a * 2 ^ bits.length + bitsToNat bits := by
  induction bits generalizing a with
  | nil => simp [bitsToNat]
  | cons b bs ih =>
    have h0 : bitsToNat (b :: bs) = bs.foldl (fun acc b => 2 * acc + b.toNat) (2 * 0 + b.toNat) := rfl
    rw [List.foldl_cons, ih, h0, ih, List.length_cons, pow_succ]
    ring

/-- Two bit strings in a row: the first is the more significant. -/
theorem bitsToNat_append (xs ys : List Bool) : bitsToNat (xs ++ ys) = bitsToNat xs * 2 ^ ys.length + bitsToNat ys := by
  rw [bitsToNat, List.foldl_append, foldl_bits]; rfl

theorem bitsToNat_cons (b : Bool) (bs : List Bool) : bitsToNat (b :: bs) = b.toNat * 2 ^ bs.length + bitsToNat bs := by
  rw [bitsToNat, List.foldl_cons, foldl_bits]; simp

theorem bitsToNat_lt (bits : List Bool) : bitsToNat bits < 2 ^ bits.length := by
  induction bits with
  | nil => simp [bitsToNat]
  | cons b bs ih =>
    rw [bitsToNat_cons, List.length_cons, pow_succ]
    cases b <;> simp <;> omega

/-- Only the low `w` bits of the number are written. -/
theorem bitsToNat_natToBits (w v : Nat) : bitsToNat (natToBits w v) = v % 2 ^ w := by
  induction w with
  | zero => simp [natToBits, bitsToNat, Nat.mod_one]
  | succ w ih =>
    rw [natToBits, bitsToNat_cons, natToBits_length, ih, Nat.mod_pow_succ, Nat.testBit_eq_decide_div_mod_eq]
    rcases Nat.mod_two_eq_zero_or_one (v / 2 ^ w) with h | h <;> (simp [h]; try ring)

theorem natToBits_mod (w v : Nat) : natToBits w (v % 2 ^ w) = natToBits w v := by
  have key : ∀ k, k ≤ w → natToBits k (v % 2 ^ w) = natToBits k v := by
    intro k
    induction k with
    | zero => intro _; rfl
    | succ k ih =>
      intro h
      rw [natToBits, natToBits, ih (by omega), Nat.testBit_mod_two_pow]
      simp [show k < w by omega]
  exact key w le_rfl

/-- The first `m` and the last `k` of `m + k` bits. -/
theorem natToBits_add (m k v : Nat) : natToBits (m + k) v = natToBits m (v / 2 ^ k) ++ natToBits k v := by
  induction m with
  | zero => simp [natToBits]
  | succ m ih =>
    rw [Nat.succ_add, natToBits, natToBits, ih, List.cons_append, Nat.testBit_div_two_pow, Nat.add_comm]

theorem natToBits_bitsToNat (bits : List Bool) : natToBits bits.length (bitsToNat bits) = bits := by
  induction bits with
  | nil => rfl
  | cons b bs ih =>
    rw [List.length_cons, natToBits]
    have hlt := bitsToNat_lt bs
    congr 1
    · rw [bitsToNat_cons, Nat.mul_comm, Nat.testBit_two_pow_mul_add _ hlt]
      cases b <;> simp
    · rw [← natToBits_mod, bitsToNat_cons, Nat.mul_comm, Nat.mul_add_mod, Nat.mod_eq_of_lt hlt, ih]

/-- Reading a list of bits (rules R122, R123). -/
theorem listReader_read_append (xs rest : List Bool) :
    listReader.read xs.length (xs ++ rest) = .ok (bitsToNat xs) rest := by
  simp [listReader]

theorem listReader_read_natToBits (w v : Nat) (rest : List Bool) :
    listReader.read w (natToBits w v ++ rest) = .ok (v % 2 ^ w) rest := by
  have h := listReader_read_append (natToBits w v) rest
  rwa [natToBits_length, bitsToNat_natToBits] at h

end Sys2Proof
end

