-- ==== Sys2Proof/Laws/Result.lean ====
section
/-! SUPPORT. The laws of `Res.bind` and of turning an operation's answer into an outcome. -/

namespace Sys2Proof

variable {ε σ α β γ : Type}

@[simp] theorem Res.bind_of_ok (a : α) (s : σ) (f : α → σ → Res ε σ β) : (Res.ok a s).bind f = f a s := rfl

@[simp] theorem Res.bind_of_stop (e : ε) (s : σ) (f : α → σ → Res ε σ β) :
    (Res.stop e s : Res ε σ α).bind f = .stop e s := rfl

/-- A bind that answers a value ran its first operation to a value. -/
theorem Res.bind_eq_ok {r : Res ε σ α} {f : α → σ → Res ε σ β} {b : β} {t : σ} (h : r.bind f = .ok b t) :
    ∃ a s, r = .ok a s ∧ f a s = .ok b t := by
  cases r with
  | ok a s => exact ⟨a, s, rfl, h⟩
  | stop e s => cases h

/-- A bind that stops stopped in its first operation or in its second. -/
theorem Res.bind_eq_stop {r : Res ε σ α} {f : α → σ → Res ε σ β} {e : ε} {t : σ} (h : r.bind f = .stop e t) :
    r = .stop e t ∨ ∃ a s, r = .ok a s ∧ f a s = .stop e t := by
  cases r with
  | ok a s => exact .inr ⟨a, s, rfl, h⟩
  | stop e' s => exact .inl (by simpa using h)

theorem Res.bind_assoc (r : Res ε σ α) (f : α → σ → Res ε σ β) (g : β → σ → Res ε σ γ) :
    (r.bind f).bind g = r.bind fun a s => (f a s).bind g := by
  cases r <;> rfl

namespace Machine

@[simp] theorem outcomeOf_ok (s : State) : outcomeOf (.ok () s) = .next s := rfl
@[simp] theorem outcomeOf_stop (e : Stop) (s : State) : outcomeOf (.stop e s) = stopOutcome e s := rfl
@[simp] theorem stopOutcome_raise (k : ErrKind) (s : State) : stopOutcome (.raise k) s = .next (s.enterFailed k) := rfl
@[simp] theorem stopOutcome_fault (f : Fault) (s : State) : stopOutcome (.fault f) s = .fault f := rfl
@[simp] theorem stopOutcome_refuse (r : Refusal) (s : State) : stopOutcome (.refuse r) s = .refused r := rfl

/-- The next state of an operation's outcome: the operation's own, or the entry to `Failed` of what it raised. -/
theorem outcomeOf_eq_next {r : Act Unit} {t : State} (h : outcomeOf r = .next t) :
    r = .ok () t ∨ ∃ k s, r = .stop (.raise k) s ∧ t = s.enterFailed k := by
  rcases r with ⟨⟨⟩, s⟩ | ⟨e, s⟩
  · left; simpa [outcomeOf] using h
  · right
    cases e with
    | raise k => exact ⟨k, s, rfl, by simpa [outcomeOf, stopOutcome] using h.symm⟩
    | fault f => cases h
    | refuse r => cases h

end Machine
end Sys2Proof
end

