-- ==== Sys2Proof/Laws/Decode.lean ====
section
/-! SUPPORT. The decoder does to the source only what reading bits does to it.

`Res.Rel` relates the answers of two sources; `decodeTokenWith_rel` says that two sources whose reads answer alike give
the same instruction (rule R144); `decodeTokenWith_keeps` that what every read keeps the decoder keeps. -/

namespace Sys2Proof

variable {ε ε' σ τ α β : Type}

/-- Two answers are alike: the same value, or stops that `E` relates, in states that `R` relates. -/
def Res.Rel (E : ε → ε' → Prop) (R : σ → τ → Prop) : Res ε σ α → Res ε' τ α → Prop
  | .ok a s, .ok b t => a = b ∧ R s t
  | .stop e s, .stop e' t => E e e' ∧ R s t
  | _, _ => False

theorem Res.Rel.bind {E : ε → ε' → Prop} {R : σ → τ → Prop} {x : Res ε σ α} {y : Res ε' τ α}
    {f : α → σ → Res ε σ β} {g : α → τ → Res ε' τ β} (h : Res.Rel E R x y)
    (hf : ∀ a s t, R s t → Res.Rel E R (f a s) (g a t)) : Res.Rel E R (x.bind f) (y.bind g) := by
  cases x <;> cases y
  · obtain ⟨rfl, h⟩ := h; exact hf _ _ _ h
  · exact h.elim
  · exact h.elim
  · exact h

section
variable {E : ε → ε' → Prop} {R : σ → τ → Prop} {rd : Reader ε σ} {rd' : Reader ε' τ}
  (hr : ∀ n s t, R s t → Res.Rel E R (rd.read n s) (rd'.read n t))
include hr

theorem extendPrefix_rel (want pfx len : Nat) {s : σ} {t : τ} (h : R s t) :
    Res.Rel E R (extendPrefix rd want pfx len s) (extendPrefix rd' want pfx len t) := by
  unfold extendPrefix
  split
  · exact (hr _ _ _ h).bind fun a s t h => ⟨rfl, h⟩
  · exact ⟨rfl, h⟩

theorem walk_rel (rows : List Token) (pfx len : Nat) {s : σ} {t : τ} (h : R s t) :
    Res.Rel E R (walk rd rows pfx len s) (walk rd' rows pfx len t) := by
  induction rows generalizing pfx len s t with
  | nil => exact ⟨rfl, h⟩
  | cons r rows ih =>
    unfold walk
    refine (extendPrefix_rel hr _ _ _ h).bind fun p s t h => ?_
    split
    · exact ⟨rfl, h⟩
    · exact ih _ _ h

theorem readUnary_rel (fuel extra : Nat) {s : σ} {t : τ} (h : R s t) :
    Res.Rel E R (readUnary rd fuel extra s) (readUnary rd' fuel extra t) := by
  induction fuel generalizing extra s t with
  | zero =>
    unfold readUnary
    refine (hr _ _ _ h).bind fun b s t h => ?_
    split
    · exact (hr _ _ _ h).bind fun w s t h => ⟨rfl, h⟩
    · exact ⟨rfl, h⟩
  | succ fuel ih =>
    unfold readUnary
    refine (hr _ _ _ h).bind fun b s t h => ?_
    split
    · exact (hr _ _ _ h).bind fun w s t h => ⟨rfl, h⟩
    · exact ih _ h

theorem readLength_rel {s : σ} {t : τ} (h : R s t) : Res.Rel E R (readLength rd s) (readLength rd' t) := by
  unfold readLength
  refine (hr _ _ _ h).bind fun b s t h => ?_
  split
  · exact ⟨rfl, h⟩
  · exact readUnary_rel hr _ _ h

theorem decodeMatch_rel (cfg : Config) {s : σ} {t : τ} (h : R s t) :
    Res.Rel E R (decodeMatch rd cfg s) (decodeMatch rd' cfg t) := by
  unfold decodeMatch
  refine (walk_rel hr _ _ _ h).bind fun r s t h => ?_
  cases r with
  | unmatched pfx len => exact ⟨rfl, h⟩
  | found e =>
    refine (hr _ _ _ h).bind fun x s t h => ?_
    split
    · exact (hr _ _ _ h).bind fun c s t h => ⟨rfl, h⟩
    · exact (readLength_rel hr h).bind fun len s t h => ⟨rfl, h⟩

/-- Sources that read alike decode alike (rule R144). -/
theorem decodeTokenWith_rel (cfg : Config) {s : σ} {t : τ} (h : R s t) :
    Res.Rel E R (decodeTokenWith rd cfg s) (decodeTokenWith rd' cfg t) := by
  unfold decodeTokenWith
  refine (hr _ _ _ h).bind fun b s t h => ?_
  split
  · exact (hr _ _ _ h).bind fun v s t h => ⟨rfl, h⟩
  · refine (hr _ _ _ h).bind fun b s t h => ?_
    split
    · exact decodeMatch_rel hr cfg h
    · unfold decodeLiteral
      refine (walk_rel hr _ _ _ h).bind fun r s t h => ?_
      cases r <;> exact ⟨rfl, h⟩
end

/-- `P` holds of the state an operation answers, whether it stops or not. -/
def Res.Keeps (P : σ → Prop) : Res ε σ α → Prop
  | .ok _ s => P s
  | .stop _ s => P s

/-- What every read keeps, decoding a token keeps. -/
theorem decodeTokenWith_keeps {rd : Reader ε σ} {P : σ → Prop} (hr : ∀ n s, P s → Res.Keeps P (rd.read n s))
    (cfg : Config) {s : σ} (h : P s) : Res.Keeps P (decodeTokenWith rd cfg s) := by
  have hrel := decodeTokenWith_rel (E := fun a b => a = b) (R := fun s t => s = t ∧ P s) (rd := rd) (rd' := rd)
    (by
      rintro n s t ⟨rfl, hs⟩
      have := hr n s hs
      revert this
      cases rd.read n s <;> intro hk <;> exact ⟨rfl, rfl, hk⟩)
    cfg (s := s) (t := s) ⟨rfl, h⟩
  revert hrel
  cases decodeTokenWith rd cfg s <;> intro hrel <;> exact hrel.2.2

/-! ### What the walk and the rows can answer, for any table -/

/-- The walk answers an entry of its table (rule R142). -/
theorem walk_found_mem {rd : Reader ε σ} {table : List Token} {pfx len : Nat} {s t : σ} {e : Token}
    (h : walk rd table pfx len s = .ok (.found e) t) : e ∈ table := by
  induction table generalizing pfx len s with
  | nil => cases h
  | cons e' rest ih =>
    unfold walk at h
    obtain ⟨p, u, _, hp⟩ := Res.bind_eq_ok h
    split at hp
    · cases hp; exact List.mem_cons_self
    · exact List.mem_cons_of_mem _ (ih hp)

/-- A literal entry is a row of the opcode table, or the form of its own (rule R110). -/
theorem literalForm_cases (e : Token) :
    (∃ i, (e, i) ∈ litRows ∧ literalForm e = .row i) ∨ ((∀ i, (e, i) ∉ litRows) ∧ literalForm e = .literal e) := by
  unfold literalForm
  cases h : litRows.find? fun r => r.1 == e with
  | some r =>
    have he := List.find?_some h
    simp only [beq_iff_eq] at he
    exact .inl ⟨r.2, he ▸ List.mem_of_find?_eq_some h, rfl⟩
  | none => exact .inr ⟨fun i hi => by simpa using List.find?_eq_none.mp h _ hi, rfl⟩

/-- A match entry is a row of the opcode table, or the form of its own (rule R110). -/
theorem matchForm_cases (e : Token) (x : Nat) (len : LengthCode) :
    (∃ build, (e, build) ∈ matchRows ∧ matchForm e x len = .row (build x len)) ∨
      ((∀ build, (e, build) ∉ matchRows) ∧ matchForm e x len = .copy e x len) := by
  unfold matchForm
  cases h : matchRows.find? fun r => r.1 == e with
  | some r =>
    have he := List.find?_some h
    simp only [beq_iff_eq] at he
    exact .inl ⟨r.2, he ▸ List.mem_of_find?_eq_some h, rfl⟩
  | none => exact .inr ⟨fun i hi => by simpa using List.find?_eq_none.mp h _ hi, rfl⟩

/-- An entry of distance 0 selects `UNENC`, or the run of its own (rule R110). -/
theorem runForm_cases (e : Token) (c : Nat) :
    (refMatchTable.head? = some e ∧ runForm e c = .row (.unenc (BitVec.ofNat 15 c))) ∨
      (refMatchTable.head? ≠ some e ∧ runForm e c = .run e (BitVec.ofNat 15 c)) := by
  unfold runForm
  by_cases h : refMatchTable.head? = some e
  · exact .inl ⟨h, if_pos h⟩
  · exact .inr ⟨h, if_neg h⟩

/-- Bits that no entry matches are an `ILLEGAL` row or the form of their own (rules R143, R194, R195). -/
theorem unmatchedForm_cases (t : TableSel) (p n : Nat) :
    (t = .matchTable ∧ n = 9 ∧ p = 0b101111111 ∧ unmatchedForm t p n = .row .illegal101111111) ∨
      (t = .matchTable ∧ n = 9 ∧ p / 16 = 0b10000 ∧
        unmatchedForm t p n = .row (.illegal10000 (BitVec.ofNat 4 p))) ∨
      unmatchedForm t p n = .unmatched t p n := by
  unfold unmatchedForm
  by_cases h1 : t = .matchTable ∧ n = 9 ∧ p = 0b101111111
  · exact .inl ⟨h1.1, h1.2.1, h1.2.2, if_pos h1⟩
  rw [if_neg h1]
  by_cases h2 : t = .matchTable ∧ n = 9 ∧ p / 16 = 0b10000
  · exact .inr (.inl ⟨h2.1, h2.2.1, h2.2.2, if_pos h2⟩)
  · exact .inr (.inr (if_neg h2))

/-! ### Tables -/

/-- The default tables are tables of this hardware (rules R7, R148). -/
theorem reference_tablesLegal : Config.reference.tablesLegal = true := by decide

/-- The widths that rule R25 gives at the reference tables. -/
theorem reference_prefixWidth : Config.reference.prefixWidth = 9 := by decide
theorem reference_maxDistance : Config.reference.maxDistance = 33871519 := by decide

/-- Legal tables have no entry in common (rule R7). -/
theorem tables_disjoint {cfg : Config} (h : cfg.tablesLegal = true) {e : Token} (hl : e ∈ cfg.litTable) :
    e ∉ cfg.matchTable := by
  intro hm
  simp only [Config.tablesLegal, litTableLegal, matchTableLegal, Token.prefixLegal, Bool.and_eq_true, List.all_eq_true,
    decide_eq_true_eq] at h
  have h1 := (h.1.1 e hl).1.1.2
  have h2 := (h.2.1 e hm).1.2
  omega

end Sys2Proof
end

