-- ==== Sys2Proof/Laws/Memory.lean ====
section
/-! SUPPORT. The laws of memory: read after write, and the canonical form that every write keeps. -/

namespace Sys2Proof.Machine

/-- The byte a list of cells holds for address `x`. -/
theorem find_cell_cons (x : Nat) (c : Host.Cell) (cs : List Host.Cell) :
    ((c :: cs).find? fun c => c.1 == x).map Prod.snd =
      if x = c.1 then some c.2 else (cs.find? fun c => c.1 == x).map Prod.snd := by
  by_cases h : x = c.1
  · rw [if_pos h, List.find?_cons_of_pos (by simp [h])]; rfl
  · rw [if_neg h, List.find?_cons_of_neg (by simpa using Ne.symm h)]

/-- What an inserted cell changes: the byte at its own address. -/
theorem find_insertCell (a x : Nat) (b : Byte) (cs : List Host.Cell) :
    ((insertCell a b cs).find? fun c => c.1 == x).map Prod.snd =
      if x = a then some b else (cs.find? fun c => c.1 == x).map Prod.snd := by
  induction cs with
  | nil => rw [insertCell, find_cell_cons]
  | cons c cs ih =>
    unfold insertCell
    split
    · rw [find_cell_cons]
    · split
      · rename_i hac
        rw [find_cell_cons, find_cell_cons, ← hac]
        split <;> rfl
      · rename_i hac
        rw [find_cell_cons, find_cell_cons, ih]
        by_cases h : x = a
        · subst h; simp [hac]
        · simp [h]

/-- What erasing changes: nothing is listed at the address any more. -/
theorem find_eraseCell (a x : Nat) (cs : List Host.Cell) :
    ((eraseCell a cs).find? fun c => c.1 == x).map Prod.snd =
      if x = a then none else (cs.find? fun c => c.1 == x).map Prod.snd := by
  induction cs with
  | nil => simp [eraseCell]
  | cons c cs ih =>
    unfold eraseCell at ih ⊢
    by_cases h : c.1 = a
    · rw [List.filter_cons_of_neg (by simp [h]), ih, find_cell_cons]
      by_cases hx : x = a
      · simp [hx]
      · simp [hx, h]
    · rw [List.filter_cons_of_pos (by simp [h]), find_cell_cons, ih, find_cell_cons]
      by_cases hx : x = a
      · subst hx; simp [Ne.symm h]
      · simp [hx]

/-- What is listed after a write. -/
theorem Memory.get?_write (m : Memory) (u : Unlisted) (a x : Nat) (b : Byte) :
    (m.write u a b).get? x = if x = a then (if u a = some b then none else some b) else m.get? x := by
  unfold Memory.write Memory.get?
  by_cases h : u a = some b
  · rw [if_pos h, if_pos h]; exact find_eraseCell a x m.cells
  · rw [if_neg h, if_neg h]; exact find_insertCell a x b m.cells

/-- Read after write, in a memory whose unlisted addresses hold no byte. -/
theorem Memory.get?_write_noByte (m : Memory) (a x : Nat) (b : Byte) :
    (m.write noByte a b).get? x = if x = a then some b else m.get? x := by
  rw [Memory.get?_write]; simp [noByte]

/-- Read after write, in a memory whose unlisted addresses read as `HIST_INIT`. -/
theorem Memory.getD_write_initBytes (m : Memory) (h : HistInit) (a x : Nat) (b : Byte) :
    ((m.write (initBytes h) a b).get? x).getD (initByte h x) = if x = a then b else (m.get? x).getD (initByte h x) := by
  rw [Memory.get?_write]
  by_cases hx : x = a
  · subst hx
    simp only [initBytes, if_true]
    by_cases hb : initByte h x = b
    · simp [hb]
    · simp [hb]
  · simp [hx]

/-- What `ring_write_byte` changes in the ring: the byte at the write index (rules R61, R200). -/
theorem State.histByte_ringWriteByte (s : State) (b : Byte) (a : Nat) :
    (s.ringWriteByte b).histByte a =
      if a % s.cfg.histCap = s.histIdx % s.cfg.histCap then b else s.histByte a :=
  Memory.getD_write_initBytes s.hist s.cfg.histInit _ _ b

/-- An address of the list after an insertion is the new one or an old one. -/
theorem mem_insertCell {a y : Nat} {b : Byte} {cs : List Host.Cell}
    (h : y ∈ (insertCell a b cs).map Prod.fst) : y = a ∨ y ∈ cs.map Prod.fst := by
  induction cs with
  | nil => simpa [insertCell] using h
  | cons c cs ih =>
    unfold insertCell at h
    split at h
    · simpa using h
    · split at h
      · simp only [List.map_cons, List.mem_cons] at h ⊢; tauto
      · simp only [List.map_cons, List.mem_cons] at h ⊢
        rcases h with h | h
        · exact .inr (.inl h)
        · rcases ih h with h | h
          · exact .inl h
          · exact .inr (.inr h)

theorem pairwise_insertCell {a : Nat} {b : Byte} {cs : List Host.Cell}
    (h : (cs.map Prod.fst).Pairwise (· < ·)) : ((insertCell a b cs).map Prod.fst).Pairwise (· < ·) := by
  induction cs with
  | nil => simp [insertCell]
  | cons c cs ih =>
    simp only [List.map_cons, List.pairwise_cons] at h
    unfold insertCell
    split
    · rename_i hac
      simp only [List.map_cons, List.pairwise_cons, List.mem_cons]
      refine ⟨?_, h.1, h.2⟩
      rintro y (rfl | hy)
      · exact hac
      · exact hac.trans (h.1 y hy)
    · split
      · rename_i hac
        simp only [List.map_cons, List.pairwise_cons]
        exact ⟨fun y hy => hac ▸ h.1 y hy, h.2⟩
      · rename_i h1 h2
        simp only [List.map_cons, List.pairwise_cons]
        refine ⟨fun y hy => ?_, ih h.2⟩
        rcases mem_insertCell hy with rfl | hy
        · omega
        · exact h.1 y hy

theorem mem_insertCell_cells {a : Nat} {b : Byte} {cs : List Host.Cell} {c : Host.Cell}
    (h : c ∈ insertCell a b cs) : c = (a, b) ∨ c ∈ cs := by
  induction cs with
  | nil => simpa [insertCell] using h
  | cons d cs ih =>
    unfold insertCell at h
    split at h
    · simpa using h
    · split at h
      · rcases List.mem_cons.mp h with h | h
        · exact .inl h
        · exact .inr (List.mem_cons_of_mem _ h)
      · rcases List.mem_cons.mp h with h | h
        · exact .inr (h ▸ List.mem_cons_self)
        · exact (ih h).imp_right (List.mem_cons_of_mem _)

/-- A listed cell after a write is the written one or an old one. -/
theorem Memory.mem_write {m : Memory} {u : Unlisted} {a : Nat} {b : Byte} {c : Host.Cell}
    (h : c ∈ (m.write u a b).cells) : c = (a, b) ∨ c ∈ m.cells := by
  unfold Memory.write at h
  split at h
  · exact .inr (List.mem_of_mem_filter h)
  · exact mem_insertCell_cells h

/-- Every write keeps the canonical form. -/
theorem Memory.wf_write {m : Memory} {u : Unlisted} (a : Nat) (b : Byte) (h : m.wf u = true) :
    (m.write u a b).wf u = true := by
  simp only [Memory.wf, Bool.and_eq_true, decide_eq_true_eq, List.all_eq_true] at h ⊢
  constructor
  · unfold Memory.write
    split
    · exact h.1.sublist ((List.filter_sublist).map _)
    · exact pairwise_insertCell h.1
  · intro c hc
    unfold Memory.write at hc
    split at hc
    · exact h.2 c (List.mem_of_mem_filter hc)
    · rcases mem_insertCell_cells hc with rfl | hc
      · assumption
      · exact h.2 c hc

theorem Memory.wf_writeList {m : Memory} {u : Unlisted} (a : Nat) (bs : List Byte) (h : m.wf u = true) :
    (m.writeList u a bs).wf u = true := by
  induction bs generalizing m a with
  | nil => exact h
  | cons b bs ih => exact ih _ (Memory.wf_write a b h)

/-- What is read of `OUT` after a byte string has been written. -/
theorem Memory.get?_writeList (m : Memory) (a x : Nat) (bs : List Byte) :
    (m.writeList noByte a bs).get? x = if a ≤ x ∧ x < a + bs.length then bs[x - a]? else m.get? x := by
  induction bs generalizing m a with
  | nil =>
    rw [Memory.writeList, if_neg]
    simp only [List.length_nil]; omega
  | cons b bs ih =>
    rw [Memory.writeList, ih, Memory.get?_write_noByte]
    by_cases h : x = a
    · subst h; simp
    · by_cases h1 : a + 1 ≤ x ∧ x < a + 1 + bs.length
      · have h2 : a ≤ x ∧ x < a + (b :: bs).length := by simp only [List.length_cons]; omega
        rw [if_pos h1, if_pos h2]
        have : x - a = (x - (a + 1)) + 1 := by omega
        rw [this, List.getElem?_cons_succ]
      · have h2 : ¬(a ≤ x ∧ x < a + (b :: bs).length) := by simp only [List.length_cons]; omega
        rw [if_neg h1, if_neg h2, if_neg h]

/-- The ring's memory keeps its form under `ring_write_byte` and `ring_write` (rules R200, R201). -/
theorem State.ringWriteByte_wf {s : State} (b : Byte) (h : s.hist.wf (initBytes s.cfg.histInit) = true) :
    (s.ringWriteByte b).hist.wf (initBytes s.cfg.histInit) = true :=
  Memory.wf_write _ b h

theorem State.ringWrite_wf {s : State} (bs : List Byte) (h : s.hist.wf (initBytes s.cfg.histInit) = true) :
    (s.ringWrite bs).hist.wf (initBytes s.cfg.histInit) = true := by
  induction bs generalizing s with
  | nil => exact h
  | cons b bs ih => exact ih (s := s.ringWriteByte b) (State.ringWriteByte_wf b h)

/-- The output buffer keeps its form under `emit`'s write (rule R208). -/
theorem State.writeOut_wf {s : State} (bs : List Byte) (h : s.out.wf noByte = true) :
    (s.out.writeList noByte s.outCnt bs).wf noByte = true :=
  Memory.wf_writeList _ bs h

theorem State.reset_hist_wf (cfg : Config) : (State.resetWith cfg).hist.wf (initBytes cfg.histInit) = true := rfl

theorem State.reset_out_wf (cfg : Config) : (State.resetWith cfg).out.wf noByte = true := rfl

end Sys2Proof.Machine
end

