-- ==== Sys2Proof/Laws/State.lean ====
section
/-! SUPPORT. The state record: what each update leaves in each field. Every lemma of the first part is true by `rfl`;
the second part says the same of `ring_write` and of the writes of `emit`, whose other fields stay. -/

namespace Sys2Proof.Machine

variable (s : State)

/-! ### `pushByte` -/

@[simp] theorem State.pushByte_cfg (b : Byte) : (s.pushByte b).cfg = s.cfg := rfl
@[simp] theorem State.pushByte_hist (b : Byte) : (s.pushByte b).hist = s.hist := rfl
@[simp] theorem State.pushByte_histIdx (b : Byte) : (s.pushByte b).histIdx = s.histIdx := rfl
@[simp] theorem State.pushByte_out (b : Byte) : (s.pushByte b).out = s.out := rfl
@[simp] theorem State.pushByte_outCnt (b : Byte) : (s.pushByte b).outCnt = s.outCnt := rfl
@[simp] theorem State.pushByte_inBytes (b : Byte) : (s.pushByte b).inBytes = s.inBytes := rfl
@[simp] theorem State.pushByte_inLen (b : Byte) : (s.pushByte b).inLen = s.inLen := rfl
@[simp] theorem State.pushByte_byteCur (b : Byte) : (s.pushByte b).byteCur = s.byteCur + 1 := rfl
@[simp] theorem State.pushByte_acc (b : Byte) : (s.pushByte b).acc = (s.acc <<< 8) ||| b.zeroExtend 32 := rfl
@[simp] theorem State.pushByte_accCnt (b : Byte) : (s.pushByte b).accCnt = s.accCnt + 8 := rfl
@[simp] theorem State.pushByte_bitsRem (b : Byte) : (s.pushByte b).bitsRem = s.bitsRem := rfl
@[simp] theorem State.pushByte_state (b : Byte) : (s.pushByte b).state = s.state := rfl
@[simp] theorem State.pushByte_err (b : Byte) : (s.pushByte b).err = s.err := rfl
@[simp] theorem State.pushByte_ctrl (b : Byte) : (s.pushByte b).ctrl = s.ctrl := rfl
@[simp] theorem State.pushByte_pad (b : Byte) : (s.pushByte b).pad = s.pad := rfl
@[simp] theorem State.pushByte_tblSel (b : Byte) : (s.pushByte b).tblSel = s.tblSel := rfl
@[simp] theorem State.pushByte_pfx (b : Byte) : (s.pushByte b).pfx = s.pfx := rfl
@[simp] theorem State.pushByte_pfxLen (b : Byte) : (s.pushByte b).pfxLen = s.pfxLen := rfl
@[simp] theorem State.pushByte_dist (b : Byte) : (s.pushByte b).dist = s.dist := rfl
@[simp] theorem State.pushByte_len (b : Byte) : (s.pushByte b).len = s.len := rfl
@[simp] theorem State.pushByte_extra (b : Byte) : (s.pushByte b).extra = s.extra := rfl
@[simp] theorem State.pushByte_count (b : Byte) : (s.pushByte b).count = s.count := rfl
@[simp] theorem State.pushByte_calls (b : Byte) : (s.pushByte b).calls = s.calls := rfl
@[simp] theorem State.pushByte_presented (b : Byte) : (s.pushByte b).presented = s.presented := rfl
@[simp] theorem State.pushByte_phase (b : Byte) : (s.pushByte b).phase = s.phase := rfl
@[simp] theorem State.pushByte_input (b : Byte) : (s.pushByte b).input = s.input := rfl
@[simp] theorem State.pushByte_offset (b : Byte) : (s.pushByte b).offset = s.offset := rfl
@[simp] theorem State.pushByte_cursor (b : Byte) : (s.pushByte b).cursor = s.cursor := rfl
@[simp] theorem State.pushByte_segmentCount (b : Byte) : (s.pushByte b).segmentCount = s.segmentCount := rfl
@[simp] theorem State.pushByte_segIndex (b : Byte) : (s.pushByte b).segIndex = s.segIndex := rfl
@[simp] theorem State.pushByte_uncompressedSize (b : Byte) : (s.pushByte b).uncompressedSize = s.uncompressedSize := rfl
@[simp] theorem State.pushByte_segmentSize (b : Byte) : (s.pushByte b).segmentSize = s.segmentSize := rfl
@[simp] theorem State.pushByte_total (b : Byte) : (s.pushByte b).total = s.total := rfl
@[simp] theorem State.pushByte_result (b : Byte) : (s.pushByte b).result = s.result := rfl
@[simp] theorem State.pushByte_ret (b : Byte) : (s.pushByte b).ret = s.ret := rfl

/-! ### `dropBits` -/

@[simp] theorem State.dropBits_cfg (n : Nat) : (s.dropBits n).cfg = s.cfg := rfl
@[simp] theorem State.dropBits_hist (n : Nat) : (s.dropBits n).hist = s.hist := rfl
@[simp] theorem State.dropBits_histIdx (n : Nat) : (s.dropBits n).histIdx = s.histIdx := rfl
@[simp] theorem State.dropBits_out (n : Nat) : (s.dropBits n).out = s.out := rfl
@[simp] theorem State.dropBits_outCnt (n : Nat) : (s.dropBits n).outCnt = s.outCnt := rfl
@[simp] theorem State.dropBits_inBytes (n : Nat) : (s.dropBits n).inBytes = s.inBytes := rfl
@[simp] theorem State.dropBits_inLen (n : Nat) : (s.dropBits n).inLen = s.inLen := rfl
@[simp] theorem State.dropBits_byteCur (n : Nat) : (s.dropBits n).byteCur = s.byteCur := rfl
@[simp] theorem State.dropBits_acc (n : Nat) : (s.dropBits n).acc = s.acc &&& BitVec.ofNat 32 (2 ^ (s.accCnt - n) - 1) := rfl
@[simp] theorem State.dropBits_accCnt (n : Nat) : (s.dropBits n).accCnt = s.accCnt - n := rfl
@[simp] theorem State.dropBits_bitsRem (n : Nat) : (s.dropBits n).bitsRem = s.bitsRem - n := rfl
@[simp] theorem State.dropBits_state (n : Nat) : (s.dropBits n).state = s.state := rfl
@[simp] theorem State.dropBits_err (n : Nat) : (s.dropBits n).err = s.err := rfl
@[simp] theorem State.dropBits_ctrl (n : Nat) : (s.dropBits n).ctrl = s.ctrl := rfl
@[simp] theorem State.dropBits_pad (n : Nat) : (s.dropBits n).pad = s.pad := rfl
@[simp] theorem State.dropBits_tblSel (n : Nat) : (s.dropBits n).tblSel = s.tblSel := rfl
@[simp] theorem State.dropBits_pfx (n : Nat) : (s.dropBits n).pfx = s.pfx := rfl
@[simp] theorem State.dropBits_pfxLen (n : Nat) : (s.dropBits n).pfxLen = s.pfxLen := rfl
@[simp] theorem State.dropBits_dist (n : Nat) : (s.dropBits n).dist = s.dist := rfl
@[simp] theorem State.dropBits_len (n : Nat) : (s.dropBits n).len = s.len := rfl
@[simp] theorem State.dropBits_extra (n : Nat) : (s.dropBits n).extra = s.extra := rfl
@[simp] theorem State.dropBits_count (n : Nat) : (s.dropBits n).count = s.count := rfl
@[simp] theorem State.dropBits_calls (n : Nat) : (s.dropBits n).calls = s.calls := rfl
@[simp] theorem State.dropBits_presented (n : Nat) : (s.dropBits n).presented = s.presented := rfl
@[simp] theorem State.dropBits_phase (n : Nat) : (s.dropBits n).phase = s.phase := rfl
@[simp] theorem State.dropBits_input (n : Nat) : (s.dropBits n).input = s.input := rfl
@[simp] theorem State.dropBits_offset (n : Nat) : (s.dropBits n).offset = s.offset := rfl
@[simp] theorem State.dropBits_cursor (n : Nat) : (s.dropBits n).cursor = s.cursor := rfl
@[simp] theorem State.dropBits_segmentCount (n : Nat) : (s.dropBits n).segmentCount = s.segmentCount := rfl
@[simp] theorem State.dropBits_segIndex (n : Nat) : (s.dropBits n).segIndex = s.segIndex := rfl
@[simp] theorem State.dropBits_uncompressedSize (n : Nat) : (s.dropBits n).uncompressedSize = s.uncompressedSize := rfl
@[simp] theorem State.dropBits_segmentSize (n : Nat) : (s.dropBits n).segmentSize = s.segmentSize := rfl
@[simp] theorem State.dropBits_total (n : Nat) : (s.dropBits n).total = s.total := rfl
@[simp] theorem State.dropBits_result (n : Nat) : (s.dropBits n).result = s.result := rfl
@[simp] theorem State.dropBits_ret (n : Nat) : (s.dropBits n).ret = s.ret := rfl

/-! ### `realign` -/

@[simp] theorem State.realign_cfg : (s.realign).cfg = s.cfg := rfl
@[simp] theorem State.realign_hist : (s.realign).hist = s.hist := rfl
@[simp] theorem State.realign_histIdx : (s.realign).histIdx = s.histIdx := rfl
@[simp] theorem State.realign_out : (s.realign).out = s.out := rfl
@[simp] theorem State.realign_outCnt : (s.realign).outCnt = s.outCnt := rfl
@[simp] theorem State.realign_inBytes : (s.realign).inBytes = s.inBytes := rfl
@[simp] theorem State.realign_inLen : (s.realign).inLen = s.inLen := rfl
@[simp] theorem State.realign_byteCur : (s.realign).byteCur = s.byteCur := rfl
@[simp] theorem State.realign_acc : (s.realign).acc = 0 := rfl
@[simp] theorem State.realign_accCnt : (s.realign).accCnt = 0 := rfl
@[simp] theorem State.realign_bitsRem : (s.realign).bitsRem = s.bitsRem - min s.accCnt s.bitsRem := rfl
@[simp] theorem State.realign_state : (s.realign).state = s.state := rfl
@[simp] theorem State.realign_err : (s.realign).err = s.err := rfl
@[simp] theorem State.realign_ctrl : (s.realign).ctrl = s.ctrl := rfl
@[simp] theorem State.realign_pad : (s.realign).pad = s.pad := rfl
@[simp] theorem State.realign_tblSel : (s.realign).tblSel = s.tblSel := rfl
@[simp] theorem State.realign_pfx : (s.realign).pfx = s.pfx := rfl
@[simp] theorem State.realign_pfxLen : (s.realign).pfxLen = s.pfxLen := rfl
@[simp] theorem State.realign_dist : (s.realign).dist = s.dist := rfl
@[simp] theorem State.realign_len : (s.realign).len = s.len := rfl
@[simp] theorem State.realign_extra : (s.realign).extra = s.extra := rfl
@[simp] theorem State.realign_count : (s.realign).count = s.count := rfl
@[simp] theorem State.realign_calls : (s.realign).calls = s.calls := rfl
@[simp] theorem State.realign_presented : (s.realign).presented = s.presented := rfl
@[simp] theorem State.realign_phase : (s.realign).phase = s.phase := rfl
@[simp] theorem State.realign_input : (s.realign).input = s.input := rfl
@[simp] theorem State.realign_offset : (s.realign).offset = s.offset := rfl
@[simp] theorem State.realign_cursor : (s.realign).cursor = s.cursor := rfl
@[simp] theorem State.realign_segmentCount : (s.realign).segmentCount = s.segmentCount := rfl
@[simp] theorem State.realign_segIndex : (s.realign).segIndex = s.segIndex := rfl
@[simp] theorem State.realign_uncompressedSize : (s.realign).uncompressedSize = s.uncompressedSize := rfl
@[simp] theorem State.realign_segmentSize : (s.realign).segmentSize = s.segmentSize := rfl
@[simp] theorem State.realign_total : (s.realign).total = s.total := rfl
@[simp] theorem State.realign_result : (s.realign).result = s.result := rfl
@[simp] theorem State.realign_ret : (s.realign).ret = s.ret := rfl

/-! ### `initReader` -/

@[simp] theorem State.initReader_cfg (bytes : List Byte) (n : Nat) : (s.initReader bytes n).cfg = s.cfg := rfl
@[simp] theorem State.initReader_hist (bytes : List Byte) (n : Nat) : (s.initReader bytes n).hist = s.hist := rfl
@[simp] theorem State.initReader_histIdx (bytes : List Byte) (n : Nat) : (s.initReader bytes n).histIdx = s.histIdx := rfl
@[simp] theorem State.initReader_out (bytes : List Byte) (n : Nat) : (s.initReader bytes n).out = s.out := rfl
@[simp] theorem State.initReader_outCnt (bytes : List Byte) (n : Nat) : (s.initReader bytes n).outCnt = s.outCnt := rfl
@[simp] theorem State.initReader_inBytes (bytes : List Byte) (n : Nat) : (s.initReader bytes n).inBytes = bytes := rfl
@[simp] theorem State.initReader_inLen (bytes : List Byte) (n : Nat) : (s.initReader bytes n).inLen = bytes.length := rfl
@[simp] theorem State.initReader_byteCur (bytes : List Byte) (n : Nat) : (s.initReader bytes n).byteCur = 0 := rfl
@[simp] theorem State.initReader_acc (bytes : List Byte) (n : Nat) : (s.initReader bytes n).acc = 0 := rfl
@[simp] theorem State.initReader_accCnt (bytes : List Byte) (n : Nat) : (s.initReader bytes n).accCnt = 0 := rfl
@[simp] theorem State.initReader_bitsRem (bytes : List Byte) (n : Nat) : (s.initReader bytes n).bitsRem = n := rfl
@[simp] theorem State.initReader_state (bytes : List Byte) (n : Nat) : (s.initReader bytes n).state = s.state := rfl
@[simp] theorem State.initReader_err (bytes : List Byte) (n : Nat) : (s.initReader bytes n).err = s.err := rfl
@[simp] theorem State.initReader_ctrl (bytes : List Byte) (n : Nat) : (s.initReader bytes n).ctrl = s.ctrl := rfl
@[simp] theorem State.initReader_pad (bytes : List Byte) (n : Nat) : (s.initReader bytes n).pad = s.pad := rfl
@[simp] theorem State.initReader_tblSel (bytes : List Byte) (n : Nat) : (s.initReader bytes n).tblSel = s.tblSel := rfl
@[simp] theorem State.initReader_pfx (bytes : List Byte) (n : Nat) : (s.initReader bytes n).pfx = s.pfx := rfl
@[simp] theorem State.initReader_pfxLen (bytes : List Byte) (n : Nat) : (s.initReader bytes n).pfxLen = s.pfxLen := rfl
@[simp] theorem State.initReader_dist (bytes : List Byte) (n : Nat) : (s.initReader bytes n).dist = s.dist := rfl
@[simp] theorem State.initReader_len (bytes : List Byte) (n : Nat) : (s.initReader bytes n).len = s.len := rfl
@[simp] theorem State.initReader_extra (bytes : List Byte) (n : Nat) : (s.initReader bytes n).extra = s.extra := rfl
@[simp] theorem State.initReader_count (bytes : List Byte) (n : Nat) : (s.initReader bytes n).count = s.count := rfl
@[simp] theorem State.initReader_calls (bytes : List Byte) (n : Nat) : (s.initReader bytes n).calls = s.calls := rfl
@[simp] theorem State.initReader_presented (bytes : List Byte) (n : Nat) : (s.initReader bytes n).presented = s.presented := rfl
@[simp] theorem State.initReader_phase (bytes : List Byte) (n : Nat) : (s.initReader bytes n).phase = s.phase := rfl
@[simp] theorem State.initReader_input (bytes : List Byte) (n : Nat) : (s.initReader bytes n).input = s.input := rfl
@[simp] theorem State.initReader_offset (bytes : List Byte) (n : Nat) : (s.initReader bytes n).offset = s.offset := rfl
@[simp] theorem State.initReader_cursor (bytes : List Byte) (n : Nat) : (s.initReader bytes n).cursor = s.cursor := rfl
@[simp] theorem State.initReader_segmentCount (bytes : List Byte) (n : Nat) : (s.initReader bytes n).segmentCount = s.segmentCount := rfl
@[simp] theorem State.initReader_segIndex (bytes : List Byte) (n : Nat) : (s.initReader bytes n).segIndex = s.segIndex := rfl
@[simp] theorem State.initReader_uncompressedSize (bytes : List Byte) (n : Nat) : (s.initReader bytes n).uncompressedSize = s.uncompressedSize := rfl
@[simp] theorem State.initReader_segmentSize (bytes : List Byte) (n : Nat) : (s.initReader bytes n).segmentSize = s.segmentSize := rfl
@[simp] theorem State.initReader_total (bytes : List Byte) (n : Nat) : (s.initReader bytes n).total = s.total := rfl
@[simp] theorem State.initReader_result (bytes : List Byte) (n : Nat) : (s.initReader bytes n).result = s.result := rfl
@[simp] theorem State.initReader_ret (bytes : List Byte) (n : Nat) : (s.initReader bytes n).ret = s.ret := rfl

/-! ### `ringWriteByte` -/

@[simp] theorem State.ringWriteByte_cfg (b : Byte) : (s.ringWriteByte b).cfg = s.cfg := rfl
@[simp] theorem State.ringWriteByte_hist (b : Byte) : (s.ringWriteByte b).hist = 
      s.hist.write (initBytes s.cfg.histInit) (s.histIdx % s.cfg.histCap) b := rfl
@[simp] theorem State.ringWriteByte_histIdx (b : Byte) : (s.ringWriteByte b).histIdx = (s.histIdx + 1) % s.cfg.histCap := rfl
@[simp] theorem State.ringWriteByte_out (b : Byte) : (s.ringWriteByte b).out = s.out := rfl
@[simp] theorem State.ringWriteByte_outCnt (b : Byte) : (s.ringWriteByte b).outCnt = s.outCnt := rfl
@[simp] theorem State.ringWriteByte_inBytes (b : Byte) : (s.ringWriteByte b).inBytes = s.inBytes := rfl
@[simp] theorem State.ringWriteByte_inLen (b : Byte) : (s.ringWriteByte b).inLen = s.inLen := rfl
@[simp] theorem State.ringWriteByte_byteCur (b : Byte) : (s.ringWriteByte b).byteCur = s.byteCur := rfl
@[simp] theorem State.ringWriteByte_acc (b : Byte) : (s.ringWriteByte b).acc = s.acc := rfl
@[simp] theorem State.ringWriteByte_accCnt (b : Byte) : (s.ringWriteByte b).accCnt = s.accCnt := rfl
@[simp] theorem State.ringWriteByte_bitsRem (b : Byte) : (s.ringWriteByte b).bitsRem = s.bitsRem := rfl
@[simp] theorem State.ringWriteByte_state (b : Byte) : (s.ringWriteByte b).state = s.state := rfl
@[simp] theorem State.ringWriteByte_err (b : Byte) : (s.ringWriteByte b).err = s.err := rfl
@[simp] theorem State.ringWriteByte_ctrl (b : Byte) : (s.ringWriteByte b).ctrl = s.ctrl := rfl
@[simp] theorem State.ringWriteByte_pad (b : Byte) : (s.ringWriteByte b).pad = s.pad := rfl
@[simp] theorem State.ringWriteByte_tblSel (b : Byte) : (s.ringWriteByte b).tblSel = s.tblSel := rfl
@[simp] theorem State.ringWriteByte_pfx (b : Byte) : (s.ringWriteByte b).pfx = s.pfx := rfl
@[simp] theorem State.ringWriteByte_pfxLen (b : Byte) : (s.ringWriteByte b).pfxLen = s.pfxLen := rfl
@[simp] theorem State.ringWriteByte_dist (b : Byte) : (s.ringWriteByte b).dist = s.dist := rfl
@[simp] theorem State.ringWriteByte_len (b : Byte) : (s.ringWriteByte b).len = s.len := rfl
@[simp] theorem State.ringWriteByte_extra (b : Byte) : (s.ringWriteByte b).extra = s.extra := rfl
@[simp] theorem State.ringWriteByte_count (b : Byte) : (s.ringWriteByte b).count = s.count := rfl
@[simp] theorem State.ringWriteByte_calls (b : Byte) : (s.ringWriteByte b).calls = s.calls := rfl
@[simp] theorem State.ringWriteByte_presented (b : Byte) : (s.ringWriteByte b).presented = s.presented := rfl
@[simp] theorem State.ringWriteByte_phase (b : Byte) : (s.ringWriteByte b).phase = s.phase := rfl
@[simp] theorem State.ringWriteByte_input (b : Byte) : (s.ringWriteByte b).input = s.input := rfl
@[simp] theorem State.ringWriteByte_offset (b : Byte) : (s.ringWriteByte b).offset = s.offset := rfl
@[simp] theorem State.ringWriteByte_cursor (b : Byte) : (s.ringWriteByte b).cursor = s.cursor := rfl
@[simp] theorem State.ringWriteByte_segmentCount (b : Byte) : (s.ringWriteByte b).segmentCount = s.segmentCount := rfl
@[simp] theorem State.ringWriteByte_segIndex (b : Byte) : (s.ringWriteByte b).segIndex = s.segIndex := rfl
@[simp] theorem State.ringWriteByte_uncompressedSize (b : Byte) : (s.ringWriteByte b).uncompressedSize = s.uncompressedSize := rfl
@[simp] theorem State.ringWriteByte_segmentSize (b : Byte) : (s.ringWriteByte b).segmentSize = s.segmentSize := rfl
@[simp] theorem State.ringWriteByte_total (b : Byte) : (s.ringWriteByte b).total = s.total := rfl
@[simp] theorem State.ringWriteByte_result (b : Byte) : (s.ringWriteByte b).result = s.result := rfl
@[simp] theorem State.ringWriteByte_ret (b : Byte) : (s.ringWriteByte b).ret = s.ret := rfl

/-! ### `loopTest` -/

@[simp] theorem State.loopTest_cfg : (s.loopTest).cfg = s.cfg := rfl
@[simp] theorem State.loopTest_hist : (s.loopTest).hist = s.hist := rfl
@[simp] theorem State.loopTest_histIdx : (s.loopTest).histIdx = s.histIdx := rfl
@[simp] theorem State.loopTest_out : (s.loopTest).out = s.out := rfl
@[simp] theorem State.loopTest_outCnt : (s.loopTest).outCnt = s.outCnt := rfl
@[simp] theorem State.loopTest_inBytes : (s.loopTest).inBytes = s.inBytes := rfl
@[simp] theorem State.loopTest_inLen : (s.loopTest).inLen = s.inLen := rfl
@[simp] theorem State.loopTest_byteCur : (s.loopTest).byteCur = s.byteCur := rfl
@[simp] theorem State.loopTest_acc : (s.loopTest).acc = s.acc := rfl
@[simp] theorem State.loopTest_accCnt : (s.loopTest).accCnt = s.accCnt := rfl
@[simp] theorem State.loopTest_bitsRem : (s.loopTest).bitsRem = s.bitsRem := rfl
@[simp] theorem State.loopTest_state : (s.loopTest).state = if 0 < s.bitsRem then .readSelector else .done := rfl
@[simp] theorem State.loopTest_err : (s.loopTest).err = s.err := rfl
@[simp] theorem State.loopTest_ctrl : (s.loopTest).ctrl = s.ctrl := rfl
@[simp] theorem State.loopTest_pad : (s.loopTest).pad = s.pad := rfl
@[simp] theorem State.loopTest_tblSel : (s.loopTest).tblSel = s.tblSel := rfl
@[simp] theorem State.loopTest_pfx : (s.loopTest).pfx = s.pfx := rfl
@[simp] theorem State.loopTest_pfxLen : (s.loopTest).pfxLen = s.pfxLen := rfl
@[simp] theorem State.loopTest_dist : (s.loopTest).dist = s.dist := rfl
@[simp] theorem State.loopTest_len : (s.loopTest).len = s.len := rfl
@[simp] theorem State.loopTest_extra : (s.loopTest).extra = s.extra := rfl
@[simp] theorem State.loopTest_count : (s.loopTest).count = s.count := rfl
@[simp] theorem State.loopTest_calls : (s.loopTest).calls = s.calls := rfl
@[simp] theorem State.loopTest_presented : (s.loopTest).presented = s.presented := rfl
@[simp] theorem State.loopTest_phase : (s.loopTest).phase = s.phase := rfl
@[simp] theorem State.loopTest_input : (s.loopTest).input = s.input := rfl
@[simp] theorem State.loopTest_offset : (s.loopTest).offset = s.offset := rfl
@[simp] theorem State.loopTest_cursor : (s.loopTest).cursor = s.cursor := rfl
@[simp] theorem State.loopTest_segmentCount : (s.loopTest).segmentCount = s.segmentCount := rfl
@[simp] theorem State.loopTest_segIndex : (s.loopTest).segIndex = s.segIndex := rfl
@[simp] theorem State.loopTest_uncompressedSize : (s.loopTest).uncompressedSize = s.uncompressedSize := rfl
@[simp] theorem State.loopTest_segmentSize : (s.loopTest).segmentSize = s.segmentSize := rfl
@[simp] theorem State.loopTest_total : (s.loopTest).total = s.total := rfl
@[simp] theorem State.loopTest_result : (s.loopTest).result = s.result := rfl
@[simp] theorem State.loopTest_ret : (s.loopTest).ret = s.ret := rfl

/-! ### `enterFailed` -/

@[simp] theorem State.enterFailed_cfg (k : ErrKind) : (s.enterFailed k).cfg = s.cfg := rfl
@[simp] theorem State.enterFailed_hist (k : ErrKind) : (s.enterFailed k).hist = s.hist := rfl
@[simp] theorem State.enterFailed_histIdx (k : ErrKind) : (s.enterFailed k).histIdx = s.histIdx := rfl
@[simp] theorem State.enterFailed_out (k : ErrKind) : (s.enterFailed k).out = s.out := rfl
@[simp] theorem State.enterFailed_outCnt (k : ErrKind) : (s.enterFailed k).outCnt = s.outCnt := rfl
@[simp] theorem State.enterFailed_inBytes (k : ErrKind) : (s.enterFailed k).inBytes = s.inBytes := rfl
@[simp] theorem State.enterFailed_inLen (k : ErrKind) : (s.enterFailed k).inLen = s.inLen := rfl
@[simp] theorem State.enterFailed_byteCur (k : ErrKind) : (s.enterFailed k).byteCur = s.byteCur := rfl
@[simp] theorem State.enterFailed_acc (k : ErrKind) : (s.enterFailed k).acc = s.acc := rfl
@[simp] theorem State.enterFailed_accCnt (k : ErrKind) : (s.enterFailed k).accCnt = s.accCnt := rfl
@[simp] theorem State.enterFailed_bitsRem (k : ErrKind) : (s.enterFailed k).bitsRem = s.bitsRem := rfl
@[simp] theorem State.enterFailed_state (k : ErrKind) : (s.enterFailed k).state = .failed := rfl
@[simp] theorem State.enterFailed_err (k : ErrKind) : (s.enterFailed k).err = some k := rfl
@[simp] theorem State.enterFailed_ctrl (k : ErrKind) : (s.enterFailed k).ctrl = s.ctrl := rfl
@[simp] theorem State.enterFailed_pad (k : ErrKind) : (s.enterFailed k).pad = s.pad := rfl
@[simp] theorem State.enterFailed_tblSel (k : ErrKind) : (s.enterFailed k).tblSel = s.tblSel := rfl
@[simp] theorem State.enterFailed_pfx (k : ErrKind) : (s.enterFailed k).pfx = s.pfx := rfl
@[simp] theorem State.enterFailed_pfxLen (k : ErrKind) : (s.enterFailed k).pfxLen = s.pfxLen := rfl
@[simp] theorem State.enterFailed_dist (k : ErrKind) : (s.enterFailed k).dist = s.dist := rfl
@[simp] theorem State.enterFailed_len (k : ErrKind) : (s.enterFailed k).len = s.len := rfl
@[simp] theorem State.enterFailed_extra (k : ErrKind) : (s.enterFailed k).extra = s.extra := rfl
@[simp] theorem State.enterFailed_count (k : ErrKind) : (s.enterFailed k).count = s.count := rfl
@[simp] theorem State.enterFailed_calls (k : ErrKind) : (s.enterFailed k).calls = s.calls := rfl
@[simp] theorem State.enterFailed_presented (k : ErrKind) : (s.enterFailed k).presented = s.presented := rfl
@[simp] theorem State.enterFailed_phase (k : ErrKind) : (s.enterFailed k).phase = s.phase := rfl
@[simp] theorem State.enterFailed_input (k : ErrKind) : (s.enterFailed k).input = s.input := rfl
@[simp] theorem State.enterFailed_offset (k : ErrKind) : (s.enterFailed k).offset = s.offset := rfl
@[simp] theorem State.enterFailed_cursor (k : ErrKind) : (s.enterFailed k).cursor = s.cursor := rfl
@[simp] theorem State.enterFailed_segmentCount (k : ErrKind) : (s.enterFailed k).segmentCount = s.segmentCount := rfl
@[simp] theorem State.enterFailed_segIndex (k : ErrKind) : (s.enterFailed k).segIndex = s.segIndex := rfl
@[simp] theorem State.enterFailed_uncompressedSize (k : ErrKind) : (s.enterFailed k).uncompressedSize = s.uncompressedSize := rfl
@[simp] theorem State.enterFailed_segmentSize (k : ErrKind) : (s.enterFailed k).segmentSize = s.segmentSize := rfl
@[simp] theorem State.enterFailed_total (k : ErrKind) : (s.enterFailed k).total = s.total := rfl
@[simp] theorem State.enterFailed_result (k : ErrKind) : (s.enterFailed k).result = s.result := rfl
@[simp] theorem State.enterFailed_ret (k : ErrKind) : (s.enterFailed k).ret = s.ret := rfl

/-! ### `walked` -/

@[simp] theorem State.walked_cfg (t : TableSel) (e : Token) : (s.walked t e).cfg = s.cfg := rfl
@[simp] theorem State.walked_hist (t : TableSel) (e : Token) : (s.walked t e).hist = s.hist := rfl
@[simp] theorem State.walked_histIdx (t : TableSel) (e : Token) : (s.walked t e).histIdx = s.histIdx := rfl
@[simp] theorem State.walked_out (t : TableSel) (e : Token) : (s.walked t e).out = s.out := rfl
@[simp] theorem State.walked_outCnt (t : TableSel) (e : Token) : (s.walked t e).outCnt = s.outCnt := rfl
@[simp] theorem State.walked_inBytes (t : TableSel) (e : Token) : (s.walked t e).inBytes = s.inBytes := rfl
@[simp] theorem State.walked_inLen (t : TableSel) (e : Token) : (s.walked t e).inLen = s.inLen := rfl
@[simp] theorem State.walked_byteCur (t : TableSel) (e : Token) : (s.walked t e).byteCur = s.byteCur := rfl
@[simp] theorem State.walked_acc (t : TableSel) (e : Token) : (s.walked t e).acc = s.acc := rfl
@[simp] theorem State.walked_accCnt (t : TableSel) (e : Token) : (s.walked t e).accCnt = s.accCnt := rfl
@[simp] theorem State.walked_bitsRem (t : TableSel) (e : Token) : (s.walked t e).bitsRem = s.bitsRem := rfl
@[simp] theorem State.walked_state (t : TableSel) (e : Token) : (s.walked t e).state = .decodeToken := rfl
@[simp] theorem State.walked_err (t : TableSel) (e : Token) : (s.walked t e).err = s.err := rfl
@[simp] theorem State.walked_ctrl (t : TableSel) (e : Token) : (s.walked t e).ctrl = s.ctrl := rfl
@[simp] theorem State.walked_pad (t : TableSel) (e : Token) : (s.walked t e).pad = s.pad := rfl
@[simp] theorem State.walked_tblSel (t : TableSel) (e : Token) : (s.walked t e).tblSel = t := rfl
@[simp] theorem State.walked_pfx (t : TableSel) (e : Token) : (s.walked t e).pfx = e.prefixCode := rfl
@[simp] theorem State.walked_pfxLen (t : TableSel) (e : Token) : (s.walked t e).pfxLen = e.prefixLen := rfl
@[simp] theorem State.walked_dist (t : TableSel) (e : Token) : (s.walked t e).dist = s.dist := rfl
@[simp] theorem State.walked_len (t : TableSel) (e : Token) : (s.walked t e).len = s.len := rfl
@[simp] theorem State.walked_extra (t : TableSel) (e : Token) : (s.walked t e).extra = s.extra := rfl
@[simp] theorem State.walked_count (t : TableSel) (e : Token) : (s.walked t e).count = s.count := rfl
@[simp] theorem State.walked_calls (t : TableSel) (e : Token) : (s.walked t e).calls = s.calls := rfl
@[simp] theorem State.walked_presented (t : TableSel) (e : Token) : (s.walked t e).presented = s.presented := rfl
@[simp] theorem State.walked_phase (t : TableSel) (e : Token) : (s.walked t e).phase = s.phase := rfl
@[simp] theorem State.walked_input (t : TableSel) (e : Token) : (s.walked t e).input = s.input := rfl
@[simp] theorem State.walked_offset (t : TableSel) (e : Token) : (s.walked t e).offset = s.offset := rfl
@[simp] theorem State.walked_cursor (t : TableSel) (e : Token) : (s.walked t e).cursor = s.cursor := rfl
@[simp] theorem State.walked_segmentCount (t : TableSel) (e : Token) : (s.walked t e).segmentCount = s.segmentCount := rfl
@[simp] theorem State.walked_segIndex (t : TableSel) (e : Token) : (s.walked t e).segIndex = s.segIndex := rfl
@[simp] theorem State.walked_uncompressedSize (t : TableSel) (e : Token) : (s.walked t e).uncompressedSize = s.uncompressedSize := rfl
@[simp] theorem State.walked_segmentSize (t : TableSel) (e : Token) : (s.walked t e).segmentSize = s.segmentSize := rfl
@[simp] theorem State.walked_total (t : TableSel) (e : Token) : (s.walked t e).total = s.total := rfl
@[simp] theorem State.walked_result (t : TableSel) (e : Token) : (s.walked t e).result = s.result := rfl
@[simp] theorem State.walked_ret (t : TableSel) (e : Token) : (s.walked t e).ret = s.ret := rfl

/-! ### `walkedOff` -/

@[simp] theorem State.walkedOff_cfg (t : TableSel) (p n : Nat) : (s.walkedOff t p n).cfg = s.cfg := rfl
@[simp] theorem State.walkedOff_hist (t : TableSel) (p n : Nat) : (s.walkedOff t p n).hist = s.hist := rfl
@[simp] theorem State.walkedOff_histIdx (t : TableSel) (p n : Nat) : (s.walkedOff t p n).histIdx = s.histIdx := rfl
@[simp] theorem State.walkedOff_out (t : TableSel) (p n : Nat) : (s.walkedOff t p n).out = s.out := rfl
@[simp] theorem State.walkedOff_outCnt (t : TableSel) (p n : Nat) : (s.walkedOff t p n).outCnt = s.outCnt := rfl
@[simp] theorem State.walkedOff_inBytes (t : TableSel) (p n : Nat) : (s.walkedOff t p n).inBytes = s.inBytes := rfl
@[simp] theorem State.walkedOff_inLen (t : TableSel) (p n : Nat) : (s.walkedOff t p n).inLen = s.inLen := rfl
@[simp] theorem State.walkedOff_byteCur (t : TableSel) (p n : Nat) : (s.walkedOff t p n).byteCur = s.byteCur := rfl
@[simp] theorem State.walkedOff_acc (t : TableSel) (p n : Nat) : (s.walkedOff t p n).acc = s.acc := rfl
@[simp] theorem State.walkedOff_accCnt (t : TableSel) (p n : Nat) : (s.walkedOff t p n).accCnt = s.accCnt := rfl
@[simp] theorem State.walkedOff_bitsRem (t : TableSel) (p n : Nat) : (s.walkedOff t p n).bitsRem = s.bitsRem := rfl
@[simp] theorem State.walkedOff_state (t : TableSel) (p n : Nat) : (s.walkedOff t p n).state = .decodeToken := rfl
@[simp] theorem State.walkedOff_err (t : TableSel) (p n : Nat) : (s.walkedOff t p n).err = s.err := rfl
@[simp] theorem State.walkedOff_ctrl (t : TableSel) (p n : Nat) : (s.walkedOff t p n).ctrl = s.ctrl := rfl
@[simp] theorem State.walkedOff_pad (t : TableSel) (p n : Nat) : (s.walkedOff t p n).pad = s.pad := rfl
@[simp] theorem State.walkedOff_tblSel (t : TableSel) (p n : Nat) : (s.walkedOff t p n).tblSel = t := rfl
@[simp] theorem State.walkedOff_pfx (t : TableSel) (p n : Nat) : (s.walkedOff t p n).pfx = p := rfl
@[simp] theorem State.walkedOff_pfxLen (t : TableSel) (p n : Nat) : (s.walkedOff t p n).pfxLen = n := rfl
@[simp] theorem State.walkedOff_dist (t : TableSel) (p n : Nat) : (s.walkedOff t p n).dist = s.dist := rfl
@[simp] theorem State.walkedOff_len (t : TableSel) (p n : Nat) : (s.walkedOff t p n).len = s.len := rfl
@[simp] theorem State.walkedOff_extra (t : TableSel) (p n : Nat) : (s.walkedOff t p n).extra = s.extra := rfl
@[simp] theorem State.walkedOff_count (t : TableSel) (p n : Nat) : (s.walkedOff t p n).count = s.count := rfl
@[simp] theorem State.walkedOff_calls (t : TableSel) (p n : Nat) : (s.walkedOff t p n).calls = s.calls := rfl
@[simp] theorem State.walkedOff_presented (t : TableSel) (p n : Nat) : (s.walkedOff t p n).presented = s.presented := rfl
@[simp] theorem State.walkedOff_phase (t : TableSel) (p n : Nat) : (s.walkedOff t p n).phase = s.phase := rfl
@[simp] theorem State.walkedOff_input (t : TableSel) (p n : Nat) : (s.walkedOff t p n).input = s.input := rfl
@[simp] theorem State.walkedOff_offset (t : TableSel) (p n : Nat) : (s.walkedOff t p n).offset = s.offset := rfl
@[simp] theorem State.walkedOff_cursor (t : TableSel) (p n : Nat) : (s.walkedOff t p n).cursor = s.cursor := rfl
@[simp] theorem State.walkedOff_segmentCount (t : TableSel) (p n : Nat) : (s.walkedOff t p n).segmentCount = s.segmentCount := rfl
@[simp] theorem State.walkedOff_segIndex (t : TableSel) (p n : Nat) : (s.walkedOff t p n).segIndex = s.segIndex := rfl
@[simp] theorem State.walkedOff_uncompressedSize (t : TableSel) (p n : Nat) : (s.walkedOff t p n).uncompressedSize = s.uncompressedSize := rfl
@[simp] theorem State.walkedOff_segmentSize (t : TableSel) (p n : Nat) : (s.walkedOff t p n).segmentSize = s.segmentSize := rfl
@[simp] theorem State.walkedOff_total (t : TableSel) (p n : Nat) : (s.walkedOff t p n).total = s.total := rfl
@[simp] theorem State.walkedOff_result (t : TableSel) (p n : Nat) : (s.walkedOff t p n).result = s.result := rfl
@[simp] theorem State.walkedOff_ret (t : TableSel) (p n : Nat) : (s.walkedOff t p n).ret = s.ret := rfl

/-! ### `matchOperands` -/

@[simp] theorem State.matchOperands_cfg (e : Token) (x : Nat) (l : LengthCode) : (s.matchOperands e x l).cfg = s.cfg := rfl
@[simp] theorem State.matchOperands_hist (e : Token) (x : Nat) (l : LengthCode) : (s.matchOperands e x l).hist = s.hist := rfl
@[simp] theorem State.matchOperands_histIdx (e : Token) (x : Nat) (l : LengthCode) : (s.matchOperands e x l).histIdx = s.histIdx := rfl
@[simp] theorem State.matchOperands_out (e : Token) (x : Nat) (l : LengthCode) : (s.matchOperands e x l).out = s.out := rfl
@[simp] theorem State.matchOperands_outCnt (e : Token) (x : Nat) (l : LengthCode) : (s.matchOperands e x l).outCnt = s.outCnt := rfl
@[simp] theorem State.matchOperands_inBytes (e : Token) (x : Nat) (l : LengthCode) : (s.matchOperands e x l).inBytes = s.inBytes := rfl
@[simp] theorem State.matchOperands_inLen (e : Token) (x : Nat) (l : LengthCode) : (s.matchOperands e x l).inLen = s.inLen := rfl
@[simp] theorem State.matchOperands_byteCur (e : Token) (x : Nat) (l : LengthCode) : (s.matchOperands e x l).byteCur = s.byteCur := rfl
@[simp] theorem State.matchOperands_acc (e : Token) (x : Nat) (l : LengthCode) : (s.matchOperands e x l).acc = s.acc := rfl
@[simp] theorem State.matchOperands_accCnt (e : Token) (x : Nat) (l : LengthCode) : (s.matchOperands e x l).accCnt = s.accCnt := rfl
@[simp] theorem State.matchOperands_bitsRem (e : Token) (x : Nat) (l : LengthCode) : (s.matchOperands e x l).bitsRem = s.bitsRem := rfl
@[simp] theorem State.matchOperands_state (e : Token) (x : Nat) (l : LengthCode) : (s.matchOperands e x l).state = .matchBody := rfl
@[simp] theorem State.matchOperands_err (e : Token) (x : Nat) (l : LengthCode) : (s.matchOperands e x l).err = s.err := rfl
@[simp] theorem State.matchOperands_ctrl (e : Token) (x : Nat) (l : LengthCode) : (s.matchOperands e x l).ctrl = s.ctrl := rfl
@[simp] theorem State.matchOperands_pad (e : Token) (x : Nat) (l : LengthCode) : (s.matchOperands e x l).pad = s.pad := rfl
@[simp] theorem State.matchOperands_tblSel (e : Token) (x : Nat) (l : LengthCode) : (s.matchOperands e x l).tblSel = .matchTable := rfl
@[simp] theorem State.matchOperands_pfx (e : Token) (x : Nat) (l : LengthCode) : (s.matchOperands e x l).pfx = e.prefixCode := rfl
@[simp] theorem State.matchOperands_pfxLen (e : Token) (x : Nat) (l : LengthCode) : (s.matchOperands e x l).pfxLen = e.prefixLen := rfl
@[simp] theorem State.matchOperands_dist (e : Token) (x : Nat) (l : LengthCode) : (s.matchOperands e x l).dist = distanceOf e x := rfl
@[simp] theorem State.matchOperands_len (e : Token) (x : Nat) (l : LengthCode) : (s.matchOperands e x l).len = (lengthOf l s.extra).1 := rfl
@[simp] theorem State.matchOperands_extra (e : Token) (x : Nat) (l : LengthCode) : (s.matchOperands e x l).extra = (lengthOf l s.extra).2 := rfl
@[simp] theorem State.matchOperands_count (e : Token) (x : Nat) (l : LengthCode) : (s.matchOperands e x l).count = s.count := rfl
@[simp] theorem State.matchOperands_calls (e : Token) (x : Nat) (l : LengthCode) : (s.matchOperands e x l).calls = s.calls := rfl
@[simp] theorem State.matchOperands_presented (e : Token) (x : Nat) (l : LengthCode) : (s.matchOperands e x l).presented = s.presented := rfl
@[simp] theorem State.matchOperands_phase (e : Token) (x : Nat) (l : LengthCode) : (s.matchOperands e x l).phase = s.phase := rfl
@[simp] theorem State.matchOperands_input (e : Token) (x : Nat) (l : LengthCode) : (s.matchOperands e x l).input = s.input := rfl
@[simp] theorem State.matchOperands_offset (e : Token) (x : Nat) (l : LengthCode) : (s.matchOperands e x l).offset = s.offset := rfl
@[simp] theorem State.matchOperands_cursor (e : Token) (x : Nat) (l : LengthCode) : (s.matchOperands e x l).cursor = s.cursor := rfl
@[simp] theorem State.matchOperands_segmentCount (e : Token) (x : Nat) (l : LengthCode) : (s.matchOperands e x l).segmentCount = s.segmentCount := rfl
@[simp] theorem State.matchOperands_segIndex (e : Token) (x : Nat) (l : LengthCode) : (s.matchOperands e x l).segIndex = s.segIndex := rfl
@[simp] theorem State.matchOperands_uncompressedSize (e : Token) (x : Nat) (l : LengthCode) : (s.matchOperands e x l).uncompressedSize = s.uncompressedSize := rfl
@[simp] theorem State.matchOperands_segmentSize (e : Token) (x : Nat) (l : LengthCode) : (s.matchOperands e x l).segmentSize = s.segmentSize := rfl
@[simp] theorem State.matchOperands_total (e : Token) (x : Nat) (l : LengthCode) : (s.matchOperands e x l).total = s.total := rfl
@[simp] theorem State.matchOperands_result (e : Token) (x : Nat) (l : LengthCode) : (s.matchOperands e x l).result = s.result := rfl
@[simp] theorem State.matchOperands_ret (e : Token) (x : Nat) (l : LengthCode) : (s.matchOperands e x l).ret = s.ret := rfl

/-! ### `runOperands` -/

@[simp] theorem State.runOperands_cfg (e : Token) (c : Nat) : (s.runOperands e c).cfg = s.cfg := rfl
@[simp] theorem State.runOperands_hist (e : Token) (c : Nat) : (s.runOperands e c).hist = s.hist := rfl
@[simp] theorem State.runOperands_histIdx (e : Token) (c : Nat) : (s.runOperands e c).histIdx = s.histIdx := rfl
@[simp] theorem State.runOperands_out (e : Token) (c : Nat) : (s.runOperands e c).out = s.out := rfl
@[simp] theorem State.runOperands_outCnt (e : Token) (c : Nat) : (s.runOperands e c).outCnt = s.outCnt := rfl
@[simp] theorem State.runOperands_inBytes (e : Token) (c : Nat) : (s.runOperands e c).inBytes = s.inBytes := rfl
@[simp] theorem State.runOperands_inLen (e : Token) (c : Nat) : (s.runOperands e c).inLen = s.inLen := rfl
@[simp] theorem State.runOperands_byteCur (e : Token) (c : Nat) : (s.runOperands e c).byteCur = s.byteCur := rfl
@[simp] theorem State.runOperands_acc (e : Token) (c : Nat) : (s.runOperands e c).acc = s.acc := rfl
@[simp] theorem State.runOperands_accCnt (e : Token) (c : Nat) : (s.runOperands e c).accCnt = s.accCnt := rfl
@[simp] theorem State.runOperands_bitsRem (e : Token) (c : Nat) : (s.runOperands e c).bitsRem = s.bitsRem := rfl
@[simp] theorem State.runOperands_state (e : Token) (c : Nat) : (s.runOperands e c).state = .unencoded := rfl
@[simp] theorem State.runOperands_err (e : Token) (c : Nat) : (s.runOperands e c).err = s.err := rfl
@[simp] theorem State.runOperands_ctrl (e : Token) (c : Nat) : (s.runOperands e c).ctrl = s.ctrl := rfl
@[simp] theorem State.runOperands_pad (e : Token) (c : Nat) : (s.runOperands e c).pad = s.pad := rfl
@[simp] theorem State.runOperands_tblSel (e : Token) (c : Nat) : (s.runOperands e c).tblSel = .matchTable := rfl
@[simp] theorem State.runOperands_pfx (e : Token) (c : Nat) : (s.runOperands e c).pfx = e.prefixCode := rfl
@[simp] theorem State.runOperands_pfxLen (e : Token) (c : Nat) : (s.runOperands e c).pfxLen = e.prefixLen := rfl
@[simp] theorem State.runOperands_dist (e : Token) (c : Nat) : (s.runOperands e c).dist = 0 := rfl
@[simp] theorem State.runOperands_len (e : Token) (c : Nat) : (s.runOperands e c).len = s.len := rfl
@[simp] theorem State.runOperands_extra (e : Token) (c : Nat) : (s.runOperands e c).extra = s.extra := rfl
@[simp] theorem State.runOperands_count (e : Token) (c : Nat) : (s.runOperands e c).count = c := rfl
@[simp] theorem State.runOperands_calls (e : Token) (c : Nat) : (s.runOperands e c).calls = s.calls := rfl
@[simp] theorem State.runOperands_presented (e : Token) (c : Nat) : (s.runOperands e c).presented = s.presented := rfl
@[simp] theorem State.runOperands_phase (e : Token) (c : Nat) : (s.runOperands e c).phase = s.phase := rfl
@[simp] theorem State.runOperands_input (e : Token) (c : Nat) : (s.runOperands e c).input = s.input := rfl
@[simp] theorem State.runOperands_offset (e : Token) (c : Nat) : (s.runOperands e c).offset = s.offset := rfl
@[simp] theorem State.runOperands_cursor (e : Token) (c : Nat) : (s.runOperands e c).cursor = s.cursor := rfl
@[simp] theorem State.runOperands_segmentCount (e : Token) (c : Nat) : (s.runOperands e c).segmentCount = s.segmentCount := rfl
@[simp] theorem State.runOperands_segIndex (e : Token) (c : Nat) : (s.runOperands e c).segIndex = s.segIndex := rfl
@[simp] theorem State.runOperands_uncompressedSize (e : Token) (c : Nat) : (s.runOperands e c).uncompressedSize = s.uncompressedSize := rfl
@[simp] theorem State.runOperands_segmentSize (e : Token) (c : Nat) : (s.runOperands e c).segmentSize = s.segmentSize := rfl
@[simp] theorem State.runOperands_total (e : Token) (c : Nat) : (s.runOperands e c).total = s.total := rfl
@[simp] theorem State.runOperands_result (e : Token) (c : Nat) : (s.runOperands e c).result = s.result := rfl
@[simp] theorem State.runOperands_ret (e : Token) (c : Nat) : (s.runOperands e c).ret = s.ret := rfl

/-! ### `hostReturn` -/

@[simp] theorem State.hostReturn_cfg (r : CallResult) : (s.hostReturn r).cfg = s.cfg := rfl
@[simp] theorem State.hostReturn_hist (r : CallResult) : (s.hostReturn r).hist = s.hist := rfl
@[simp] theorem State.hostReturn_histIdx (r : CallResult) : (s.hostReturn r).histIdx = s.histIdx := rfl
@[simp] theorem State.hostReturn_out (r : CallResult) : (s.hostReturn r).out = s.out := rfl
@[simp] theorem State.hostReturn_outCnt (r : CallResult) : (s.hostReturn r).outCnt = s.outCnt := rfl
@[simp] theorem State.hostReturn_inBytes (r : CallResult) : (s.hostReturn r).inBytes = s.inBytes := rfl
@[simp] theorem State.hostReturn_inLen (r : CallResult) : (s.hostReturn r).inLen = s.inLen := rfl
@[simp] theorem State.hostReturn_byteCur (r : CallResult) : (s.hostReturn r).byteCur = s.byteCur := rfl
@[simp] theorem State.hostReturn_acc (r : CallResult) : (s.hostReturn r).acc = s.acc := rfl
@[simp] theorem State.hostReturn_accCnt (r : CallResult) : (s.hostReturn r).accCnt = s.accCnt := rfl
@[simp] theorem State.hostReturn_bitsRem (r : CallResult) : (s.hostReturn r).bitsRem = s.bitsRem := rfl
@[simp] theorem State.hostReturn_state (r : CallResult) : (s.hostReturn r).state = s.state := rfl
@[simp] theorem State.hostReturn_err (r : CallResult) : (s.hostReturn r).err = s.err := rfl
@[simp] theorem State.hostReturn_ctrl (r : CallResult) : (s.hostReturn r).ctrl = s.ctrl := rfl
@[simp] theorem State.hostReturn_pad (r : CallResult) : (s.hostReturn r).pad = s.pad := rfl
@[simp] theorem State.hostReturn_tblSel (r : CallResult) : (s.hostReturn r).tblSel = s.tblSel := rfl
@[simp] theorem State.hostReturn_pfx (r : CallResult) : (s.hostReturn r).pfx = s.pfx := rfl
@[simp] theorem State.hostReturn_pfxLen (r : CallResult) : (s.hostReturn r).pfxLen = s.pfxLen := rfl
@[simp] theorem State.hostReturn_dist (r : CallResult) : (s.hostReturn r).dist = s.dist := rfl
@[simp] theorem State.hostReturn_len (r : CallResult) : (s.hostReturn r).len = s.len := rfl
@[simp] theorem State.hostReturn_extra (r : CallResult) : (s.hostReturn r).extra = s.extra := rfl
@[simp] theorem State.hostReturn_count (r : CallResult) : (s.hostReturn r).count = s.count := rfl
@[simp] theorem State.hostReturn_calls (r : CallResult) : (s.hostReturn r).calls = s.calls := rfl
@[simp] theorem State.hostReturn_presented (r : CallResult) : (s.hostReturn r).presented = s.presented := rfl
@[simp] theorem State.hostReturn_phase (r : CallResult) : (s.hostReturn r).phase = .idle := rfl
@[simp] theorem State.hostReturn_input (r : CallResult) : (s.hostReturn r).input = s.input := rfl
@[simp] theorem State.hostReturn_offset (r : CallResult) : (s.hostReturn r).offset = s.offset := rfl
@[simp] theorem State.hostReturn_cursor (r : CallResult) : (s.hostReturn r).cursor = s.cursor := rfl
@[simp] theorem State.hostReturn_segmentCount (r : CallResult) : (s.hostReturn r).segmentCount = s.segmentCount := rfl
@[simp] theorem State.hostReturn_segIndex (r : CallResult) : (s.hostReturn r).segIndex = s.segIndex := rfl
@[simp] theorem State.hostReturn_uncompressedSize (r : CallResult) : (s.hostReturn r).uncompressedSize = s.uncompressedSize := rfl
@[simp] theorem State.hostReturn_segmentSize (r : CallResult) : (s.hostReturn r).segmentSize = s.segmentSize := rfl
@[simp] theorem State.hostReturn_total (r : CallResult) : (s.hostReturn r).total = s.total := rfl
@[simp] theorem State.hostReturn_result (r : CallResult) : (s.hostReturn r).result = s.result := rfl
@[simp] theorem State.hostReturn_ret (r : CallResult) : (s.hostReturn r).ret = some r := rfl

/-! ### `hostRaise` -/

@[simp] theorem State.hostRaise_cfg (k : ErrKind) : (s.hostRaise k).cfg = s.cfg := rfl
@[simp] theorem State.hostRaise_hist (k : ErrKind) : (s.hostRaise k).hist = s.hist := rfl
@[simp] theorem State.hostRaise_histIdx (k : ErrKind) : (s.hostRaise k).histIdx = s.histIdx := rfl
@[simp] theorem State.hostRaise_out (k : ErrKind) : (s.hostRaise k).out = s.out := rfl
@[simp] theorem State.hostRaise_outCnt (k : ErrKind) : (s.hostRaise k).outCnt = s.outCnt := rfl
@[simp] theorem State.hostRaise_inBytes (k : ErrKind) : (s.hostRaise k).inBytes = s.inBytes := rfl
@[simp] theorem State.hostRaise_inLen (k : ErrKind) : (s.hostRaise k).inLen = s.inLen := rfl
@[simp] theorem State.hostRaise_byteCur (k : ErrKind) : (s.hostRaise k).byteCur = s.byteCur := rfl
@[simp] theorem State.hostRaise_acc (k : ErrKind) : (s.hostRaise k).acc = s.acc := rfl
@[simp] theorem State.hostRaise_accCnt (k : ErrKind) : (s.hostRaise k).accCnt = s.accCnt := rfl
@[simp] theorem State.hostRaise_bitsRem (k : ErrKind) : (s.hostRaise k).bitsRem = s.bitsRem := rfl
@[simp] theorem State.hostRaise_state (k : ErrKind) : (s.hostRaise k).state = s.state := rfl
@[simp] theorem State.hostRaise_err (k : ErrKind) : (s.hostRaise k).err = s.err := rfl
@[simp] theorem State.hostRaise_ctrl (k : ErrKind) : (s.hostRaise k).ctrl = s.ctrl := rfl
@[simp] theorem State.hostRaise_pad (k : ErrKind) : (s.hostRaise k).pad = s.pad := rfl
@[simp] theorem State.hostRaise_tblSel (k : ErrKind) : (s.hostRaise k).tblSel = s.tblSel := rfl
@[simp] theorem State.hostRaise_pfx (k : ErrKind) : (s.hostRaise k).pfx = s.pfx := rfl
@[simp] theorem State.hostRaise_pfxLen (k : ErrKind) : (s.hostRaise k).pfxLen = s.pfxLen := rfl
@[simp] theorem State.hostRaise_dist (k : ErrKind) : (s.hostRaise k).dist = s.dist := rfl
@[simp] theorem State.hostRaise_len (k : ErrKind) : (s.hostRaise k).len = s.len := rfl
@[simp] theorem State.hostRaise_extra (k : ErrKind) : (s.hostRaise k).extra = s.extra := rfl
@[simp] theorem State.hostRaise_count (k : ErrKind) : (s.hostRaise k).count = s.count := rfl
@[simp] theorem State.hostRaise_calls (k : ErrKind) : (s.hostRaise k).calls = s.calls := rfl
@[simp] theorem State.hostRaise_presented (k : ErrKind) : (s.hostRaise k).presented = s.presented := rfl
@[simp] theorem State.hostRaise_phase (k : ErrKind) : (s.hostRaise k).phase = .idle := rfl
@[simp] theorem State.hostRaise_input (k : ErrKind) : (s.hostRaise k).input = s.input := rfl
@[simp] theorem State.hostRaise_offset (k : ErrKind) : (s.hostRaise k).offset = s.offset := rfl
@[simp] theorem State.hostRaise_cursor (k : ErrKind) : (s.hostRaise k).cursor = s.cursor := rfl
@[simp] theorem State.hostRaise_segmentCount (k : ErrKind) : (s.hostRaise k).segmentCount = s.segmentCount := rfl
@[simp] theorem State.hostRaise_segIndex (k : ErrKind) : (s.hostRaise k).segIndex = s.segIndex := rfl
@[simp] theorem State.hostRaise_uncompressedSize (k : ErrKind) : (s.hostRaise k).uncompressedSize = s.uncompressedSize := rfl
@[simp] theorem State.hostRaise_segmentSize (k : ErrKind) : (s.hostRaise k).segmentSize = s.segmentSize := rfl
@[simp] theorem State.hostRaise_total (k : ErrKind) : (s.hostRaise k).total = s.total := rfl
@[simp] theorem State.hostRaise_result (k : ErrKind) : (s.hostRaise k).result = s.result := rfl
@[simp] theorem State.hostRaise_ret (k : ErrKind) : (s.hostRaise k).ret = some (.error (some k)) := rfl

/-! ### `enterCall` -/

@[simp] theorem State.enterCall_cfg (b : List Byte) (o : Nat) : (s.enterCall b o).cfg = s.cfg := rfl
@[simp] theorem State.enterCall_hist (b : List Byte) (o : Nat) : (s.enterCall b o).hist = s.hist := rfl
@[simp] theorem State.enterCall_histIdx (b : List Byte) (o : Nat) : (s.enterCall b o).histIdx = s.histIdx := rfl
@[simp] theorem State.enterCall_out (b : List Byte) (o : Nat) : (s.enterCall b o).out = s.out := rfl
@[simp] theorem State.enterCall_outCnt (b : List Byte) (o : Nat) : (s.enterCall b o).outCnt = s.outCnt := rfl
@[simp] theorem State.enterCall_inBytes (b : List Byte) (o : Nat) : (s.enterCall b o).inBytes = s.inBytes := rfl
@[simp] theorem State.enterCall_inLen (b : List Byte) (o : Nat) : (s.enterCall b o).inLen = s.inLen := rfl
@[simp] theorem State.enterCall_byteCur (b : List Byte) (o : Nat) : (s.enterCall b o).byteCur = s.byteCur := rfl
@[simp] theorem State.enterCall_acc (b : List Byte) (o : Nat) : (s.enterCall b o).acc = s.acc := rfl
@[simp] theorem State.enterCall_accCnt (b : List Byte) (o : Nat) : (s.enterCall b o).accCnt = s.accCnt := rfl
@[simp] theorem State.enterCall_bitsRem (b : List Byte) (o : Nat) : (s.enterCall b o).bitsRem = s.bitsRem := rfl
@[simp] theorem State.enterCall_state (b : List Byte) (o : Nat) : (s.enterCall b o).state = s.state := rfl
@[simp] theorem State.enterCall_err (b : List Byte) (o : Nat) : (s.enterCall b o).err = s.err := rfl
@[simp] theorem State.enterCall_ctrl (b : List Byte) (o : Nat) : (s.enterCall b o).ctrl = s.ctrl := rfl
@[simp] theorem State.enterCall_pad (b : List Byte) (o : Nat) : (s.enterCall b o).pad = s.pad := rfl
@[simp] theorem State.enterCall_tblSel (b : List Byte) (o : Nat) : (s.enterCall b o).tblSel = s.tblSel := rfl
@[simp] theorem State.enterCall_pfx (b : List Byte) (o : Nat) : (s.enterCall b o).pfx = s.pfx := rfl
@[simp] theorem State.enterCall_pfxLen (b : List Byte) (o : Nat) : (s.enterCall b o).pfxLen = s.pfxLen := rfl
@[simp] theorem State.enterCall_dist (b : List Byte) (o : Nat) : (s.enterCall b o).dist = s.dist := rfl
@[simp] theorem State.enterCall_len (b : List Byte) (o : Nat) : (s.enterCall b o).len = s.len := rfl
@[simp] theorem State.enterCall_extra (b : List Byte) (o : Nat) : (s.enterCall b o).extra = s.extra := rfl
@[simp] theorem State.enterCall_count (b : List Byte) (o : Nat) : (s.enterCall b o).count = s.count := rfl
@[simp] theorem State.enterCall_calls (b : List Byte) (o : Nat) : (s.enterCall b o).calls = s.calls := rfl
@[simp] theorem State.enterCall_presented (b : List Byte) (o : Nat) : (s.enterCall b o).presented = s.presented := rfl
@[simp] theorem State.enterCall_phase (b : List Byte) (o : Nat) : (s.enterCall b o).phase = s.phase := rfl
@[simp] theorem State.enterCall_input (b : List Byte) (o : Nat) : (s.enterCall b o).input = b := rfl
@[simp] theorem State.enterCall_offset (b : List Byte) (o : Nat) : (s.enterCall b o).offset = o := rfl
@[simp] theorem State.enterCall_cursor (b : List Byte) (o : Nat) : (s.enterCall b o).cursor = s.cursor := rfl
@[simp] theorem State.enterCall_segmentCount (b : List Byte) (o : Nat) : (s.enterCall b o).segmentCount = s.segmentCount := rfl
@[simp] theorem State.enterCall_segIndex (b : List Byte) (o : Nat) : (s.enterCall b o).segIndex = s.segIndex := rfl
@[simp] theorem State.enterCall_uncompressedSize (b : List Byte) (o : Nat) : (s.enterCall b o).uncompressedSize = s.uncompressedSize := rfl
@[simp] theorem State.enterCall_segmentSize (b : List Byte) (o : Nat) : (s.enterCall b o).segmentSize = s.segmentSize := rfl
@[simp] theorem State.enterCall_total (b : List Byte) (o : Nat) : (s.enterCall b o).total = s.total := rfl
@[simp] theorem State.enterCall_result (b : List Byte) (o : Nat) : (s.enterCall b o).result = s.result := rfl
@[simp] theorem State.enterCall_ret (b : List Byte) (o : Nat) : (s.enterCall b o).ret = none := rfl

/-! ### `openFrame` -/

@[simp] theorem State.openFrame_cfg (p : Nat) : (s.openFrame p).cfg = s.cfg := rfl
@[simp] theorem State.openFrame_hist (p : Nat) : (s.openFrame p).hist = s.hist := rfl
@[simp] theorem State.openFrame_histIdx (p : Nat) : (s.openFrame p).histIdx = s.histIdx := rfl
@[simp] theorem State.openFrame_out (p : Nat) : (s.openFrame p).out = s.out := rfl
@[simp] theorem State.openFrame_outCnt (p : Nat) : (s.openFrame p).outCnt = s.outCnt := rfl
@[simp] theorem State.openFrame_inBytes (p : Nat) : (s.openFrame p).inBytes = s.inBytes := rfl
@[simp] theorem State.openFrame_inLen (p : Nat) : (s.openFrame p).inLen = s.inLen := rfl
@[simp] theorem State.openFrame_byteCur (p : Nat) : (s.openFrame p).byteCur = s.byteCur := rfl
@[simp] theorem State.openFrame_acc (p : Nat) : (s.openFrame p).acc = s.acc := rfl
@[simp] theorem State.openFrame_accCnt (p : Nat) : (s.openFrame p).accCnt = s.accCnt := rfl
@[simp] theorem State.openFrame_bitsRem (p : Nat) : (s.openFrame p).bitsRem = s.bitsRem := rfl
@[simp] theorem State.openFrame_state (p : Nat) : (s.openFrame p).state = s.state := rfl
@[simp] theorem State.openFrame_err (p : Nat) : (s.openFrame p).err = s.err := rfl
@[simp] theorem State.openFrame_ctrl (p : Nat) : (s.openFrame p).ctrl = s.ctrl := rfl
@[simp] theorem State.openFrame_pad (p : Nat) : (s.openFrame p).pad = s.pad := rfl
@[simp] theorem State.openFrame_tblSel (p : Nat) : (s.openFrame p).tblSel = s.tblSel := rfl
@[simp] theorem State.openFrame_pfx (p : Nat) : (s.openFrame p).pfx = s.pfx := rfl
@[simp] theorem State.openFrame_pfxLen (p : Nat) : (s.openFrame p).pfxLen = s.pfxLen := rfl
@[simp] theorem State.openFrame_dist (p : Nat) : (s.openFrame p).dist = s.dist := rfl
@[simp] theorem State.openFrame_len (p : Nat) : (s.openFrame p).len = s.len := rfl
@[simp] theorem State.openFrame_extra (p : Nat) : (s.openFrame p).extra = s.extra := rfl
@[simp] theorem State.openFrame_count (p : Nat) : (s.openFrame p).count = s.count := rfl
@[simp] theorem State.openFrame_calls (p : Nat) : (s.openFrame p).calls = s.calls := rfl
@[simp] theorem State.openFrame_presented (p : Nat) : (s.openFrame p).presented = s.presented := rfl
@[simp] theorem State.openFrame_phase (p : Nat) : (s.openFrame p).phase = .multiNext := rfl
@[simp] theorem State.openFrame_input (p : Nat) : (s.openFrame p).input = s.input := rfl
@[simp] theorem State.openFrame_offset (p : Nat) : (s.openFrame p).offset = s.offset := rfl
@[simp] theorem State.openFrame_cursor (p : Nat) : (s.openFrame p).cursor = p + 6 := rfl
@[simp] theorem State.openFrame_segmentCount (p : Nat) : (s.openFrame p).segmentCount = inputField s.input p 2 := rfl
@[simp] theorem State.openFrame_segIndex (p : Nat) : (s.openFrame p).segIndex = 0 := rfl
@[simp] theorem State.openFrame_uncompressedSize (p : Nat) : (s.openFrame p).uncompressedSize = inputField s.input (p + 2) 4 := rfl
@[simp] theorem State.openFrame_segmentSize (p : Nat) : (s.openFrame p).segmentSize = s.segmentSize := rfl
@[simp] theorem State.openFrame_total (p : Nat) : (s.openFrame p).total = 0 := rfl
@[simp] theorem State.openFrame_result (p : Nat) : (s.openFrame p).result = [] := rfl
@[simp] theorem State.openFrame_ret (p : Nat) : (s.openFrame p).ret = none := rfl

/-! ### `resetContext` -/

@[simp] theorem State.resetContext_cfg : s.resetContext.cfg = s.cfg := rfl
@[simp] theorem State.resetContext_hist : s.resetContext.hist = ⟨[]⟩ := rfl
@[simp] theorem State.resetContext_histIdx : s.resetContext.histIdx = 0 := rfl
@[simp] theorem State.resetContext_out : s.resetContext.out = ⟨[]⟩ := rfl
@[simp] theorem State.resetContext_outCnt : s.resetContext.outCnt = 0 := rfl
@[simp] theorem State.resetContext_inBytes : s.resetContext.inBytes = [] := rfl
@[simp] theorem State.resetContext_inLen : s.resetContext.inLen = 0 := rfl
@[simp] theorem State.resetContext_byteCur : s.resetContext.byteCur = 0 := rfl
@[simp] theorem State.resetContext_acc : s.resetContext.acc = 0 := rfl
@[simp] theorem State.resetContext_accCnt : s.resetContext.accCnt = 0 := rfl
@[simp] theorem State.resetContext_bitsRem : s.resetContext.bitsRem = 0 := rfl
@[simp] theorem State.resetContext_state : s.resetContext.state = .done := rfl
@[simp] theorem State.resetContext_err : s.resetContext.err = none := rfl
@[simp] theorem State.resetContext_ctrl : s.resetContext.ctrl = 0 := rfl
@[simp] theorem State.resetContext_pad : s.resetContext.pad = 0 := rfl
@[simp] theorem State.resetContext_tblSel : s.resetContext.tblSel = .matchTable := rfl
@[simp] theorem State.resetContext_pfx : s.resetContext.pfx = 0 := rfl
@[simp] theorem State.resetContext_pfxLen : s.resetContext.pfxLen = 0 := rfl
@[simp] theorem State.resetContext_dist : s.resetContext.dist = 0 := rfl
@[simp] theorem State.resetContext_len : s.resetContext.len = 0 := rfl
@[simp] theorem State.resetContext_extra : s.resetContext.extra = 0 := rfl
@[simp] theorem State.resetContext_count : s.resetContext.count = 0 := rfl
@[simp] theorem State.resetContext_calls : s.resetContext.calls = s.calls := rfl
@[simp] theorem State.resetContext_presented : s.resetContext.presented = s.presented := rfl
@[simp] theorem State.resetContext_phase : s.resetContext.phase = s.phase := rfl
@[simp] theorem State.resetContext_input : s.resetContext.input = s.input := rfl
@[simp] theorem State.resetContext_offset : s.resetContext.offset = s.offset := rfl
@[simp] theorem State.resetContext_cursor : s.resetContext.cursor = s.cursor := rfl
@[simp] theorem State.resetContext_segmentCount : s.resetContext.segmentCount = s.segmentCount := rfl
@[simp] theorem State.resetContext_segIndex : s.resetContext.segIndex = s.segIndex := rfl
@[simp] theorem State.resetContext_uncompressedSize : s.resetContext.uncompressedSize = s.uncompressedSize := rfl
@[simp] theorem State.resetContext_segmentSize : s.resetContext.segmentSize = s.segmentSize := rfl
@[simp] theorem State.resetContext_total : s.resetContext.total = s.total := rfl
@[simp] theorem State.resetContext_result : s.resetContext.result = s.result := rfl
@[simp] theorem State.resetContext_ret : s.resetContext.ret = s.ret := rfl

/-! ### `ringWrite` and `append` -/

@[simp] theorem State.ringWrite_nil : s.ringWrite [] = s := rfl

theorem State.ringWrite_cons (b : Byte) (bs : List Byte) : s.ringWrite (b :: bs) = (s.ringWriteByte b).ringWrite bs := rfl

/-- `ring_write` changes the ring and its index only. -/
theorem State.ringWrite_eq (bs : List Byte) :
    s.ringWrite bs = { s with hist := (s.ringWrite bs).hist, histIdx := (s.ringWrite bs).histIdx } := by
  induction bs generalizing s with
  | nil => rfl
  | cons b bs ih => rw [State.ringWrite_cons, ih]; rfl

@[simp] theorem State.ringWrite_cfg (bs : List Byte) : (s.ringWrite bs).cfg = s.cfg := by rw [State.ringWrite_eq]
@[simp] theorem State.ringWrite_out (bs : List Byte) : (s.ringWrite bs).out = s.out := by rw [State.ringWrite_eq]
@[simp] theorem State.ringWrite_outCnt (bs : List Byte) : (s.ringWrite bs).outCnt = s.outCnt := by rw [State.ringWrite_eq]
@[simp] theorem State.ringWrite_inBytes (bs : List Byte) : (s.ringWrite bs).inBytes = s.inBytes := by rw [State.ringWrite_eq]
@[simp] theorem State.ringWrite_inLen (bs : List Byte) : (s.ringWrite bs).inLen = s.inLen := by rw [State.ringWrite_eq]
@[simp] theorem State.ringWrite_byteCur (bs : List Byte) : (s.ringWrite bs).byteCur = s.byteCur := by rw [State.ringWrite_eq]
@[simp] theorem State.ringWrite_acc (bs : List Byte) : (s.ringWrite bs).acc = s.acc := by rw [State.ringWrite_eq]
@[simp] theorem State.ringWrite_accCnt (bs : List Byte) : (s.ringWrite bs).accCnt = s.accCnt := by rw [State.ringWrite_eq]
@[simp] theorem State.ringWrite_bitsRem (bs : List Byte) : (s.ringWrite bs).bitsRem = s.bitsRem := by rw [State.ringWrite_eq]
@[simp] theorem State.ringWrite_state (bs : List Byte) : (s.ringWrite bs).state = s.state := by rw [State.ringWrite_eq]
@[simp] theorem State.ringWrite_err (bs : List Byte) : (s.ringWrite bs).err = s.err := by rw [State.ringWrite_eq]
@[simp] theorem State.ringWrite_ctrl (bs : List Byte) : (s.ringWrite bs).ctrl = s.ctrl := by rw [State.ringWrite_eq]
@[simp] theorem State.ringWrite_pad (bs : List Byte) : (s.ringWrite bs).pad = s.pad := by rw [State.ringWrite_eq]
@[simp] theorem State.ringWrite_tblSel (bs : List Byte) : (s.ringWrite bs).tblSel = s.tblSel := by rw [State.ringWrite_eq]
@[simp] theorem State.ringWrite_pfx (bs : List Byte) : (s.ringWrite bs).pfx = s.pfx := by rw [State.ringWrite_eq]
@[simp] theorem State.ringWrite_pfxLen (bs : List Byte) : (s.ringWrite bs).pfxLen = s.pfxLen := by rw [State.ringWrite_eq]
@[simp] theorem State.ringWrite_dist (bs : List Byte) : (s.ringWrite bs).dist = s.dist := by rw [State.ringWrite_eq]
@[simp] theorem State.ringWrite_len (bs : List Byte) : (s.ringWrite bs).len = s.len := by rw [State.ringWrite_eq]
@[simp] theorem State.ringWrite_extra (bs : List Byte) : (s.ringWrite bs).extra = s.extra := by rw [State.ringWrite_eq]
@[simp] theorem State.ringWrite_count (bs : List Byte) : (s.ringWrite bs).count = s.count := by rw [State.ringWrite_eq]
@[simp] theorem State.ringWrite_calls (bs : List Byte) : (s.ringWrite bs).calls = s.calls := by rw [State.ringWrite_eq]
@[simp] theorem State.ringWrite_presented (bs : List Byte) : (s.ringWrite bs).presented = s.presented := by rw [State.ringWrite_eq]
@[simp] theorem State.ringWrite_phase (bs : List Byte) : (s.ringWrite bs).phase = s.phase := by rw [State.ringWrite_eq]
@[simp] theorem State.ringWrite_input (bs : List Byte) : (s.ringWrite bs).input = s.input := by rw [State.ringWrite_eq]
@[simp] theorem State.ringWrite_offset (bs : List Byte) : (s.ringWrite bs).offset = s.offset := by rw [State.ringWrite_eq]
@[simp] theorem State.ringWrite_cursor (bs : List Byte) : (s.ringWrite bs).cursor = s.cursor := by rw [State.ringWrite_eq]
@[simp] theorem State.ringWrite_segmentCount (bs : List Byte) : (s.ringWrite bs).segmentCount = s.segmentCount := by rw [State.ringWrite_eq]
@[simp] theorem State.ringWrite_segIndex (bs : List Byte) : (s.ringWrite bs).segIndex = s.segIndex := by rw [State.ringWrite_eq]
@[simp] theorem State.ringWrite_uncompressedSize (bs : List Byte) : (s.ringWrite bs).uncompressedSize = s.uncompressedSize := by rw [State.ringWrite_eq]
@[simp] theorem State.ringWrite_segmentSize (bs : List Byte) : (s.ringWrite bs).segmentSize = s.segmentSize := by rw [State.ringWrite_eq]
@[simp] theorem State.ringWrite_total (bs : List Byte) : (s.ringWrite bs).total = s.total := by rw [State.ringWrite_eq]
@[simp] theorem State.ringWrite_result (bs : List Byte) : (s.ringWrite bs).result = s.result := by rw [State.ringWrite_eq]
@[simp] theorem State.ringWrite_ret (bs : List Byte) : (s.ringWrite bs).ret = s.ret := by rw [State.ringWrite_eq]

@[simp] theorem State.append_cfg (bs : List Byte) : (s.append bs).cfg = s.cfg := by simp [State.append]
@[simp] theorem State.append_out (bs : List Byte) : (s.append bs).out = s.out.writeList noByte s.outCnt bs := by simp [State.append]
@[simp] theorem State.append_outCnt (bs : List Byte) : (s.append bs).outCnt = s.outCnt + bs.length := by simp [State.append]
@[simp] theorem State.append_inBytes (bs : List Byte) : (s.append bs).inBytes = s.inBytes := by simp [State.append]
@[simp] theorem State.append_inLen (bs : List Byte) : (s.append bs).inLen = s.inLen := by simp [State.append]
@[simp] theorem State.append_byteCur (bs : List Byte) : (s.append bs).byteCur = s.byteCur := by simp [State.append]
@[simp] theorem State.append_acc (bs : List Byte) : (s.append bs).acc = s.acc := by simp [State.append]
@[simp] theorem State.append_accCnt (bs : List Byte) : (s.append bs).accCnt = s.accCnt := by simp [State.append]
@[simp] theorem State.append_bitsRem (bs : List Byte) : (s.append bs).bitsRem = s.bitsRem := by simp [State.append]
@[simp] theorem State.append_state (bs : List Byte) : (s.append bs).state = s.state := by simp [State.append]
@[simp] theorem State.append_err (bs : List Byte) : (s.append bs).err = s.err := by simp [State.append]
@[simp] theorem State.append_ctrl (bs : List Byte) : (s.append bs).ctrl = s.ctrl := by simp [State.append]
@[simp] theorem State.append_pad (bs : List Byte) : (s.append bs).pad = s.pad := by simp [State.append]
@[simp] theorem State.append_tblSel (bs : List Byte) : (s.append bs).tblSel = s.tblSel := by simp [State.append]
@[simp] theorem State.append_pfx (bs : List Byte) : (s.append bs).pfx = s.pfx := by simp [State.append]
@[simp] theorem State.append_pfxLen (bs : List Byte) : (s.append bs).pfxLen = s.pfxLen := by simp [State.append]
@[simp] theorem State.append_dist (bs : List Byte) : (s.append bs).dist = s.dist := by simp [State.append]
@[simp] theorem State.append_len (bs : List Byte) : (s.append bs).len = s.len := by simp [State.append]
@[simp] theorem State.append_extra (bs : List Byte) : (s.append bs).extra = s.extra := by simp [State.append]
@[simp] theorem State.append_count (bs : List Byte) : (s.append bs).count = s.count := by simp [State.append]
@[simp] theorem State.append_calls (bs : List Byte) : (s.append bs).calls = s.calls := by simp [State.append]
@[simp] theorem State.append_presented (bs : List Byte) : (s.append bs).presented = s.presented := by simp [State.append]
@[simp] theorem State.append_phase (bs : List Byte) : (s.append bs).phase = s.phase := by simp [State.append]
@[simp] theorem State.append_input (bs : List Byte) : (s.append bs).input = s.input := by simp [State.append]
@[simp] theorem State.append_offset (bs : List Byte) : (s.append bs).offset = s.offset := by simp [State.append]
@[simp] theorem State.append_cursor (bs : List Byte) : (s.append bs).cursor = s.cursor := by simp [State.append]
@[simp] theorem State.append_segmentCount (bs : List Byte) : (s.append bs).segmentCount = s.segmentCount := by simp [State.append]
@[simp] theorem State.append_segIndex (bs : List Byte) : (s.append bs).segIndex = s.segIndex := by simp [State.append]
@[simp] theorem State.append_uncompressedSize (bs : List Byte) : (s.append bs).uncompressedSize = s.uncompressedSize := by simp [State.append]
@[simp] theorem State.append_segmentSize (bs : List Byte) : (s.append bs).segmentSize = s.segmentSize := by simp [State.append]
@[simp] theorem State.append_total (bs : List Byte) : (s.append bs).total = s.total := by simp [State.append]
@[simp] theorem State.append_result (bs : List Byte) : (s.append bs).result = s.result := by simp [State.append]
@[simp] theorem State.append_ret (bs : List Byte) : (s.append bs).ret = s.ret := by simp [State.append]

theorem State.append_hist (bs : List Byte) : (s.append bs).hist = (s.ringWrite bs).hist := by
  have key : ∀ (bs : List Byte) (s t : State), s.hist = t.hist → s.histIdx = t.histIdx → s.cfg = t.cfg →
      (s.ringWrite bs).hist = (t.ringWrite bs).hist := by
    intro bs
    induction bs with
    | nil => intro s t h _ _; exact h
    | cons b bs ih => intro s t h1 h2 h3; exact ih _ _ (by simp [h1, h2, h3]) (by simp [h2, h3]) (by simp [h3])
  exact key _ _ _ rfl rfl rfl

theorem State.append_histIdx (bs : List Byte) : (s.append bs).histIdx = (s.ringWrite bs).histIdx := by
  have key : ∀ (bs : List Byte) (s t : State), s.histIdx = t.histIdx → s.cfg = t.cfg →
      (s.ringWrite bs).histIdx = (t.ringWrite bs).histIdx := by
    intro bs
    induction bs with
    | nil => intro s t h _; exact h
    | cons b bs ih => intro s t h2 h3; exact ih _ _ (by simp [h2, h3]) (by simp [h3])
  exact key _ _ _ rfl rfl

end Sys2Proof.Machine
end

