-- ==== Sys2Proof/Laws/Ops.lean ====
section
/-! SUPPORT. One lemma per shared operation that says once everything it can do. -/

namespace Sys2Proof.Machine

/-- `MemRead(IN, a, n)` answers the presented bytes, unchanged state, or stops at the first absent byte. -/
theorem readInput_cases (a n : Nat) (s : State) :
    (a + n ≤ s.inBytes.length ∧ readInput a n s = .ok ((s.inBytes.drop a).take n) s) ∨
      ((s.inBytes.drop a).take n).length < n ∧
        readInput a n s = .stop (.fault (.noSuchAddress .input (a + ((s.inBytes.drop a).take n).length))) s ∨
      (n = 0 ∧ readInput a n s = .ok [] s) := by
  unfold readInput
  by_cases h : ((s.inBytes.drop a).take n).length = n
  · rw [if_pos h]
    by_cases hn : n = 0
    · subst hn; simp
    · left
      simp only [List.length_take, List.length_drop] at h
      exact ⟨by omega, rfl⟩
  · rw [if_neg h]
    right; left
    refine ⟨?_, rfl⟩
    simp only [List.length_take, List.length_drop] at h ⊢
    omega

/-- The refill moves whole bytes from `IN` into the accumulator; nothing else changes (rules R121, R130). -/
theorem refill_cases (n fuel : Nat) (s : State) :
    (∃ t, refill n fuel s = .ok () t ∧ t = { s with acc := t.acc, byteCur := t.byteCur, accCnt := t.accCnt } ∧
        s.byteCur ≤ t.byteCur ∧ t.accCnt + 8 * s.byteCur = s.accCnt + 8 * t.byteCur ∧
        (n ≤ s.accCnt + 8 * fuel → n ≤ t.accCnt) ∧ (t.byteCur = s.byteCur ∨ t.accCnt < n + 8)) ∨
      ∃ t, refill n fuel s = .stop (.fault (.noSuchAddress .input t.byteCur)) t ∧
        s.inBytes.length ≤ t.byteCur ∧ s.byteCur ≤ t.byteCur ∧ s.accCnt + 8 * (t.byteCur - s.byteCur) < n := by
  induction fuel generalizing s with
  | zero => exact .inl ⟨s, rfl, rfl, le_rfl, rfl, by simp, .inl rfl⟩
  | succ fuel ih =>
    rw [refill]
    by_cases h : s.accCnt < n
    · rw [if_pos h]
      cases hb : s.inBytes[s.byteCur]? with
      | none =>
        refine .inr ⟨s, rfl, ?_, le_rfl, by simpa using h⟩
        simpa using hb
      | some b =>
        rcases ih (s.pushByte b) with ⟨t, h1, h2, h3, h4, h5, h6⟩ | ⟨t, h1, h2, h3, h4⟩
        · refine .inl ⟨t, h1, ?_, ?_, ?_, ?_, ?_⟩
          · rw [h2]; rfl
          · simp only [State.pushByte_byteCur] at h3; omega
          · simp only [State.pushByte_byteCur, State.pushByte_accCnt] at h4; omega
          · simp only [State.pushByte_accCnt] at h5; intro hn; exact h5 (by omega)
          · right
            simp only [State.pushByte_byteCur, State.pushByte_accCnt] at h4 h6
            rcases h6 with h6 | h6
            · omega
            · exact h6
        · refine .inr ⟨t, h1, h2, ?_, ?_⟩
          · simp only [State.pushByte_byteCur] at h3; omega
          · simp only [State.pushByte_byteCur, State.pushByte_accCnt] at h3 h4; omega
    · rw [if_neg h]
      exact .inl ⟨s, rfl, rfl, le_rfl, rfl, fun _ => by omega, .inl rfl⟩

/-- What `get_bits` can do (rules R121, R122, R131). -/
theorem getBits_cases (n : Nat) (s : State) :
    (nMax < n ∧ getBits n s = .stop (.refuse (.getBitsTooWide n)) s) ∨
      (n ≤ nMax ∧ (s.bitsRem < n ∨ 8 * (s.inLen - s.byteCur) + s.accCnt < n) ∧
        getBits n s = .stop (.raise .bitstreamExhausted) s) ∨
      (n ≤ nMax ∧ n ≤ s.bitsRem ∧ n ≤ 8 * (s.inLen - s.byteCur) + s.accCnt ∧
        ((∃ t, refill n 3 s = .ok () t ∧ getBits n s = .ok (t.accTop n) (t.dropBits n)) ∨
          ∃ e t, refill n 3 s = .stop e t ∧ getBits n s = .stop e t)) := by
  unfold getBits
  by_cases h1 : nMax < n
  · exact .inl ⟨h1, by simp [h1]⟩
  rw [if_neg h1]
  by_cases h2 : s.bitsRem < n
  · exact .inr (.inl ⟨by omega, .inl h2, by simp [h2]⟩)
  rw [if_neg h2]
  by_cases h3 : 8 * (s.inLen - s.byteCur) + s.accCnt < n
  · exact .inr (.inl ⟨by omega, .inr h3, by simp [h3]⟩)
  rw [if_neg h3]
  refine .inr (.inr ⟨by omega, by omega, by omega, ?_⟩)
  cases hr : refill n 3 s with
  | ok u t => exact .inl ⟨t, rfl, rfl⟩
  | stop e t => exact .inr ⟨e, t, rfl, rfl⟩

/-- A successful `get_bits` touches the accumulator, its count, the cursor and the budget only (rule R130). -/
theorem getBits_frame {n : Nat} {s t : State} {v : Nat} (h : getBits n s = .ok v t) :
    t = { s with acc := t.acc, byteCur := t.byteCur, accCnt := t.accCnt, bitsRem := s.bitsRem - n } ∧
      n ≤ s.bitsRem ∧ s.byteCur ≤ t.byteCur := by
  rcases getBits_cases n s with ⟨_, h'⟩ | ⟨_, _, h'⟩ | ⟨_, hn, _, ⟨r, hr, h'⟩ | ⟨e, r, _, h'⟩⟩
  · rw [h'] at h; cases h
  · rw [h'] at h; cases h
  · rw [h'] at h; cases h
    rcases refill_cases n 3 s with ⟨t, h1, h2, h3, _⟩ | ⟨t, h1, _⟩
    · rw [hr] at h1; cases h1
      exact ⟨by rw [h2]; rfl, hn, h3⟩
    · rw [hr] at h1; cases h1
  · rw [h'] at h; cases h

/-- What `copy_raw_advance` can do (rule R125). -/
theorem copyRawAdvance_cases (n : Nat) (s : State) :
    ((s.inLen - s.byteCur < n ∨ s.bitsRem < 8 * n) ∧
        copyRawAdvance n s = .stop (.raise .bitstreamExhausted) s) ∨
      (n ≤ s.inLen - s.byteCur ∧ 8 * n ≤ s.bitsRem ∧
        ((∃ bytes, readInput s.byteCur n s = .ok bytes s ∧ bytes.length = n ∧
            copyRawAdvance n s = .ok bytes { s with byteCur := s.byteCur + n, bitsRem := s.bitsRem - 8 * n }) ∨
          ∃ f, readInput s.byteCur n s = .stop (.fault f) s ∧ copyRawAdvance n s = .stop (.fault f) s)) := by
  unfold copyRawAdvance
  by_cases h1 : s.inLen - s.byteCur < n
  · exact .inl ⟨.inl h1, by simp [h1]⟩
  rw [if_neg h1]
  by_cases h2 : s.bitsRem < 8 * n
  · exact .inl ⟨.inr h2, by simp [h2]⟩
  rw [if_neg h2]
  refine .inr ⟨by omega, by omega, ?_⟩
  rcases readInput_cases s.byteCur n s with ⟨hl, h⟩ | ⟨_, h⟩ | ⟨hn, h⟩
  · exact .inl ⟨_, h, by simp only [List.length_take, List.length_drop]; omega, by rw [h]; rfl⟩
  · exact .inr ⟨_, h, by rw [h]; rfl⟩
  · exact .inl ⟨[], h, by simp [hn], by rw [h]; rfl⟩

/-- What `emit` can do (rule R208). -/
theorem emit_cases (bytes : List Byte) (s : State) :
    (outCap - s.outCnt < bytes.length ∧ emit bytes s = .stop (.raise .outputCapacityExceeded) s) ∨
      (bytes.length ≤ outCap - s.outCnt ∧ emit bytes s = .ok () (s.append bytes)) := by
  unfold emit
  by_cases h : outCap - s.outCnt < bytes.length
  · exact .inl ⟨h, by simp [h]⟩
  · exact .inr ⟨by omega, by simp [h]⟩

/-- The end of a token's meaning. -/
theorem emitAndLoop_cases (bytes : List Byte) (s : State) :
    (outCap - s.outCnt < bytes.length ∧
        outcomeOf (emitAndLoop bytes s) = .next (s.enterFailed .outputCapacityExceeded)) ∨
      (bytes.length ≤ outCap - s.outCnt ∧ outcomeOf (emitAndLoop bytes s) = .next (s.append bytes).loopTest) := by
  unfold emitAndLoop
  rcases emit_cases bytes s with ⟨h, e⟩ | ⟨h, e⟩
  · exact .inl ⟨h, by rw [e]; rfl⟩
  · exact .inr ⟨h, by rw [e]; rfl⟩

/-- What a literal token can do (rules R208, R228). -/
theorem literalToken_cases (e : Token) (s : State) :
    (outCap ≤ s.outCnt ∧
        literalToken e s = .next ((s.walked .literalTable e).enterFailed .outputCapacityExceeded)) ∨
      (s.outCnt < outCap ∧
        literalToken e s =
          .next ((s.walked .literalTable e).append [BitVec.ofNat 8 e.base]).loopTest) := by
  unfold literalToken
  rcases emitAndLoop_cases [BitVec.ofNat 8 e.base] (s.walked .literalTable e) with ⟨h, e'⟩ | ⟨h, e'⟩
  · simp only [State.walked_outCnt, List.length_singleton] at h
    exact .inl ⟨by omega, e'⟩
  · simp only [State.walked_outCnt, List.length_singleton] at h
    exact .inr ⟨by omega, e'⟩

@[simp] theorem matchBytes_length (s : State) (d l : Nat) : (s.matchBytes d l).length = l := by
  simp [State.matchBytes]

/-- What `match_copy` with its capacity check can do (rules R204, R232). -/
theorem matchCopy_cases (d l : Nat) (s : State) :
    (outCap - s.outCnt < l ∧ outcomeOf (matchCopy d l s) = .next (s.enterFailed .outputCapacityExceeded)) ∨
      (l ≤ outCap - s.outCnt ∧ outcomeOf (matchCopy d l s) = .next (s.append (s.matchBytes d l)).loopTest) := by
  unfold matchCopy
  by_cases h : outCap - s.outCnt < l
  · exact .inl ⟨h, by simp [h]⟩
  · rw [if_neg h]
    rcases emitAndLoop_cases (s.matchBytes d l) s with ⟨h', _⟩ | ⟨_, e⟩
    · rw [matchBytes_length] at h'; omega
    · exact .inr ⟨by omega, e⟩

/-- What a match token can do (rules R229 to R232). -/
theorem matchToken_cases (e : Token) (x : Nat) (len : LengthCode) (s : State) :
    (distanceOf e x = 0 ∧ matchToken e x len s = .refused .zeroDistanceMatch) ∨
      (distanceOf e x ≠ 0 ∧ (len = .overrun ∨ outCap - s.outCnt < (lengthOf len s.extra).1) ∧
        matchToken e x len s = .next ((s.matchOperands e x len).enterFailed .outputCapacityExceeded)) ∨
      (distanceOf e x ≠ 0 ∧ len ≠ .overrun ∧ (lengthOf len s.extra).1 ≤ outCap - s.outCnt ∧
        matchToken e x len s =
          .next ((s.matchOperands e x len).append
            ((s.matchOperands e x len).matchBytes (distanceOf e x) (lengthOf len s.extra).1)).loopTest) := by
  unfold matchToken
  by_cases h : distanceOf e x = 0
  · exact .inl ⟨h, by simp [h]⟩
  rw [if_neg h]
  right
  cases len with
  | overrun => exact .inl ⟨h, .inl rfl, rfl⟩
  | three =>
    rcases matchCopy_cases (distanceOf e x) 3 (s.matchOperands e x .three) with ⟨h', e'⟩ | ⟨h', e'⟩
    · exact .inl ⟨h, .inr h', e'⟩
    · exact .inr ⟨h, by simp, h', e'⟩
  | ext k w =>
    rcases matchCopy_cases (distanceOf e x) (2 ^ k + w) (s.matchOperands e x (.ext k w)) with ⟨h', e'⟩ | ⟨h', e'⟩
    · exact .inl ⟨h, .inr h', e'⟩
    · exact .inr ⟨h, by simp, h', e'⟩

/-- What an unencoded run can do after its count (rule R233). -/
theorem copyRun_cases (n : Nat) (s : State) :
    (outCap - s.outCnt < n ∧
        outcomeOf (copyRun n s) = .next (s.realign.enterFailed .outputCapacityExceeded)) ∨
      (n ≤ outCap - s.outCnt ∧ (s.inLen - s.byteCur < n ∨ s.realign.bitsRem < 8 * n) ∧
        outcomeOf (copyRun n s) = .next (s.realign.enterFailed .bitstreamExhausted)) ∨
      (n ≤ outCap - s.outCnt ∧ n ≤ s.inLen - s.byteCur ∧ 8 * n ≤ s.realign.bitsRem ∧
        ((∃ bytes, readInput s.byteCur n s.realign = .ok bytes s.realign ∧ bytes.length = n ∧
            outcomeOf (copyRun n s) =
              .next (State.append { s.realign with byteCur := s.byteCur + n,
                                                   bitsRem := s.realign.bitsRem - 8 * n } bytes).loopTest) ∨
          ∃ f, readInput s.byteCur n s.realign = .stop (.fault f) s.realign ∧
            outcomeOf (copyRun n s) = .fault f)) := by
  unfold copyRun
  by_cases h : outCap - s.outCnt < n
  · exact .inl ⟨h, by simp [h]⟩
  right
  dsimp only
  rw [State.realign_outCnt, if_neg h]
  rcases copyRawAdvance_cases n s.realign with ⟨h1, e⟩ | ⟨h1, h2, ⟨bytes, h3, h4, e⟩ | ⟨f, h3, e⟩⟩
  · exact .inl ⟨by omega, h1, by rw [e]; rfl⟩
  · refine .inr ⟨by omega, h1, h2, .inl ⟨bytes, h3, h4, ?_⟩⟩
    rw [e]
    rcases emitAndLoop_cases bytes { s.realign with byteCur := s.byteCur + n, bitsRem := s.realign.bitsRem - 8 * n }
      with ⟨h', _⟩ | ⟨_, e'⟩
    · exact absurd h' (by rw [h4]; exact h)
    · exact e'
  · exact .inr ⟨by omega, h1, h2, .inr ⟨f, h3, by rw [e]; rfl⟩⟩

/-- What unmatched bits do (rules R143, R287). -/
theorem unmatchedToken_eq (t : TableSel) (p n : Nat) (s : State) :
    unmatchedToken t p n s = .next ((s.walkedOff t p n).enterFailed .unmatchedCode) := rfl

/-! ### Forms -/

@[simp] theorem execForm_row (i : Instr) (s : State) : execForm (.row i) s = exec i s := rfl
@[simp] theorem execForm_literal (e : Token) (s : State) : execForm (.literal e) s = literalToken e s := rfl
@[simp] theorem execForm_copy (e : Token) (x : Nat) (len : LengthCode) (s : State) :
    execForm (.copy e x len) s = matchToken e x len s := rfl
@[simp] theorem execForm_run (e : Token) (c : BitVec 15) (s : State) :
    execForm (.run e c) s = runToken e c.toNat s := rfl
@[simp] theorem execForm_unmatched (t : TableSel) (p n : Nat) (s : State) :
    execForm (.unmatched t p n) s = unmatchedToken t p n s := rfl

/-- What a segment start can do (rules R220, R313). -/
theorem startSegment_cases (s : State) :
    (s.busy = true ∧ startSegment s = .stop (.refuse .startWhileBusy) s) ∨
      (s.busy = false ∧ 2 ^ 32 ≤ (s.presented.getD []).length ∧
        startSegment s = .stop (.refuse .segmentTooLong) s) ∨
      (s.busy = false ∧ s.presented.getD [] = [] ∧
        startSegment s =
          .stop (.raise .bitstreamExhausted) { s with presented := none, outCnt := 0, err := none }) ∨
      (s.busy = false ∧ 1 ≤ (s.presented.getD []).length ∧ (s.presented.getD []).length < 2 ^ 32 ∧
        startSegment s = .ok (s.presented.getD []) { s with presented := none, outCnt := 0, err := none }) := by
  unfold startSegment
  cases hb : s.busy with
  | true => exact .inl ⟨rfl, by simp⟩
  | false =>
    right
    rw [if_neg (by simp)]
    dsimp only
    by_cases h1 : 2 ^ 32 ≤ (s.presented.getD []).length
    · exact .inl ⟨rfl, h1, by rw [if_pos h1]⟩
    · right
      rw [if_neg h1]
      by_cases h2 : (s.presented.getD []).length < 1
      · refine .inl ⟨rfl, ?_, by rw [if_pos h2]⟩
        exact List.eq_nil_of_length_eq_zero (by omega)
      · exact .inr ⟨rfl, by omega, by omega, by rw [if_neg h2]⟩

end Sys2Proof.Machine
end

