-- ==== Sys2Proof/Laws/Host.lean ====
section
/-! SUPPORT. One lemma per operation of the segment header and of the host that says once everything it can do. -/

namespace Sys2Proof.Machine

/-- What `copy_raw` can do (rule R124). -/
theorem copyRaw_cases (n : Nat) (s : State) :
    (s.inLen - s.byteCur < n ∧ copyRaw n s = .stop (.raise .bitstreamExhausted) s) ∨
      (n ≤ s.inLen - s.byteCur ∧ copyRaw n s = readInput s.byteCur n s) := by
  unfold copyRaw
  by_cases h : s.inLen - s.byteCur < n
  · exact .inl ⟨h, if_pos h⟩
  · exact .inr ⟨by omega, if_neg h⟩

/-- What the header checks of a compressed segment can do (rule R223). -/
theorem openBitstream_cases (seg : List Byte) (s : State) :
    (seg.length < 2 ∧ openBitstream seg s = .stop (.raise .bitstreamExhausted) s) ∨
      (2 ≤ seg.length ∧ (7 < (seg.getLastD 0).toNat ∨ 8 * (seg.length - 2) < (seg.getLastD 0).toNat) ∧
        openBitstream seg s = .stop (.raise .invalidPadIndicator) { s with pad := seg.getLastD 0 }) ∨
      (2 ≤ seg.length ∧ (seg.getLastD 0).toNat ≤ 7 ∧ (seg.getLastD 0).toNat ≤ 8 * (seg.length - 2) ∧
        openBitstream seg s =
          .ok () (State.initReader { s with pad := seg.getLastD 0 } (bitstreamBytes seg)
            (bitBudget seg.length (seg.getLastD 0).toNat))) := by
  unfold openBitstream
  by_cases h : seg.length < 2
  · exact .inl ⟨h, if_pos h⟩
  rw [if_neg h]
  dsimp only
  by_cases h1 : 7 < (seg.getLastD 0).toNat
  · exact .inr (.inl ⟨by omega, .inl h1, if_pos h1⟩)
  rw [if_neg h1]
  by_cases h2 : 8 * (seg.length - 2) < (seg.getLastD 0).toNat
  · exact .inr (.inl ⟨by omega, .inr h2, if_pos h2⟩)
  · exact .inr (.inr ⟨by omega, by omega, by omega, if_neg h2⟩)

/-- What `SEG_RAW` can do (rules R220, R222). -/
theorem rawSegment_cases (ctrl : Byte) (s : State) :
    (∃ e t, startSegment s = .stop e t ∧ execSegRaw ctrl s = stopOutcome e t) ∨
      ∃ seg t, startSegment s = .ok seg t ∧
        ((outCap - t.outCnt < (rawBody seg).length ∧
            execSegRaw ctrl s = .next (State.enterFailed { t with ctrl := ctrl } .outputCapacityExceeded)) ∨
          ((rawBody seg).length ≤ outCap - t.outCnt ∧
            execSegRaw ctrl s = .next { State.append { t with ctrl := ctrl } (rawBody seg) with state := .done })) := by
  unfold execSegRaw rawSegment
  cases h : startSegment s with
  | stop e t => exact .inl ⟨e, t, rfl, rfl⟩
  | ok seg t =>
    refine .inr ⟨seg, t, rfl, ?_⟩
    rcases emit_cases (rawBody seg) { t with ctrl := ctrl } with ⟨h1, e⟩ | ⟨h1, e⟩
    · exact .inl ⟨h1, by rw [Res.bind_of_ok, e]; rfl⟩
    · exact .inr ⟨h1, by rw [Res.bind_of_ok, e]; rfl⟩

/-- What `SEG_COMP` can do (rules R220, R223, R224). -/
theorem compressedSegment_cases (ctrl : Byte) (s : State) :
    (∃ e t, startSegment s = .stop e t ∧ execSegComp ctrl s = stopOutcome e t) ∨
      ∃ seg t, startSegment s = .ok seg t ∧
        ((∃ e u, openBitstream seg { t with ctrl := ctrl } = .stop e u ∧ execSegComp ctrl s = stopOutcome e u) ∨
          ∃ u, openBitstream seg { t with ctrl := ctrl } = .ok () u ∧ execSegComp ctrl s = .next u.loopTest) := by
  unfold execSegComp compressedSegment
  cases h : startSegment s with
  | stop e t => exact .inl ⟨e, t, rfl, rfl⟩
  | ok seg t =>
    refine .inr ⟨seg, t, rfl, ?_⟩
    rw [Res.bind_of_ok]
    cases h1 : openBitstream seg { t with ctrl := ctrl } with
    | stop e u => exact .inl ⟨e, u, rfl, rfl⟩
    | ok a u => exact .inr ⟨u, rfl, rfl⟩

/-- What the head of the multipart loop can do (rules R265, R266). -/
theorem nextSegment_cases (s : State) :
    (s.segIndex < s.segmentCount ∧
        (s.input.length < s.cursor + 4 ∧ s.nextSegment = s.hostRaise .bitstreamExhausted ∨
          s.cursor + 4 ≤ s.input.length ∧ s.input.length < s.cursor + 4 + inputField s.input s.cursor 4 ∧
            s.nextSegment =
              State.hostRaise { s with segmentSize := inputField s.input s.cursor 4, cursor := s.cursor + 4 }
                .bitstreamExhausted ∨
          s.cursor + 4 + inputField s.input s.cursor 4 ≤ s.input.length ∧
            s.nextSegment =
              { s with segmentSize := inputField s.input s.cursor 4, cursor := s.cursor + 4,
                       presented := some ((s.input.drop (s.cursor + 4)).take (inputField s.input s.cursor 4)),
                       phase := .multiWait })) ∨
      (s.segmentCount ≤ s.segIndex ∧ s.nextSegment = s.closeFrame) := by
  unfold State.nextSegment
  by_cases h : s.segIndex < s.segmentCount
  · refine .inl ⟨h, ?_⟩
    rw [if_pos h]
    dsimp only
    by_cases h1 : s.input.length < s.cursor + 4
    · exact .inl ⟨h1, if_pos h1⟩
    rw [if_neg h1]
    by_cases h2 : s.input.length < s.cursor + 4 + inputField s.input s.cursor 4
    · exact .inr (.inl ⟨by omega, h2, if_pos h2⟩)
    · exact .inr (.inr ⟨by omega, if_neg h2⟩)
  · exact .inr ⟨by omega, if_neg h⟩

/-- What the end of the multipart loop can do (rule R266). -/
theorem closeFrame_cases (s : State) :
    (s.closeFrame = s.hostReturn (.ok s.result) ∧ (s.total = s.uncompressedSize ∨ s.cfg.underrun = .short)) ∨
      (s.closeFrame = s.hostRaise .outputCapacityExceeded ∧ s.total ≠ s.uncompressedSize ∧ s.cfg.underrun = .fail) := by
  unfold State.closeFrame
  by_cases h : s.total = s.uncompressedSize
  · exact .inl ⟨if_pos h, .inl h⟩
  · rw [if_neg h]
    cases hu : s.cfg.underrun
    · exact .inr ⟨rfl, h, rfl⟩
    · exact .inl ⟨rfl, .inr rfl⟩

/-- What the end of a single frame can do (rule R263). -/
theorem collectSingle_cases (s : State) :
    (s.state = .failed ∧ collectSingle s = .next (s.hostReturn (.error s.err))) ∨
      (s.state ≠ .failed ∧ ∃ bytes, s.outBytes = .ok bytes ∧ collectSingle s = .next (s.hostReturn (.ok bytes))) ∨
      (s.state ≠ .failed ∧ ∃ f, s.outBytes = .error f ∧ collectSingle s = .fault f) := by
  unfold collectSingle State.isFailed
  by_cases h : s.state = .failed
  · exact .inl ⟨h, if_pos (by simp [h])⟩
  · right
    rw [if_neg (by simpa using h)]
    cases hb : s.outBytes with
    | ok bytes => exact .inl ⟨h, bytes, rfl, rfl⟩
    | error f => exact .inr ⟨h, f, rfl, rfl⟩

/-- What the end of a multipart frame's segment can do (rule R265). -/
theorem collectMulti_cases (s : State) :
    (s.state = .failed ∧ collectMulti s = .next (s.hostReturn (.error s.err))) ∨
      (s.state ≠ .failed ∧ s.uncompressedSize < s.total + s.outCnt ∧
        collectMulti s = .next (State.hostRaise { s with cursor := s.cursor + s.segmentSize } .outputCapacityExceeded)) ∨
      (s.state ≠ .failed ∧ s.total + s.outCnt ≤ s.uncompressedSize ∧ ∃ bytes, s.outBytes = .ok bytes ∧
        collectMulti s =
          .next { s with cursor := s.cursor + s.segmentSize, result := s.result ++ bytes,
                         total := s.total + s.outCnt, segIndex := s.segIndex + 1, phase := .multiNext }) ∨
      (s.state ≠ .failed ∧ s.total + s.outCnt ≤ s.uncompressedSize ∧ ∃ f, s.outBytes = .error f ∧
        collectMulti s = .fault f) := by
  unfold collectMulti State.isFailed
  by_cases h : s.state = .failed
  · exact .inl ⟨h, if_pos (by simp [h])⟩
  right
  rw [if_neg (by simpa using h)]
  dsimp only
  by_cases h1 : s.uncompressedSize < s.total + s.outCnt
  · exact .inl ⟨h, h1, if_pos h1⟩
  right
  rw [if_neg h1]
  have hs : State.outBytes { s with cursor := s.cursor + s.segmentSize } = s.outBytes := rfl
  rw [hs]
  cases hb : s.outBytes with
  | ok bytes => exact .inl ⟨h, by omega, bytes, rfl, rfl⟩
  | error f => exact .inr ⟨h, by omega, f, rfl, rfl⟩

/-- What a session reset can do (rules R310, R311). -/
theorem sessionReset_cases (s : State) :
    (s.busy = true ∧ sessionReset s = .refused .resetWhileBusy) ∨
      (s.busy = false ∧ sessionReset s = .next s.resetContext) := by
  unfold sessionReset
  cases hb : s.busy with
  | true => exact .inl ⟨rfl, if_pos rfl⟩
  | false => exact .inr ⟨rfl, if_neg (by simp)⟩

/-- What the head of the multipart loop can do (rules R265, R314). -/
theorem fetchLoop_cases (s : State) :
    (∃ rest, s.calls = .resetInFrame s.segIndex :: rest ∧
        fetchLoop s = .done (sessionReset { s with calls := rest })) ∨
      ((∀ rest, s.calls ≠ .resetInFrame s.segIndex :: rest) ∧ fetchLoop s = .done (.next s.nextSegment)) := by
  unfold fetchLoop
  cases hc : s.calls with
  | nil => exact .inr ⟨fun _ h => (by cases h), rfl⟩
  | cons c rest =>
    cases c with
    | resetInFrame n =>
      by_cases h : s.segIndex = n
      · subst h; exact .inl ⟨rest, rfl, if_pos rfl⟩
      · exact .inr ⟨fun _ h' => by cases h'; exact h rfl, if_neg h⟩
    | decompress b o => exact .inr ⟨fun _ h => (by cases h), rfl⟩
    | segment b => exact .inr ⟨fun _ h => (by cases h), rfl⟩
    | sessionReset => exact .inr ⟨fun _ h => (by cases h), rfl⟩

/-! ### What a step can begin with -/

theorem step_of_fetch_run {s t : State} {f : Form} (h : fetch s = .run f t) : step s = execForm f t := by
  unfold step; rw [h]

theorem step_of_fetch_done {s : State} {o : Outcome} (h : fetch s = .done o) : step s = o := by
  unfold step; rw [h]

/-- A step at a token boundary (rules R225, R287, U15). -/
theorem step_token_cases {s : State} (h : s.state = .readSelector) :
    (s.cfg.tablesLegal = false ∧ step s = .refused .illegalTables) ∨
      (s.cfg.tablesLegal = true ∧
        ((∃ f t, decodeTokenWith bitReader s.cfg s = .ok f t ∧ step s = execForm f t) ∨
          ∃ e t, decodeTokenWith bitReader s.cfg s = .stop e t ∧ step s = stopOutcome e t)) := by
  have hf : fetch s = fetchToken s := by unfold fetch; rw [h]
  unfold fetchToken at hf
  cases hl : s.cfg.tablesLegal with
  | false => rw [hl] at hf; exact .inl ⟨rfl, step_of_fetch_done (hf.trans (if_neg (by simp)))⟩
  | true =>
    rw [hl, if_pos rfl] at hf
    refine .inr ⟨rfl, ?_⟩
    cases hd : decodeTokenWith bitReader s.cfg s with
    | ok f t => rw [hd] at hf; exact .inl ⟨f, t, rfl, step_of_fetch_run hf⟩
    | stop e t => rw [hd] at hf; exact .inr ⟨e, t, rfl, step_of_fetch_done hf⟩

/-- A step of an idle core is the host's (rules R270, R294). -/
theorem fetch_idle {s : State} (h : s.busy = false) : fetch s = fetchHost s := by
  unfold State.busy at h
  unfold fetch
  cases hs : s.state <;> rw [hs] at h <;> first | rfl | exact absurd h (by decide)

end Sys2Proof.Machine
end

