-- ==== Sys2Proof/Laws/PerInstr.lean ====
section
/-! SUPPORT. The families of statements made per instruction: how long the encoding is. -/

namespace Sys2Proof.Laws.EncodedLength

open Sys2Proof Sys2Proof.Machine

/-- The encoding of a well-formed instruction has the length that rule R103 gives it. -/
def Statement (i : Instr) : Prop := i.wellFormed = true → (encode i).length = bitLength i

theorem length_encodeLength {len : LengthCode} (h : len.wellFormed = true) :
    (encodeLength len).length = lengthBits len := by
  cases len with
  | three => rfl
  | overrun => rfl
  | ext e w =>
    simp only [LengthCode.wellFormed, Bool.and_eq_true, decide_eq_true_eq] at h
    simp only [encodeLength, lengthBits, List.length_append, List.length_replicate, List.length_cons, natToBits_length]
    omega

theorem lit8 (v : BitVec 8) : Statement (.lit8 v) := fun _ => by simp [encode, bitLength]
theorem litc00 : Statement .litc00 := fun _ => rfl
theorem litc01 : Statement .litc01 := fun _ => rfl
theorem litc02 : Statement .litc02 := fun _ => rfl
theorem litc03 : Statement .litc03 := fun _ => rfl
theorem litcFF : Statement .litcFF := fun _ => rfl
theorem litc04 : Statement .litc04 := fun _ => rfl
theorem litc05 : Statement .litc05 := fun _ => rfl
theorem litc06 : Statement .litc06 := fun _ => rfl
theorem litc07 : Statement .litc07 := fun _ => rfl
theorem litc08 : Statement .litc08 := fun _ => rfl
theorem litc09 : Statement .litc09 := fun _ => rfl
theorem litc0A : Statement .litc0A := fun _ => rfl
theorem litc0B : Statement .litc0B := fun _ => rfl
theorem litc3A : Statement .litc3A := fun _ => rfl
theorem litc3B : Statement .litc3B := fun _ => rfl
theorem litc3C : Statement .litc3C := fun _ => rfl
theorem litc3D : Statement .litc3D := fun _ => rfl
theorem litc3E : Statement .litc3E := fun _ => rfl
theorem litc3F : Statement .litc3F := fun _ => rfl
theorem litc40 : Statement .litc40 := fun _ => rfl
theorem litc80 : Statement .litc80 := fun _ => rfl
theorem litc0C : Statement .litc0C := fun _ => rfl
theorem litc38 : Statement .litc38 := fun _ => rfl
theorem litc39 : Statement .litc39 := fun _ => rfl
theorem litc66 : Statement .litc66 := fun _ => rfl

theorem matchC0 (x : BitVec 5) (len : LengthCode) : Statement (.matchC0 x len) := fun h => by
  simp [encode, bitLength, length_encodeLength (by simp only [Instr.wellFormed, Bool.and_eq_true] at h; exact h.2)]; omega
theorem matchC1 (x : BitVec 7) (len : LengthCode) : Statement (.matchC1 x len) := fun h => by
  simp [encode, bitLength, length_encodeLength h]; omega
theorem matchC2 (x : BitVec 9) (len : LengthCode) : Statement (.matchC2 x len) := fun h => by
  simp [encode, bitLength, length_encodeLength h]; omega
theorem matchC3 (x : BitVec 10) (len : LengthCode) : Statement (.matchC3 x len) := fun h => by
  simp [encode, bitLength, length_encodeLength h]; omega
theorem matchC4 (x : BitVec 12) (len : LengthCode) : Statement (.matchC4 x len) := fun h => by
  simp [encode, bitLength, length_encodeLength h]; omega
theorem matchC5 (x : BitVec 14) (len : LengthCode) : Statement (.matchC5 x len) := fun h => by
  simp [encode, bitLength, length_encodeLength h]; omega
theorem matchC6 (x : BitVec 15) (len : LengthCode) : Statement (.matchC6 x len) := fun h => by
  simp [encode, bitLength, length_encodeLength h]; omega
theorem matchC7 (x : BitVec 18) (len : LengthCode) : Statement (.matchC7 x len) := fun h => by
  simp [encode, bitLength, length_encodeLength h]; omega
theorem matchC8 (x : BitVec 20) (len : LengthCode) : Statement (.matchC8 x len) := fun h => by
  simp [encode, bitLength, length_encodeLength h]; omega
theorem matchC9 (x : BitVec 20) (len : LengthCode) : Statement (.matchC9 x len) := fun h => by
  simp [encode, bitLength, length_encodeLength h]; omega
theorem matchC10 (x : BitVec 21) (len : LengthCode) : Statement (.matchC10 x len) := fun h => by
  simp [encode, bitLength, length_encodeLength h]; omega
theorem matchC11 (x : BitVec 22) (len : LengthCode) : Statement (.matchC11 x len) := fun h => by
  simp [encode, bitLength, length_encodeLength h]; omega
theorem matchC12 (x : BitVec 23) (len : LengthCode) : Statement (.matchC12 x len) := fun h => by
  simp [encode, bitLength, length_encodeLength h]; omega
theorem matchC13 (x : BitVec 24) (len : LengthCode) : Statement (.matchC13 x len) := fun h => by
  simp [encode, bitLength, length_encodeLength h]; omega

theorem unenc (count : BitVec 15) : Statement (.unenc count) := fun _ => by simp [encode, bitLength]
theorem illegal10000 (rest : BitVec 4) : Statement (.illegal10000 rest) := fun _ => by simp [encode, bitLength]
theorem illegal101111111 : Statement .illegal101111111 := fun _ => rfl
theorem segRaw (ctrl : Byte) : Statement (.segRaw ctrl) := fun _ => by simp [encode, bitLength]
theorem segComp (ctrl : Byte) : Statement (.segComp ctrl) := fun _ => by simp [encode, bitLength]
theorem frameSingle : Statement .frameSingle := fun _ => rfl
theorem frameMulti : Statement .frameMulti := fun _ => rfl

end Sys2Proof.Laws.EncodedLength
end

