-- ==== Sys2Proof/Tests/Slice0.lean ====
section
/-! SUPPORT. Tests: the checks of `wellFormed`, the words of the spec, single steps on the spec's examples, and for
every statement with hypotheses a state and operands that meet them. Expected values come from the spec's rules and
from spec/95_test_vectors.md. -/

namespace Sys2Proof.Tests

open Sys2Proof Sys2Proof.Machine

/-! ### Ill-formed terms are refused -/

theorem test_wellFormed_extra_low : (Instr.matchC1 0 (.ext 1 0)).wellFormed = false := by decide
theorem test_wellFormed_extra_high : (Instr.matchC2 0 (.ext 17 0)).wellFormed = false := by decide
theorem test_wellFormed_value : (Instr.matchC3 0 (.ext 2 4)).wellFormed = false := by decide
theorem test_wellFormed_value_max : (Instr.matchC3 0 (.ext 16 65535)).wellFormed = true := by decide
theorem test_wellFormed_zero_distance : (Instr.matchC0 0 .three).wellFormed = false := by decide
theorem test_wellFormed_raw_bit : (Instr.segRaw 0x20).wellFormed = false := by decide
theorem test_wellFormed_comp_bit : (Instr.segComp 0xDF).wellFormed = false := by decide

/-! ### Words of the spec, bit by bit (30_encoding.md sections 2 to 5, 41_code_tables.md sections 2 to 4) -/

/-- A word written as its bits in stream order. -/
def word (l : List Nat) : List Bool := l.map (· == 1)

theorem test_decode_lit8 : decode Config.reference .token (word [0, 0, 1, 0, 0, 0, 0, 0, 1]) = .ok (.row (.lit8 0x41)) [] := by decide
theorem test_decode_litc00 : decode Config.reference .token (word [1, 1, 0, 0, 0]) = .ok (.row .litc00) [] := by decide
theorem test_decode_litc01 : decode Config.reference .token (word [1, 1, 0, 0, 1]) = .ok (.row .litc01) [] := by decide
theorem test_decode_litc02 : decode Config.reference .token (word [1, 1, 0, 1, 0, 0]) = .ok (.row .litc02) [] := by decide
theorem test_decode_litc03 : decode Config.reference .token (word [1, 1, 0, 1, 0, 1]) = .ok (.row .litc03) [] := by decide
theorem test_decode_litcFF : decode Config.reference .token (word [1, 1, 0, 1, 1, 0]) = .ok (.row .litcFF) [] := by decide
theorem test_decode_litc04 : decode Config.reference .token (word [1, 1, 0, 1, 1, 1, 0]) = .ok (.row .litc04) [] := by decide
theorem test_decode_litc05 : decode Config.reference .token (word [1, 1, 0, 1, 1, 1, 1]) = .ok (.row .litc05) [] := by decide
theorem test_decode_litc06 : decode Config.reference .token (word [1, 1, 1, 0, 0, 0, 0]) = .ok (.row .litc06) [] := by decide
theorem test_decode_litc07 : decode Config.reference .token (word [1, 1, 1, 0, 0, 0, 1]) = .ok (.row .litc07) [] := by decide
theorem test_decode_litc08 : decode Config.reference .token (word [1, 1, 1, 0, 0, 1, 0]) = .ok (.row .litc08) [] := by decide
theorem test_decode_litc09 : decode Config.reference .token (word [1, 1, 1, 0, 0, 1, 1]) = .ok (.row .litc09) [] := by decide
theorem test_decode_litc0A : decode Config.reference .token (word [1, 1, 1, 0, 1, 0, 0]) = .ok (.row .litc0A) [] := by decide
theorem test_decode_litc0B : decode Config.reference .token (word [1, 1, 1, 0, 1, 0, 1]) = .ok (.row .litc0B) [] := by decide
theorem test_decode_litc3A : decode Config.reference .token (word [1, 1, 1, 0, 1, 1, 0]) = .ok (.row .litc3A) [] := by decide
theorem test_decode_litc3B : decode Config.reference .token (word [1, 1, 1, 0, 1, 1, 1]) = .ok (.row .litc3B) [] := by decide
theorem test_decode_litc3C : decode Config.reference .token (word [1, 1, 1, 1, 0, 0, 0]) = .ok (.row .litc3C) [] := by decide
theorem test_decode_litc3D : decode Config.reference .token (word [1, 1, 1, 1, 0, 0, 1]) = .ok (.row .litc3D) [] := by decide
theorem test_decode_litc3E : decode Config.reference .token (word [1, 1, 1, 1, 0, 1, 0]) = .ok (.row .litc3E) [] := by decide
theorem test_decode_litc3F : decode Config.reference .token (word [1, 1, 1, 1, 0, 1, 1]) = .ok (.row .litc3F) [] := by decide
theorem test_decode_litc40 : decode Config.reference .token (word [1, 1, 1, 1, 1, 0, 0]) = .ok (.row .litc40) [] := by decide
theorem test_decode_litc80 : decode Config.reference .token (word [1, 1, 1, 1, 1, 0, 1]) = .ok (.row .litc80) [] := by decide
theorem test_decode_litc0C : decode Config.reference .token (word [1, 1, 1, 1, 1, 1, 0, 0]) = .ok (.row .litc0C) [] := by decide
theorem test_decode_litc38 : decode Config.reference .token (word [1, 1, 1, 1, 1, 1, 0, 1]) = .ok (.row .litc38) [] := by decide
theorem test_decode_litc39 : decode Config.reference .token (word [1, 1, 1, 1, 1, 1, 1, 0]) = .ok (.row .litc39) [] := by decide
theorem test_decode_litc66 : decode Config.reference .token (word [1, 1, 1, 1, 1, 1, 1, 1]) = .ok (.row .litc66) [] := by decide
theorem test_decode_matchC0 :
    decode Config.reference .token (word [1, 0, 0, 0, 1, 0, 0, 1, 0, 0, 1, 1, 0, 0, 0, 0]) =
      .ok (.row (.matchC0 4 (.ext 3 0))) [] := by decide
theorem test_decode_matchC1 :
    decode Config.reference .token (word [1, 0, 0, 1, 0, 1, 0, 0, 0, 0, 1, 0, 1, 0, 1, 0]) =
      .ok (.row (.matchC1 66 (.ext 2 2))) [] := by decide
theorem test_decode_matchC2 :
    decode Config.reference .token (word [1, 0, 0, 1, 1, 1, 0, 0, 0, 0, 0, 0, 1, 0, 1, 1, 0, 1, 0, 1]) =
      .ok (.row (.matchC2 258 (.ext 3 5))) [] := by decide
theorem test_decode_matchC3 :
    decode Config.reference .token (word [1, 0, 1, 0, 0, 1, 0, 0, 0, 0, 0, 0, 0, 1, 0, 1, 1, 1, 0, 0, 0, 0, 1]) =
      .ok (.row (.matchC3 514 (.ext 4 1))) [] := by decide
theorem test_decode_matchC4 :
    decode Config.reference .token (word [1, 0, 1, 0, 1, 1, 0, 0, 0, 0, 0, 0, 0, 0, 0, 1, 0, 0]) =
      .ok (.row (.matchC4 2050 .three)) [] := by decide
theorem test_decode_matchC5 :
    decode Config.reference .token (word [1, 0, 1, 1, 0, 0, 1, 0, 0, 0, 0, 0, 0, 0, 0, 0, 0, 0, 1, 0, 1, 0, 1, 0]) =
      .ok (.row (.matchC5 8194 (.ext 2 2))) [] := by decide
theorem test_decode_matchC6 :
    decode Config.reference .token (word [1, 0, 1, 1, 0, 1, 1, 0, 0, 0, 0, 0, 0, 0, 0, 0, 0, 0, 0, 1, 0, 1, 1, 0, 1, 0, 1]) =
      .ok (.row (.matchC6 16386 (.ext 3 5))) [] := by decide
theorem test_decode_matchC7 :
    decode Config.reference .token (word [1, 0, 1, 1, 1, 0, 0, 1, 0, 0, 0, 0, 0, 0, 0, 0, 0, 0, 0, 0, 0, 0, 0, 1, 0, 1, 1, 1, 0, 0,
      0, 0, 1]) =
      .ok (.row (.matchC7 131074 (.ext 4 1))) [] := by decide
theorem test_decode_matchC8 :
    decode Config.reference .token (word [1, 0, 1, 1, 1, 0, 1, 1, 0, 0, 0, 0, 0, 0, 0, 0, 0, 0, 0, 0, 0, 0, 0, 0, 0, 1, 0, 0]) =
      .ok (.row (.matchC8 524290 .three)) [] := by decide
theorem test_decode_matchC9 :
    decode Config.reference .token (word [1, 0, 1, 1, 1, 1, 0, 0, 1, 0, 0, 0, 0, 0, 0, 0, 0, 0, 0, 0, 0, 0, 0, 0, 0, 0, 1, 0, 1, 0,
      1, 0]) =
      .ok (.row (.matchC9 524290 (.ext 2 2))) [] := by decide
theorem test_decode_matchC10 :
    decode Config.reference .token (word [1, 0, 1, 1, 1, 1, 0, 1, 1, 0, 0, 0, 0, 0, 0, 0, 0, 0, 0, 0, 0, 0, 0, 0, 0, 0, 0, 1, 0, 1,
      1, 0, 1, 0, 1]) =
      .ok (.row (.matchC10 1048578 (.ext 3 5))) [] := by decide
theorem test_decode_matchC11 :
    decode Config.reference .token (word [1, 0, 1, 1, 1, 1, 1, 0, 0, 1, 0, 0, 0, 0, 0, 0, 0, 0, 0, 0, 0, 0, 0, 0, 0, 0, 0, 0, 0, 1,
      0, 1, 1, 1, 0, 0, 0, 0, 1]) =
      .ok (.row (.matchC11 2097154 (.ext 4 1))) [] := by decide
theorem test_decode_matchC12 :
    decode Config.reference .token (word [1, 0, 1, 1, 1, 1, 1, 0, 1, 1, 0, 0, 0, 0, 0, 0, 0, 0, 0, 0, 0, 0, 0, 0, 0, 0, 0, 0, 0, 0,
      1, 0, 0]) =
      .ok (.row (.matchC12 4194306 .three)) [] := by decide
theorem test_decode_matchC13 :
    decode Config.reference .token (word [1, 0, 1, 1, 1, 1, 1, 1, 0, 1, 0, 0, 0, 0, 0, 0, 0, 0, 0, 0, 0, 0, 0, 0, 0, 0, 0, 0, 0, 0,
      0, 1, 0, 1, 0, 1, 0]) =
      .ok (.row (.matchC13 8388610 (.ext 2 2))) [] := by decide
theorem test_decode_overrun :
    decode Config.reference .token (word [1, 0, 0, 0, 1, 0, 0, 0, 0, 1, 1, 1, 1, 1, 1, 1, 1, 1, 1, 1, 1, 1, 1, 1, 1, 1, 0]) =
      .ok (.row (.matchC0 1 .overrun)) [false] := by decide
theorem test_decode_unenc :
    decode Config.reference .token (word [1, 0, 0, 0, 1, 0, 0, 0, 0, 0, 1, 0, 0, 0, 0, 0, 0, 0, 0, 0, 0, 0, 0, 1, 1]) =
      .ok (.row (.unenc 16387)) [] := by decide
theorem test_decode_illegal10000 : decode Config.reference .token (word [1, 0, 0, 0, 0, 0, 1, 1, 0]) = .ok (.row (.illegal10000 6)) [] := by
  decide
theorem test_decode_illegal101111111 :
    decode Config.reference .token (word [1, 0, 1, 1, 1, 1, 1, 1, 1]) = .ok (.row .illegal101111111) [] := by decide
theorem test_decode_illegal_needs_nine_bits :
    decode Config.reference .token (word [1, 0, 0, 0, 0]) = .stop .exhausted [] := by decide
theorem test_decode_segRaw : decode Config.reference .segment (word [1, 1, 0, 1, 1, 1, 1, 0]) = .ok (.row (.segRaw 0xDE)) [] := by decide
theorem test_decode_segComp : decode Config.reference .segment (word [0, 0, 1, 0, 0, 0, 0, 1]) = .ok (.row (.segComp 0x21)) [] := by decide
theorem test_decode_frameSingle : decode Config.reference .frame (word [1, 1, 1, 0, 0, 0, 0, 0]) = .ok (.row .frameSingle) [] := by decide
theorem test_decode_frameMulti : decode Config.reference .frame (word [1, 1, 1, 0, 0, 0, 0, 1]) = .ok (.row .frameMulti) [] := by decide
theorem test_decode_no_frame : decode Config.reference .frame (word [1, 1, 1, 0, 0, 0, 1, 0]) = .stop (.notAFrame 0xE2) [] := by decide

/-! ### Single steps -/

/-- A core with a ring of 16 bytes, after a session reset. -/
def small : State := State.resetWith { Config.reference with histCap := 16 }

/-- A core in a compressed segment that views these bytes with this budget. -/
def reading (bytes : List Byte) (budget : Nat) : State :=
  { small.initReader bytes budget with state := .readSelector }

/-- A core whose history ends in `57 58 59 5A` (property S4). -/
def withHistory : State := { reading [0x89, 0x30] 16 with hist := ⟨[(0, 0x57), (1, 0x58), (2, 0x59), (3, 0x5A)]⟩, histIdx := 4 }

/-- The next state of an outcome. -/
def nextOf (o : Outcome) : State :=
  match o with
  | .next s => s
  | _ => small

/-- The outcome is a next state. -/
def isNext (o : Outcome) : Bool :=
  match o with
  | .next _ => true
  | _ => false

theorem eq_next {o : Outcome} (h : isNext o = true) : o = .next (nextOf o) := by
  cases o with
  | next s => rfl
  | fault f => cases h
  | refused r => cases h

theorem test_lit8_step : (nextOf (step (reading [0x20, 0x80] 9))).out.cells = [(0, 0x41)] := by decide
theorem test_lit8_done : (nextOf (step (reading [0x20, 0x80] 9))).state = .done := by decide
theorem test_litcFF_step : (nextOf (step (reading [0xD8] 6))).out.cells = [(0, 0xFF)] := by decide
theorem test_litc66_step : (nextOf (step (reading [0xFF] 8))).hist.cells = [(0, 0x66)] := by decide
theorem test_matchC0_step :
    (nextOf (step withHistory)).out.cells.map Prod.snd = [0x57, 0x58, 0x59, 0x5A, 0x57, 0x58, 0x59, 0x5A] := by decide
theorem test_matchC0_index : (nextOf (step withHistory)).histIdx = 12 := by decide
theorem test_unenc_step :
    (nextOf (step (reading [0x88, 0x00, 0x01, 0xFF, 0xDE, 0xAD, 0xBE] 56))).out.cells =
      [(0, 0xDE), (1, 0xAD), (2, 0xBE)] := by decide
theorem test_illegal_step : (nextOf (step (reading [0x80, 0x00] 9))).err = some .unmatchedCode := by decide
theorem test_illegal_short : (nextOf (step (reading [0x80] 5))).err = some .bitstreamExhausted := by decide
theorem test_segRaw_step :
    (nextOf (step { small with presented := some [0x00, 0x41, 0x42, 0x43] })).out.cells =
      [(0, 0x41), (1, 0x42), (2, 0x43)] := by decide
theorem test_segComp_budget :
    (nextOf (step { small with presented := some [0x20, 0x20, 0x80, 0x07] })).bitsRem = 9 := by decide
theorem test_segComp_pad :
    (nextOf (step { small with presented := some [0x20, 0x20, 0x08] })).err = some .invalidPadIndicator := by decide
theorem test_frameSingle_step :
    (nextOf (step { small with calls := [.decompress [0xE0, 0x00, 0x41] 0] })).presented = some [0x00, 0x41] := by
  decide
theorem test_frameMulti_step :
    (nextOf (step { small with calls := [.decompress [0xE1, 1, 0, 2, 1, 0, 0] 0] })).uncompressedSize = 258 := by decide

/-! ### Other token tables (rules R6, R7, R142, R143) -/

/-- A core with a ring of 16 bytes and tables that are not the reference tables; `1011` and `11001` match no entry. -/
def otherTables : Config :=
  { Config.reference with
      histCap := 16,
      litTable := [⟨3, 0b111, 0, 0x51⟩, ⟨5, 0b11000, 0, 0x00⟩],
      matchTable := [⟨3, 0b100, 1, 0⟩, ⟨4, 0b1010, 2, 9⟩] }

theorem test_other_literal : decode otherTables .token (word [1, 1, 1, 0]) = .ok (.literal ⟨3, 0b111, 0, 0x51⟩) [false] := by
  decide
theorem test_other_row : decode otherTables .token (word [1, 1, 0, 0, 0]) = .ok (.row .litc00) [] := by decide
theorem test_other_unmatched_literal :
    decode otherTables .token (word [1, 1, 0, 0, 1]) = .ok (.unmatched .literalTable 0b11001 5) [] := by decide
theorem test_other_unmatched_match :
    decode otherTables .token (word [1, 0, 1, 1]) = .ok (.unmatched .matchTable 0b1011 4) [] := by decide
theorem test_other_match :
    decode otherTables .token (word [1, 0, 1, 0, 1, 1, 1, 0, 0, 1]) = .ok (.copy ⟨4, 0b1010, 2, 9⟩ 3 (.ext 2 1)) [] := by
  decide
theorem test_other_run :
    decode otherTables .token (word [1, 0, 0, 0, 0, 0, 0, 0, 0, 0, 0, 0, 0, 0, 0, 0, 0, 1, 0]) =
      .ok (.run ⟨3, 0b100, 1, 0⟩ 2) [] := by decide

/-- A core with the other tables in a compressed segment that views these bytes with this budget. -/
def readingOther (bytes : List Byte) (budget : Nat) : State := { reading bytes budget with cfg := otherTables }

theorem test_other_literal_step : (nextOf (step (readingOther [0xE0] 3))).out.cells = [(0, 0x51)] := by decide
theorem test_other_literal_short :
    (nextOf (step (readingOther [0xC8] 5))).err = some .unmatchedCode := by decide
theorem test_other_match_step : (nextOf (step (readingOther [0x90] 5))).len = 3 := by decide

/-- A core whose literal table has an entry that does not begin with `11`. -/
def illegalTables : State :=
  { readingOther [0xE0] 3 with cfg := { otherTables with litTable := [⟨3, 0b101, 0, 0⟩] } }

theorem test_illegal_tables_step : step illegalTables = .refused .illegalTables := by rfl
theorem test_tables_unordered :
    litTableLegal [⟨5, 0b11000, 0, 0⟩, ⟨3, 0b111, 0, 0x51⟩] = false := by decide
theorem test_tables_extra_literal : litTableLegal [⟨3, 0b111, 1, 0⟩] = false := by decide
theorem test_tables_extra_match : matchTableLegal [⟨3, 0b101, 25, 0⟩] = false := by decide
theorem test_tables_longest_step : matchTableLegal [⟨26, 2 ^ 25, 0, 0⟩, ⟨32, 2 ^ 31, 0, 0⟩] = true := by decide

/-- Rule R121's example: `IN = A5 3C`, budget 16. -/
theorem test_getBits_example :
    (getBits 1 (reading [0xA5, 0x3C] 16)).bind (fun a s => (getBits 3 s).bind fun b s => (getBits 8 s).bind fun c s =>
      (getBits 4 s).bind fun d s => .ok [a, b, c, d, s.bitsRem] s) =
    .ok [1, 2, 0x53, 0xC, 0] { reading [0xA5, 0x3C] 16 with byteCur := 2, bitsRem := 0 } := by decide

/-! ### A check that implies the invariant -/

/-- The accumulator clause of `State.ReaderInv`, as a check. -/
def accCheck (s : State) : Bool :=
  decide (s.accCnt = 0 ∧ s.acc = 0) ||
    (decide (1 ≤ s.byteCur) &&
      match s.inBytes[s.byteCur - 1]? with
      | some b => decide (s.acc.toNat = b.toNat % 2 ^ s.accCnt)
      | none => false)

theorem acc_of_check {s : State} (h : accCheck s = true) :
    (s.accCnt = 0 ∧ s.acc = 0) ∨
      ∃ b : Byte, 1 ≤ s.byteCur ∧ s.inBytes[s.byteCur - 1]? = some b ∧ s.acc.toNat = b.toNat % 2 ^ s.accCnt := by
  unfold accCheck at h
  rcases Bool.or_eq_true_iff.mp h with h | h
  · exact .inl (of_decide_eq_true h)
  · right
    obtain ⟨h1, h2⟩ := Bool.and_eq_true_iff.mp h
    cases hb : s.inBytes[s.byteCur - 1]? with
    | none => rw [hb] at h2; cases h2
    | some b => rw [hb] at h2; exact ⟨b, of_decide_eq_true h1, rfl, of_decide_eq_true h2⟩

/-- `State.ReaderInv`, as a check. -/
def readerCheck (s : State) : Bool :=
  accCheck s &&
    decide (s.inLen = s.inBytes.length ∧ s.byteCur ≤ s.inLen ∧ s.accCnt ≤ 7 ∧
      s.bitsRem ≤ 8 * (s.inLen - s.byteCur) + s.accCnt)

theorem reader_of_check {s : State} (h : readerCheck s = true) : s.ReaderInv := by
  obtain ⟨h1, h2⟩ := Bool.and_eq_true_iff.mp h
  obtain ⟨a, b, c, d⟩ := of_decide_eq_true h2
  exact ⟨a, b, c, acc_of_check h1, d⟩

/-- `State.Inv`, as a check. -/
def invCheck (s : State) : Bool :=
  readerCheck s &&
  decide (s.cfg.tablesLegal = true ∧ 1 ≤ s.cfg.histCap ∧ s.histIdx < s.cfg.histCap ∧ s.hist.wf (initBytes s.cfg.histInit) = true ∧
    ∀ c, c ∈ s.hist.cells → c.1 < s.cfg.histCap) &&
  decide (s.outCnt ≤ outCap ∧ s.out.wf noByte = true ∧ (∀ c, c ∈ s.out.cells → c.1 < outCap) ∧
    ∀ a, a < s.outCnt → (s.out.get? a).isSome = true) &&
  decide ((s.state = .readSelector ∨ s.state = .done ∨ s.state = .failed) ∧
    (s.state = .readSelector → 0 < s.bitsRem) ∧ (s.err.isSome = true ↔ s.state = .failed)) &&
  decide ((s.presented.isSome = true → s.busy = false) ∧ (s.presented.isSome = true → s.phase ≠ .multiNext) ∧
    (s.busy = true → s.phase ≠ .multiNext)) &&
  decide ((s.phase = .multiNext ∨ s.phase = .multiWait → s.total = s.result.length) ∧
    (s.phase = .multiNext ∨ s.phase = .multiWait → s.total ≤ s.uncompressedSize) ∧
    (s.phase = .multiNext → s.segIndex ≤ s.segmentCount) ∧ (s.phase = .multiWait → s.segIndex < s.segmentCount) ∧
    (s.phase = .multiNext → s.cursor ≤ s.input.length) ∧
    (s.phase = .multiWait → s.cursor + s.segmentSize ≤ s.input.length)) &&
  decide (s.inLen < 2 ^ 32 ∧ s.accCnt < 2 ^ 5 ∧ s.bitsRem < 2 ^ 35 ∧ s.outCnt < 2 ^ 17 ∧ s.pfx < 2 ^ s.cfg.prefixWidth ∧
    s.pfxLen ≤ s.cfg.prefixWidth ∧ s.dist ≤ s.cfg.maxDistance) &&
  decide (s.len < 2 ^ 17 ∧ s.extra < 2 ^ 5 ∧ s.count < 2 ^ 15 ∧ s.segmentCount < 2 ^ 16 ∧
    s.uncompressedSize < 2 ^ 32 ∧ s.segmentSize < 2 ^ 32 ∧ s.total < 2 ^ 33)

theorem inv_of_check {s : State} (h : invCheck s = true) : s.Inv := by
  simp only [invCheck, Bool.and_eq_true, decide_eq_true_eq] at h
  obtain ⟨⟨⟨⟨⟨⟨⟨h1, a0, a1, a2, a3, a4⟩, b1, b2, b3, b4⟩, c1, c2, c3⟩, d1, d2, d3⟩, e1, e2, e3, e4, e5, e6⟩,
    f1, f2, f3, f4, f5, f6, f7⟩, g1, g2, g3, g4, g5, g6, g7⟩ := h
  exact ⟨a0, ⟨a1, a2, a3, a4⟩, ⟨b1, b2, b3, b4⟩, reader_of_check h1, ⟨c1, c2, c3⟩, ⟨d1, d2, d3, e1, e2, e3, e4, e5, e6⟩,
    ⟨f1, f2, f3, f4, f5, f6, f7, g1, g2, g3, g4, g5, g6, g7⟩⟩

/-! ### Witnesses: for every statement with hypotheses, a state and operands that meet them

Each is named after its statement; where a statement has several clauses there is one state for each, at a boundary of
its range. -/

/-- A sound core in the middle of a segment: the accumulator holds three bits, ten are left in the budget. -/
def midway : State :=
  { reading [0xA4, 0x1E] 10 with byteCur := 1, accCnt := 3, acc := 4, hist := ⟨[(15, 0x41)]⟩, histIdx := 0,
                                 out := ⟨[(0, 0x41)]⟩, outCnt := 1 }

/-- A core whose output buffer is full. -/
def full : State := { reading [0x00, 0x00] 16 with outCnt := 65536 }

/-- A core whose output buffer has room for one byte. -/
def almostFull : State := { reading [0x00, 0x00] 16 with outCnt := 65535 }

/-- An idle core in a multipart frame of two segments, at the head of its loop. -/
def inFrame : State :=
  { small with phase := .multiNext, input := [0xE1, 2, 0, 5, 0, 0, 0, 2, 0, 0, 0, 0x00, 0x41], cursor := 7,
               segmentCount := 2, uncompressedSize := 5 }

/-- An idle core of a frame whose segment has ended with one byte. -/
def collecting (phase : HostPhase) (st : DecState) : State :=
  { small with phase := phase, state := st, out := ⟨[(0, 0x41)]⟩, outCnt := 1, uncompressedSize := 1, segmentCount := 1,
               err := if st = .failed then some .unmatchedCode else none }

theorem not_resetDue {s : State} (h : s.calls = []) : ¬s.resetDue := by
  rintro ⟨_, _, ⟨_, r, h' | ⟨n, h'⟩⟩ | ⟨_, r, h'⟩⟩ <;> rw [h] at h' <;> cases h'

theorem midway_inv : midway.Inv := inv_of_check (by decide)
theorem inFrame_inv : inFrame.Inv := inv_of_check (by decide)

theorem witness_ReferenceTablesAreLegal : 0 + 1 < refMatchTable.length ∧ 12 + 1 < refMatchTable.length := by decide

theorem witness_ResetMeetsTheInvariant :
    (1 ≤ Config.reference.histCap ∧ Config.reference.tablesLegal = true) ∧
    (1 ≤ otherTables.histCap ∧ otherTables.tablesLegal = true) := by decide

theorem witness_StepRunsTheFetchedInstruction :
    ((reading [0x20, 0x80] 9).state = .readSelector ∧ (reading [0x20, 0x80] 9).cfg.tablesLegal = true ∧
      decodeTokenWith bitReader (reading [0x20, 0x80] 9).cfg (reading [0x20, 0x80] 9) =
        .ok (.row (.lit8 0x41)) { reading [0x20, 0x80] 0 with byteCur := 2, accCnt := 7 }) ∧
    ((readingOther [0xE0] 3).state = .readSelector ∧ (readingOther [0xE0] 3).cfg.tablesLegal = true ∧
      decodeTokenWith bitReader (readingOther [0xE0] 3).cfg (readingOther [0xE0] 3) =
        .ok (.literal ⟨3, 0b111, 0, 0x51⟩) { readingOther [0xE0] 0 with byteCur := 1, accCnt := 5 }) ∧
    (small.busy = false ∧ { small with presented := some [0x20] }.presented = some (0x20 :: [])) ∧
    ((small.busy = false ∧ small.presented = none ∧ small.phase = .idle) ∧
      { small with calls := [.decompress [0, 0xE1] 1] }.calls = .decompress [0, 0xE1] 1 :: [] ∧
      ([0, 0xE1] : List Byte)[1]? = some 0xE1 ∧ decodeFrame 0xE1 = some .frameMulti) := by decide

theorem witness_InitStartsTheBitReader :
    (0 < 1 ∧ 1 ≤ nMax) ∧
    (readAll [24, 3] (small.initReader [1, 2, 3, 4] 40) =
        .ok () { small.initReader [1, 2, 3, 4] 13 with byteCur := 4, accCnt := 5, acc := 4 } ∧
      6 ≤ nMax ∧ 8 * ([1, 2, 3, 4] : List Byte).length < [24, 3].sum + 6) ∧
    (readAll [8] (small.initReader [1, 2] 9) = .ok () { small.initReader [1, 2] 1 with byteCur := 1 } ∧
      2 ≤ nMax ∧ 9 < [8].sum + 2) ∧
    ((∀ m, m ∈ [24, 8] → m ≤ nMax) ∧ [24, 8].sum ≤ 32 ∧ [24, 8].sum ≤ 8 * ([1, 2, 3, 4] : List Byte).length) ∧
    openBitstream [0x20, 0x20, 0x80, 7] small =
      .ok () (State.initReader { small with pad := 7 } [0x20, 0x80] 9) := by decide

theorem witness_GetBitsDeliversTheStreamBits :
    (midway.ReaderInv ∧ 0 ≤ nMax ∧ 10 ≤ midway.bitsRem) ∧
    ((reading [1, 2, 3] 24).ReaderInv ∧ 24 ≤ nMax ∧ 24 ≤ (reading [1, 2, 3] 24).bitsRem) :=
  ⟨⟨reader_of_check (by decide), by decide, by decide⟩, ⟨reader_of_check (by decide), by decide, by decide⟩⟩

theorem witness_GetBitsFailsCleanly :
    (11 ≤ nMax ∧ midway.bitsRem < 11) ∧
    (9 ≤ nMax ∧ 9 ≤ (reading [1] 24).bitsRem ∧
      8 * ((reading [1] 24).inLen - (reading [1] 24).byteCur) + (reading [1] 24).accCnt < 9) := by decide

theorem witness_RawCopiesTakeWholeBytes :
    midway.inLen = midway.inBytes.length ∧ midway.inLen - midway.byteCur < 2 ∧ 1 ≤ midway.inLen - midway.byteCur ∧
    8 * 1 ≤ midway.bitsRem ∧ { midway with bitsRem := 7 }.bitsRem < 8 * 1 := by decide

theorem witness_RealignMovesToAByteBoundary :
    midway.ReaderInv ∧ ({ midway with bitsRem := 2 } : State).ReaderInv ∧
      (small.ReaderInv ∧ small.accCnt = 0) :=
  ⟨reader_of_check (by decide), reader_of_check (by decide), reader_of_check (by decide), rfl⟩

/-- A ring of 16 bytes at its last address. -/
def lastAddress : State := { small with histIdx := 15 }

theorem witness_RingWriteByteWritesAndAdvances :
    lastAddress.histIdx < lastAddress.cfg.histCap ∧ 14 % lastAddress.cfg.histCap ≠ lastAddress.histIdx ∧
    lastAddress.histIdx = lastAddress.cfg.histCap - 1 ∧
    (List.replicate 16 (0x41 : Byte)).length = lastAddress.cfg.histCap ∧
    lastAddress.cfg.histCap = 16 ∧ lastAddress.histIdx = 15 := by decide

theorem witness_EmitAppendsOrFails :
    almostFull.histIdx < almostFull.cfg.histCap ∧ outCap - almostFull.outCnt < [0x41, 0x42].length ∧
    [0x41].length ≤ outCap - almostFull.outCnt ∧ ([] : List Byte).length ≤ outCap - full.outCnt := by decide

theorem witness_SourceAddressIsInsideTheRing :
    withHistory.histIdx < withHistory.cfg.histCap ∧ 4 ≤ withHistory.histIdx ∧
    (withHistory.histIdx < 5 ∧ 20 ≤ withHistory.histIdx + withHistory.cfg.histCap) ∧
    ({ small with histIdx := 2 }.cfg.histCap = 16 ∧ { small with histIdx := 2 }.histIdx = 2) := by decide

theorem witness_MatchCopyEmitsThePeriodicOutput :
    (1 ≤ 1 ∧ withHistory.histIdx < withHistory.cfg.histCap ∧ 3 ≤ outCap - withHistory.outCnt ∧
      65536 ≤ outCap - withHistory.outCnt) ∧
    ∀ i, i < 4 → some (withHistory.histByte (withHistory.sourceAddr 4 i)) =
      ([0x57, 0x58, 0x59, 0x5A] : List Byte)[i]? := by decide

theorem witness_DoublingCopyGivesTheMatchOutput : 1 ≤ 1 := by decide

theorem witness_ByteByByteCopyAgreesWithinTheRing :
    withHistory.histIdx < withHistory.cfg.histCap ∧ 1 ≤ 16 ∧ 16 ≤ withHistory.cfg.histCap := by decide

theorem witness_Lit8EmitsItsByte : almostFull.outCnt < outCap := by decide

theorem witness_CodedLiteralsEmitTheirByte :
    literalByteOf .litcFF = some 0xFF ∧ literalByteOf .litc66 = some 0x66 ∧ almostFull.outCnt < outCap := by decide

theorem witness_LiteralsFailOnAFullBuffer :
    (∃ v, Instr.lit8 0x41 = .lit8 v) ∧ (∃ b, literalByteOf .litc00 = some b) ∧ outCap ≤ full.outCnt :=
  ⟨⟨_, rfl⟩, ⟨_, rfl⟩, by decide⟩

theorem witness_MatchesCopyFromTheHistory :
    (matchOperandsOf (.matchC0 1 .three) = some (1, .three) ∧ lengthValue .three = some 3 ∧
      3 ≤ outCap - withHistory.outCnt) ∧
    (matchOperandsOf (.matchC13 (BitVec.ofNat 24 16777215) (.ext 16 0)) = some (33871519, .ext 16 0) ∧
      lengthValue (.ext 16 0) = some 65536 ∧ 65536 ≤ outCap - withHistory.outCnt) ∧
    ((⟨4, 0b1010, 2, 9⟩ : Token).base + 0 ≠ 0 ∧ (⟨3, 0b100, 1, 0⟩ : Token).base + 1 ≠ 0) ∧
    withHistory.histIdx < withHistory.cfg.histCap := by decide

theorem witness_MatchesThatDoNotFitFail :
    ((⟨3, 0b100, 1, 0⟩ : Token).base + 1 ≠ 0) ∧
    (matchOperandsOf (.matchC0 31 .overrun) = some (31, .overrun)) ∧
    (matchOperandsOf (.matchC1 0 .three) = some (32, .three) ∧ lengthValue .three = some 3 ∧
      outCap - almostFull.outCnt < 3) ∧
    (lengthValue (.ext 16 1) = some 65537 ∧ outCap - withHistory.outCnt < 65537) := by decide

/-- A core after the 25 bits of an unencoded run's head, with three raw bytes to come. -/
def afterCount : State :=
  { reading [0x88, 0x00, 0x01, 0x80, 0xDE, 0xAD, 0xBE] 31 with byteCur := 4, accCnt := 7 }

theorem witness_UnencodedRunsCopyRawBytes :
    (afterCount.histIdx < afterCount.cfg.histCap ∧ afterCount.inLen = afterCount.inBytes.length) ∧
    ((3 : BitVec 15).toNat ≤ outCap - afterCount.outCnt ∧ (3 : BitVec 15).toNat ≤ afterCount.inLen - afterCount.byteCur ∧
      8 * (3 : BitVec 15).toNat ≤ afterCount.bitsRem - min afterCount.accCnt afterCount.bitsRem) ∧
    (8 * (0 : BitVec 15).toNat ≤
      { afterCount with bitsRem := 2 }.bitsRem - min { afterCount with bitsRem := 2 }.accCnt 2) := by decide

theorem witness_UnencodedRunFailureOrder :
    (Form.row (.unenc 2) = .row (.unenc 2) ∧ ∃ e, Form.run ⟨3, 0b100, 1, 0⟩ 2 = .run e 2) ∧
    outCap - almostFull.outCnt < (2 : BitVec 15).toNat ∧
    ((4 : BitVec 15).toNat ≤ outCap - afterCount.outCnt ∧ afterCount.inLen - afterCount.byteCur < (4 : BitVec 15).toNat) ∧
    ((3 : BitVec 15).toNat ≤ outCap - afterCount.outCnt ∧
      { afterCount with bitsRem := 30 }.bitsRem - min 7 30 < 8 * (3 : BitVec 15).toNat) :=
  ⟨⟨rfl, _, rfl⟩, by decide⟩

theorem witness_UnmatchedPrefixesRaiseUnmatchedCode :
    (∃ rest, Instr.illegal10000 15 = .illegal10000 rest) ∧ Instr.illegal101111111 = .illegal101111111 :=
  ⟨⟨_, rfl⟩, rfl⟩

/-- An idle core to which a compressed segment of one literal is presented (rule R226's example). -/
def oneLiteral : State := { small with presented := some [0x20, 0x20, 0x80, 7] }

theorem witness_ControlByteSelectsTheFormByOneBit :
    (oneLiteral.busy = false ∧ oneLiteral.presented = some (0x20 :: [0x20, 0x80, 7])) ∧
    ((0x20 : Byte) &&& 0x20 = 0x20 ∧ (0xDF : Byte) &&& 0x20 = 0 ∧ (0x20 : Byte) &&& 0x20 = (0xFF : Byte) &&& 0x20) ∧
    step oneLiteral = .next (nextOf (step oneLiteral)) :=
  ⟨by decide, by decide, eq_next (by decide)⟩

theorem witness_RawSegmentsCopyTheirBody :
    small.histIdx < small.cfg.histCap ∧ small.busy = false ∧
    ({ small with presented := some [0x1F] }.presented = some (0x1F :: []) ∧ ([] : List Byte).length ≤ outCap) ∧
    ({ small with presented := some [0, 0x41] }.presented = some (0 :: [0x41]) ∧ ([0x41] : List Byte).length ≤ outCap) := by
  decide

theorem witness_RawSegmentsTooLongFail :
    ∃ (s : State) (body : List Byte), s.busy = false ∧ s.presented = some (0 :: body) ∧ outCap < body.length ∧
      body.length + 1 < 2 ^ 32 :=
  ⟨{ small with presented := some (0 :: List.replicate 65537 0) }, List.replicate 65537 0, by decide, rfl,
    by rw [List.length_replicate]; decide, by rw [List.length_replicate]; decide⟩

theorem witness_CompressedSegmentsOpenTheBitstream :
    small.busy = false ∧
    ({ small with presented := some [0x20, 0] }.presented = some (0x20 :: ([] ++ [0])) ∧
      ([] : List Byte).length + 2 < 2 ^ 32 ∧ (0 : Byte).toNat ≤ 8 * ([] : List Byte).length) ∧
    ({ small with presented := some [0x20, 0xFF, 7] }.presented = some (0x20 :: ([0xFF] ++ [7])) ∧
      (7 : Byte).toNat ≤ 7 ∧ (7 : Byte).toNat ≤ 8 * ([0xFF] : List Byte).length) := by decide

/-- A compressed segment with no bitstream byte and a pad indicator of 1. -/
def padWithoutByte : State := { small with presented := some [0x20, 1] }

/-- A token boundary, and an idle core, with the error left over. -/
def staleError (st : DecState) : State :=
  { reading [0x20, 0x80] 9 with state := st, err := some .invalidPadIndicator }

theorem witness_InvalidPadIndicatorIsTheHeaders :
    ((padWithoutByte.busy = false ∧ padWithoutByte.presented = some [0x20, 1] ∧
        (nextOf (step padWithoutByte)).err = some .invalidPadIndicator) ∧
      step padWithoutByte = .next (nextOf (step padWithoutByte))) ∧
    (((staleError .readSelector).state = .readSelector ∧
        (nextOf (step (staleError .readSelector))).err = some .invalidPadIndicator) ∧
      step (staleError .readSelector) = .next (nextOf (step (staleError .readSelector)))) ∧
    (((staleError .failed).busy = false ∧ (staleError .failed).presented = none ∧
        (nextOf (step (staleError .failed))).err = some .invalidPadIndicator) ∧
      step (staleError .failed) = .next (nextOf (step (staleError .failed)))) :=
  ⟨⟨by decide, eq_next (by decide)⟩, ⟨by decide, eq_next (by decide)⟩, ⟨by decide, eq_next (by decide)⟩⟩

theorem witness_SegmentsCutShortFail :
    small.busy = false ∧ { small with presented := some [] }.presented = some [] ∧
    { small with presented := some [0x20] }.presented = some [0x20] ∧ compressed 0x20 = true := by decide

theorem witness_RequestsWithoutMeaningAreRefused :
    midway.busy = true ∧ nMax < 25 ∧
    ({ small with state := .literal }.busy = true ∧ { small with state := .literal }.state ≠ .readSelector) ∧
    (illegalTables.state = .readSelector ∧ illegalTables.cfg.tablesLegal = false) ∧
    ∃ (s : State) (seg : List Byte), s.busy = false ∧ s.presented = some seg ∧ 2 ^ 32 ≤ seg.length :=
  ⟨by decide, by decide, by decide, by decide, { small with presented := some (List.replicate (2 ^ 32) 0) },
    List.replicate (2 ^ 32) 0, by decide, rfl, by rw [List.length_replicate]⟩

theorem witness_SingleFramesPresentTheRest :
    small.busy = false ∧ { small with input := [9, 0xE0], offset := 1 }.input = [9] ++ 0xE0 :: [] ∧
    { small with input := [9, 0xE0], offset := 1 }.offset = [9].length := by decide

theorem witness_MultipartFramesReadTheirHeader :
    (small.busy = false ∧ { small with input := [0xE1, 0, 0, 0, 0, 0], offset := 0 }.input.length < 0 + 7) ∧
    (let s := { small with input := [9, 0xE1, 1, 0, 2, 1, 0, 0], offset := 1 }
     s.busy = false ∧ s.input = [9] ++ 0xE1 :: 1 :: 0 :: 2 :: 1 :: 0 :: 0 :: [] ∧ s.offset = [9].length) := by decide

theorem witness_MultipartLoopPresentsEachSegment :
    (inFrame.busy = false ∧ inFrame.presented = none ∧ inFrame.phase = .multiNext ∧
      inFrame.segIndex < inFrame.segmentCount) ∧
    { inFrame with cursor := 10 }.input.length < { inFrame with cursor := 10 }.cursor + 4 ∧
    (inFrame.input.drop inFrame.cursor = 2 :: 0 :: 0 :: 0 :: [0x00, 0x41] ∧
      2 = (2 : Byte).toNat + 2 ^ 8 * (0 : Byte).toNat + 2 ^ 16 * (0 : Byte).toNat + 2 ^ 24 * (0 : Byte).toNat ∧
      2 ≤ ([0x00, 0x41] : List Byte).length) ∧
    (let s := { inFrame with input := [0xE1, 2, 0, 5, 0, 0, 0, 3, 0, 0, 0, 0x00, 0x41] }
     s.input.drop s.cursor = 3 :: 0 :: 0 :: 0 :: [0x00, 0x41] ∧ ([0x00, 0x41] : List Byte).length < 3) ∧
    ¬inFrame.resetDue :=
  ⟨by decide, by decide, by decide, by decide, not_resetDue rfl⟩

theorem witness_SegmentResultsAreCollected :
    ((collecting .single .done).busy = false ∧ (collecting .single .done).presented = none ∧
      (collecting .single .done).OutInv) ∧
    ((collecting .single .failed).busy = false ∧ (collecting .single .failed).state = .failed) ∧
    ((collecting .multiWait .failed).busy = false ∧ (collecting .multiWait .failed).state = .failed) ∧
    ((collecting .multiWait .done).state = .done ∧
      (collecting .multiWait .done).total + (collecting .multiWait .done).outCnt ≤
        (collecting .multiWait .done).uncompressedSize) ∧
    { collecting .multiWait .done with total := 1 }.uncompressedSize <
      { collecting .multiWait .done with total := 1 }.total + { collecting .multiWait .done with total := 1 }.outCnt := by
  refine ⟨⟨by decide, by decide, ?_⟩, by decide, by decide, by decide, by decide⟩
  exact ⟨by decide, by decide, by decide, by decide⟩

/-- An idle core at the end of the loop of a multipart frame. -/
def atEnd (total : Nat) (policy : UnderrunPolicy) : State :=
  { inFrame with segIndex := 2, total := total, cfg := { small.cfg with underrun := policy } }

theorem witness_MultipartFramesEndByTheirTotal :
    ((atEnd 5 .fail).busy = false ∧ (atEnd 5 .fail).presented = none ∧ (atEnd 5 .fail).phase = .multiNext ∧
      (atEnd 5 .fail).segmentCount ≤ (atEnd 5 .fail).segIndex ∧ (atEnd 5 .fail).total = (atEnd 5 .fail).uncompressedSize) ∧
    ((atEnd 4 .short).total ≠ (atEnd 4 .short).uncompressedSize ∧ (atEnd 4 .short).cfg.underrun = .short) ∧
    ((atEnd 4 .fail).total ≠ (atEnd 4 .fail).uncompressedSize ∧ (atEnd 4 .fail).cfg.underrun = .fail) ∧
    (¬(atEnd 5 .fail).resetDue ∧ ¬(atEnd 4 .short).resetDue) :=
  ⟨by decide, by decide, by decide, not_resetDue rfl, not_resetDue rfl⟩

theorem witness_UnrecognisedInputIsPassedThrough :
    (small.busy = false ∧ small.presented = none ∧ small.phase = .idle ∧
      { small with calls := [.decompress [0xE2] 0] }.calls = .decompress [0xE2] 0 :: []) ∧
    (([0xE2] : List Byte)[0]? = some 0xE2 ∧ (0xE2 : Byte) ≠ 0xE0 ∧ (0xE2 : Byte) ≠ 0xE1) ∧
    ([0xE2] : List Byte).length ≤ 1 := by decide

theorem witness_HostCommandsAreTakenInOrder :
    (small.busy = false ∧ small.presented = none ∧ small.phase = .idle ∧ small.calls = []) ∧
    { small with calls := [.segment [0]] }.calls = .segment [0] :: [] := by decide

theorem witness_DecodeInvertsEncode :
    (ReferenceTables small.cfg ∧ (Instr.matchC0 1 (.ext 16 65535)).wellFormed = true ∧
      (Instr.matchC5 0 .overrun).wellFormed = true ∧ (Instr.segComp 0x20).wellFormed = true ∧
      Instr.frameMulti.wellFormed = true) ∧
    (otherTables.tablesLegal = true ∧ PrefixFree otherTables.litTable ∧ PrefixFree otherTables.matchTable) ∧
    (⟨5, 0b11000, 0, 0⟩ ∈ otherTables.litTable ∧ ⟨3, 0b100, 1, 0⟩ ∈ otherTables.matchTable ∧
      ⟨4, 0b1010, 2, 9⟩ ∈ otherTables.matchTable) ∧
    (1 < 2 ^ 1 ∧ 3 < 2 ^ 2 ∧ (LengthCode.ext 2 3).wellFormed = true ∧ 9 + 3 ≠ 0 ∧ 0 + 0 = 0) :=
  ⟨⟨⟨rfl, rfl⟩, by decide⟩, ⟨by decide, by unfold PrefixFree; decide, by unfold PrefixFree; decide⟩, by decide, by decide⟩

theorem witness_EncodeInvertsDecode :
    decode Config.reference .token (word [1, 1, 0, 0, 0, 1]) = .ok (.row .litc00) [true] ∧
    decode otherTables .token (word [1, 0, 0, 1, 0, 1]) = .ok (.copy ⟨3, 0b100, 1, 0⟩ 1 .three) [true] ∧
    decode Config.reference .segment (word [0, 0, 0, 0, 0, 0, 0, 0]) = .ok (.row (.segRaw 0)) [] ∧
    decode Config.reference .frame (word [1, 1, 1, 0, 0, 0, 0, 0]) = .ok (.row .frameSingle) [] ∧
    ReferenceTables Config.reference := ⟨by decide, by decide, by decide, by decide, rfl, rfl⟩

theorem witness_OnlyTwoPrefixesAreUnmatched :
    ReferenceTables Config.reference ∧
    (8 ≤ (word [1, 1, 1, 1, 1, 1, 1, 1]).length ∧ (word [1, 1, 1, 1, 1, 1, 1, 1]).take 2 = [true, true]) ∧
    decode Config.reference .token (word [1, 0, 0, 0, 0, 1, 1, 1, 1, 0]) = .ok (.row (.illegal10000 15)) [false] :=
  ⟨⟨rfl, rfl⟩, by decide, by decide⟩

theorem witness_EveryLengthHasOneCode :
    (3 ≤ 3 ∧ 131071 < 2 ^ 17) ∧ (LengthCode.ext 16 65535).wellFormed = true ∧
    lengthValue (.ext 16 65535) = some 131071 := by decide

theorem witness_EveryDistanceHasOneClass : (1 ≤ 1 ∧ 33871519 ≤ 33871519) ∧ 33871519 < 33871520 := by decide

/-- A core at a token boundary in a 15-bit budget: a coded literal, then a literal cut short. -/
def twoTokens : State := reading [0xC0, 0x40, 0x80] 12

theorem witness_StepRunsTheDecodedToken :
    (midway.ReaderInv ∧ midway.cfg.tablesLegal = true ∧ midway.state = .readSelector ∧
      decode midway.cfg .token midway.tokenBits = .ok (.row (.illegal10000 7)) [true]) ∧
    (twoTokens.ReaderInv ∧ twoTokens.cfg.tablesLegal = true ∧ twoTokens.state = .readSelector ∧
      decode twoTokens.cfg .token twoTokens.tokenBits = .ok (.row .litc00) (word [0, 0, 0, 0, 1, 0, 0])) ∧
    ((readingOther [0xE0] 3).ReaderInv ∧ (readingOther [0xE0] 3).cfg.tablesLegal = true ∧
      (readingOther [0xE0] 3).state = .readSelector ∧
      decode (readingOther [0xE0] 3).cfg .token (readingOther [0xE0] 3).tokenBits =
        .ok (.literal ⟨3, 0b111, 0, 0x51⟩) []) :=
  ⟨⟨reader_of_check (by decide), by decide, by decide, by decide⟩,
    ⟨reader_of_check (by decide), by decide, by decide, by decide⟩,
    ⟨reader_of_check (by decide), by decide, by decide, by decide⟩⟩

theorem witness_TokensCutShortFail :
    (reading [0x20] 8).ReaderInv ∧ (reading [0x20] 8).cfg.tablesLegal = true ∧
      (reading [0x20] 8).state = .readSelector ∧
      decode (reading [0x20] 8).cfg .token (reading [0x20] 8).tokenBits =
        .stop .exhausted (word [0, 1, 0, 0, 0, 0, 0]) :=
  ⟨reader_of_check (by decide), by decide, by decide, by decide⟩

theorem oneLiteral_inv : oneLiteral.Inv := inv_of_check (by decide)
theorem twoTokens_inv : twoTokens.Inv := inv_of_check (by decide)

theorem witness_StepKeepsTheInvariant :
    (midway.Inv ∧ step midway = .next (nextOf (step midway))) ∧
    (twoTokens.Inv ∧ step twoTokens = .next (nextOf (step twoTokens))) ∧
    (inFrame.Inv ∧ step inFrame = .next (nextOf (step inFrame))) :=
  ⟨⟨midway_inv, eq_next (by decide)⟩, ⟨twoTokens_inv, eq_next (by decide)⟩, ⟨inFrame_inv, eq_next (by decide)⟩⟩

/-- A core in whose segment one byte has been emitted, at the last address of the ring. -/
def oneEmitted : State :=
  { twoTokens with hist := ⟨[(15, 0x41)]⟩, out := ⟨[(0, 0x41)]⟩, outCnt := 1 }

theorem witness_StepKeepsTheTailsEqual :
    oneEmitted.Inv ∧ oneEmitted.TailAgrees ∧ step oneEmitted = .next (nextOf (step oneEmitted)) :=
  ⟨inv_of_check (by decide), by unfold State.TailAgrees; decide, eq_next (by decide)⟩

theorem witness_SoundStatesGoOn : midway.Inv ∧ inFrame.Inv ∧ small.Inv :=
  ⟨midway_inv, inFrame_inv, inv_of_check (by decide)⟩

/-- An idle core whose host asks for a session reset. -/
def resetPending : State := { small with calls := [.sessionReset], hist := ⟨[(0, 0x41)]⟩, histIdx := 1 }

/-- An idle core whose host resets the session before the first segment of the frame it has open. -/
def resetInLoop : State := { inFrame with calls := [.resetInFrame 0], hist := ⟨[(0, 0x41)]⟩, histIdx := 1 }

theorem resetPending_due : resetPending.resetDue := ⟨by decide, rfl, .inl ⟨rfl, [], .inl rfl⟩⟩

theorem test_reset_clears_ring : (nextOf (step resetInLoop)).hist.cells = [] := by decide
theorem test_reset_keeps_frame : (nextOf (step resetInLoop)).phase = .multiNext := by decide

theorem witness_SessionResetsRenewTheContext : resetPending.resetDue ∧ resetInLoop.resetDue :=
  ⟨resetPending_due, by decide, rfl, .inr ⟨rfl, [], rfl⟩⟩

theorem witness_HistoryOnlyGrowsOrIsReset :
    (twoTokens.state = .readSelector ∧ step twoTokens = .next (nextOf (step twoTokens))) ∧
    ((small.busy = false ∧ compressed 0x1F = false ∧
        { small with presented := some [0x1F, 0x41] }.presented = some (0x1F :: [0x41])) ∧
      step { small with presented := some [0x1F, 0x41] } =
        .next (nextOf (step { small with presented := some [0x1F, 0x41] }))) ∧
    (resetPending.resetDue ∧ step resetPending = .next (nextOf (step resetPending))) ∧
    ((oneLiteral.busy = false ∧ oneLiteral.presented = some (0x20 :: [0x20, 0x80, 7]) ∧ compressed 0x20 = true) ∧
      ¬oneLiteral.resetDue ∧ step oneLiteral = .next (nextOf (step oneLiteral))) :=
  ⟨⟨by decide, eq_next (by decide)⟩, ⟨by decide, eq_next (by decide)⟩, ⟨resetPending_due, eq_next (by decide)⟩,
    by decide, not_resetDue rfl, eq_next (by decide)⟩

theorem witness_IdleCoreHoldsItsState :
    (small.busy = false ∧ small.presented = none) ∧ ¬small.resetDue ∧ step small = .next (nextOf (step small)) :=
  ⟨by decide, not_resetDue rfl, eq_next (by decide)⟩

theorem witness_FailingTokensWriteNoMemory :
    (midway.state = .readSelector ∧ (nextOf (step midway)).state = .failed) ∧
    step midway = .next (nextOf (step midway)) :=
  ⟨by decide, eq_next (by decide)⟩

theorem witness_TokensConsumeBits :
    twoTokens.ReaderInv ∧ (twoTokens.state = .readSelector ∧ (nextOf (step twoTokens)).state ≠ .failed) ∧
    ReferenceTables twoTokens.cfg ∧ step twoTokens = .next (nextOf (step twoTokens)) :=
  ⟨twoTokens_inv.reader, by decide, ⟨rfl, rfl⟩, eq_next (by decide)⟩

/-- A core at an unencoded run of three bytes (rule R233's example). -/
def atRun : State := reading [0x88, 0x00, 0x01, 0x80, 0xDE, 0xAD, 0xBE] 56

theorem witness_CompletedTokensAdvanceByTheirLength :
    atRun.ReaderInv ∧
    (atRun.state = .readSelector ∧
      decode atRun.cfg .token atRun.tokenBits = .ok (.row (.unenc 3)) (List.replicate 7 false ++ streamBits [0xDE, 0xAD, 0xBE]) ∧
      (nextOf (step atRun)).state ≠ .failed) ∧
    step atRun = .next (nextOf (step atRun)) :=
  ⟨reader_of_check (by decide), by decide, eq_next (by decide)⟩

theorem witness_SegmentDecodesEnd :
    (twoTokens.Inv ∧ twoTokens.state = .readSelector ∧ ReferenceTables twoTokens.cfg) ∧
    ((readingOther [0xE0] 3).Inv ∧ (readingOther [0xE0] 3).state = .readSelector) :=
  ⟨⟨twoTokens_inv, by decide, rfl, rfl⟩, inv_of_check (by decide), by decide⟩

theorem witness_EveryCallReturns :
    (inFrame.Inv ∧ inFrame.phase ≠ .idle ∧ ∀ seg, inFrame.presented = some seg → seg.length < 2 ^ 32) ∧
    (({ oneLiteral with phase := .single } : State).Inv ∧
      ∀ seg, ({ oneLiteral with phase := .single } : State).presented = some seg → seg.length < 2 ^ 32) :=
  ⟨⟨inFrame_inv, by decide, fun _ h => nomatch h⟩,
    ⟨inv_of_check (by decide), fun seg h => by cases h; decide⟩⟩

theorem witness_RawFramesReturnTheirBody :
    ({ small with calls := [.decompress [9, 0xE0, 0x1F, 0x41] 1] } : State).Inv ∧
    (small.busy = false ∧ small.phase = .idle ∧ small.presented = none ∧
      { small with calls := [.decompress [9, 0xE0, 0x1F, 0x41] 1] }.calls =
        .decompress ([9] ++ 0xE0 :: 0x1F :: [0x41]) [9].length :: [] ∧
      compressed 0x1F = false ∧ ([0x41] : List Byte).length ≤ outCap) :=
  ⟨inv_of_check (by decide), by decide⟩

/-- An idle core to which a segment of one unencoded run of one byte, with its alignment bits set, is presented. -/
def oneRun : State := { small with presented := some [0x20, 0x88, 0x00, 0x00, 0xFF, 0x41, 0] }

theorem witness_UnencodedSegmentsDecodeToTheirBytes :
    oneRun.Inv ∧ ReferenceTables oneRun.cfg ∧
    (oneRun.busy = false ∧ (List.replicate 7 true).length = 7 ∧ ([0x41] : List Byte).length < 2 ^ 15 ∧
      compressed 0x20 = true ∧
      oneRun.presented =
        some (0x20 :: (packBits 4 (encode (.unenc (BitVec.ofNat 15 ([0x41] : List Byte).length)) ++
          List.replicate 7 true) ++ [0x41] ++ [0]))) :=
  ⟨inv_of_check (by decide), ⟨rfl, rfl⟩, by decide⟩

theorem witness_SingleLiteralSegmentsDecode :
    oneLiteral.Inv ∧
    (oneLiteral.busy = false ∧ compressed 0x20 = true ∧
      oneLiteral.presented = some [0x20, (0x41#8) >>> (1 : Nat), (0x41#8) <<< (7 : Nat), 7]) :=
  ⟨oneLiteral_inv, by decide⟩

end Sys2Proof.Tests
end

/-! PROOFS. The BitReader after `init` (rules R120 to R122): where a row of reads stands, when the next read succeeds, and
the budget the segment decoder sets up. -/

namespace Sys2Proof.Machine

/-! ### One read -/

/-- Rule R122: both checks come before the refill. -/
theorem getBits_exhausted {n : Nat} {s : State} (hn : n ≤ nMax)
    (h : s.bitsRem < n ∨ 8 * (s.inLen - s.byteCur) + s.accCnt < n) :
    getBits n s = .stop (.raise .bitstreamExhausted) s := by
  rcases getBits_cases n s with ⟨hwide, _⟩ | ⟨_, _, e⟩ | ⟨_, hbudget, hslice, _⟩
  · omega
  · exact e
  · omega

/-- A read within budget and slice succeeds: the refill only asks for bytes that the slice check has counted. -/
theorem getBits_succeeds {n : Nat} {s : State} (hlen : s.inLen = s.inBytes.length) (hn : n ≤ nMax)
    (hbudget : n ≤ s.bitsRem) (hslice : n ≤ 8 * (s.inLen - s.byteCur) + s.accCnt) :
    ∃ v t, getBits n s = .ok v t := by
  rcases getBits_cases n s with ⟨hwide, _⟩ | ⟨_, hshort, _⟩ | ⟨_, _, _, ⟨t, _, e⟩ | ⟨_, t, hr, _⟩⟩
  · omega
  · omega
  · exact ⟨_, _, e⟩
  · rcases refill_cases n 3 s with ⟨u, hu, _⟩ | ⟨u, _, hend, hle, hneed⟩
    · rw [hr] at hu; cases hu
    · omega

/-- What a read that succeeds had to find in the slice, and how far it moves: `BIT_POS` by `n`, with the cursor still
inside the slice (rules R27, R121). -/
theorem getBits_moves {n : Nat} {s t : State} {v : Nat} (h : getBits n s = .ok v t) :
    n ≤ 8 * (s.inLen - s.byteCur) + s.accCnt ∧ t.accCnt + n + 8 * s.byteCur = s.accCnt + 8 * t.byteCur ∧
      (s.byteCur ≤ s.inLen → t.byteCur ≤ s.inLen) := by
  rcases getBits_cases n s with ⟨_, e⟩ | ⟨_, _, e⟩ | ⟨hn, _, hslice, ⟨r, hr, e⟩ | ⟨_, _, _, e⟩⟩
  · rw [e] at h; cases h
  · rw [e] at h; cases h
  · rw [e] at h; cases h
    rcases refill_cases n 3 s with ⟨u, hu, _, hle, hpos, henough, hstop⟩ | ⟨u, hu, _⟩
    · rw [hr] at hu; cases hu
      have hcnt : n ≤ r.accCnt := henough (by simp only [nMax] at hn; omega)
      simp only [State.dropBits_accCnt, State.dropBits_byteCur]
      exact ⟨hslice, by omega, by omega⟩
    · rw [hr] at hu; cases hu
  · rw [e] at h; cases h

/-! ### A row of reads after `init` -/

/-- The BitReader `k` bits after `init(bytes, n)`: position and budget have moved by `k`, with the cursor inside the
slice. Unlike `State.ReaderInv` it allows a budget past the slice. -/
structure State.ReadSoFar (bytes : List Byte) (n k : Nat) (t : State) : Prop where
  inBytes : t.inBytes = bytes
  inLen : t.inLen = bytes.length
  cur_le : t.byteCur ≤ bytes.length
  position : t.accCnt + k = 8 * t.byteCur
  budget : t.bitsRem + k = n

theorem State.initReader_readSoFar (s : State) (bytes : List Byte) (n : Nat) :
    (s.initReader bytes n).ReadSoFar bytes n 0 where
  inBytes := rfl
  inLen := rfl
  cur_le := Nat.zero_le _
  position := rfl
  budget := rfl

namespace State.ReadSoFar

variable {bytes : List Byte} {n k m : Nat} {t u : State}

theorem getBits_ok {v : Nat} (h : t.ReadSoFar bytes n k) (hg : getBits m t = .ok v u) :
    u.ReadSoFar bytes n (k + m) := by
  obtain ⟨hbytes, hlen, hcur, hpos, hbudget⟩ := h
  obtain ⟨hframe, hm, _⟩ := getBits_frame hg
  obtain ⟨_, hmove, hin⟩ := getBits_moves hg
  exact {
    inBytes := by rw [hframe]; exact hbytes
    inLen := by rw [hframe]; exact hlen
    cur_le := by omega
    position := by omega
    budget := by rw [hframe]; simp only; omega }

/-- The next read fails as soon as it would pass the budget or the slice's last bit. -/
theorem getBits_stop (h : t.ReadSoFar bytes n k) (hm : m ≤ nMax) (hpast : n < k + m ∨ 8 * bytes.length < k + m) :
    getBits m t = .stop (.raise .bitstreamExhausted) t := by
  obtain ⟨_, hlen, hcur, hpos, hbudget⟩ := h
  exact getBits_exhausted hm (by omega)

theorem readAll_ok {ns : List Nat} (h : t.ReadSoFar bytes n k) (hr : readAll ns t = .ok () u) :
    u.ReadSoFar bytes n (k + ns.sum) := by
  induction ns generalizing t k with
  | nil => cases hr; exact h
  | cons m ns ih =>
    obtain ⟨v, t', hg, hrest⟩ := Res.bind_eq_ok hr
    rw [List.sum_cons, ← Nat.add_assoc]
    exact ih (h.getBits_ok hg) hrest

theorem readAll_succeeds {ns : List Nat} (h : t.ReadSoFar bytes n k) (hns : ∀ m, m ∈ ns → m ≤ nMax)
    (hbudget : k + ns.sum ≤ n) (hslice : k + ns.sum ≤ 8 * bytes.length) : ∃ u, readAll ns t = .ok () u := by
  induction ns generalizing t k with
  | nil => exact ⟨t, rfl⟩
  | cons m ns ih =>
    rw [List.sum_cons] at hbudget hslice
    obtain ⟨v, t', hg⟩ : ∃ v t', getBits m t = .ok v t' := by
      obtain ⟨hbytes, hlen, hcur, hpos, hrem⟩ := h
      exact getBits_succeeds (by rw [hlen, hbytes]) (hns m List.mem_cons_self) (by omega) (by omega)
    obtain ⟨u, hu⟩ := ih (h.getBits_ok hg) (fun a ha => hns a (List.mem_cons_of_mem m ha)) (by omega) (by omega)
    exact ⟨u, by rw [readAll, hg]; exact hu⟩

end State.ReadSoFar

/-! ### The budget of a compressed segment -/

theorem bitstreamBytes_length (seg : List Byte) : (bitstreamBytes seg).length = seg.length - 2 := by
  rw [bitstreamBytes, List.length_take, List.length_drop]
  omega

/-- Rule R223: the budget is the bits of the bitstream bytes less the padding. -/
theorem openBitstream_budget_le {seg : List Byte} {s t : State} (h : openBitstream seg s = .ok () t) :
    t.bitsRem ≤ 8 * t.inLen := by
  rcases openBitstream_cases seg s with ⟨_, e⟩ | ⟨_, _, e⟩ | ⟨_, _, _, e⟩
  · rw [e] at h; cases h
  · rw [e] at h; cases h
  · rw [e] at h; cases h
    rw [State.initReader_bitsRem, State.initReader_inLen, bitstreamBytes_length, bitBudget]
    exact Nat.sub_le _ _

/-- Settles O7: `ReadSoFar` holds right after `init` with `k = 0`, and every read of a row adds its width to `k`. -/
theorem initStartsTheBitReader : Obligations.InitStartsTheBitReader := by
  intro s bytes n
  have hinit := s.initReader_readSoFar bytes n
  refine ⟨rfl, ?zeroBudget, ?past, ?within, fun seg t h => openBitstream_budget_le h⟩
  case zeroBudget =>
    intro hn m hpos hm
    exact hinit.getBits_stop hm (by omega)
  case past =>
    intro ns m t hr hm hpast
    exact (hinit.readAll_ok hr).getBits_stop hm (by omega)
  case within =>
    intro ns hns hbudget hslice
    exact hinit.readAll_succeeds hns (by omega) (by omega)

end Sys2Proof.Machine

/-! PROOFS. The history ring and the match copy (rules R200 to R204, R208): what a row of ring writes leaves to read,
what `append` changes, where a match reads from, and what it emits. -/

namespace Sys2Proof.Machine

/-! ### The ring after a row of writes -/

/-- The ring is read `mod HIST_CAP` (rule R61). -/
theorem State.histByte_congr {s : State} {a a' : Nat} (h : a % s.cfg.histCap = a' % s.cfg.histCap) :
    s.histByte a = s.histByte a' := by
  rw [State.histByte, State.histByte, h]

/-- Fewer than `HIST_CAP` addresses on from `h`, the ring has not come round to `h` again. -/
theorem add_mod_ne_mod {h k n : Nat} (hpos : 0 < k) (hk : k < n) : (h + k) % n ≠ h % n := fun e =>
  Nat.not_dvd_of_pos_of_lt hpos hk (Nat.add_modEq_left_iff.mp e)

/-- The index after at least one write; the first already reduces it `mod HIST_CAP`. -/
theorem State.histIdx_ringWrite_cons (s : State) (b : Byte) (bs : List Byte) :
    (s.ringWrite (b :: bs)).histIdx = (s.histIdx + (b :: bs).length) % s.cfg.histCap := by
  induction bs generalizing s b with
  | nil => rfl
  | cons c cs ih =>
    rw [State.ringWrite_cons, ih, State.ringWriteByte_cfg, State.ringWriteByte_histIdx, Nat.mod_add_mod]
    simp only [List.length_cons]
    congr 1
    omega

/-- The index after `ring_write` (rule R201). -/
theorem State.histIdx_ringWrite {s : State} {bs : List Byte} (h : bs = [] → s.histIdx < s.cfg.histCap) :
    (s.ringWrite bs).histIdx = (s.histIdx + bs.length) % s.cfg.histCap := by
  cases bs with
  | nil => exact (Nat.mod_eq_of_lt (h rfl)).symm
  | cons b bs => exact s.histIdx_ringWrite_cons b bs

/-- `ring_write` leaves every address that it does not pass. -/
theorem State.histByte_ringWrite_old {s : State} {bs : List Byte} {a : Nat}
    (h : ∀ i, i < bs.length → a % s.cfg.histCap ≠ (s.histIdx + i) % s.cfg.histCap) :
    (s.ringWrite bs).histByte a = s.histByte a := by
  induction bs generalizing s with
  | nil => rfl
  | cons b bs ih =>
    have hfirst : a % s.cfg.histCap ≠ s.histIdx % s.cfg.histCap := h 0 (Nat.succ_pos _)
    rw [State.ringWrite_cons, ih, State.histByte_ringWriteByte, if_neg hfirst]
    intro i hi
    rw [State.ringWriteByte_cfg, State.ringWriteByte_histIdx, Nat.mod_add_mod, Nat.add_assoc, Nat.add_comm 1 i]
    exact h (i + 1) (Nat.succ_lt_succ hi)

/-- The last `HIST_CAP` bytes of a row of writes stand in the ring from the old index on (rules R200, R201): later
writes come round to an address only after `HIST_CAP` of them. -/
theorem State.histByte_ringWrite_new {s : State} {bs : List Byte} {i : Nat} (hi : i < bs.length)
    (hlast : bs.length ≤ i + s.cfg.histCap) :
    some ((s.ringWrite bs).histByte (s.histIdx + i)) = bs[i]? := by
  induction bs generalizing s i with
  | nil => exact absurd hi (Nat.not_lt_zero i)
  | cons b bs ih =>
    rw [List.length_cons] at hi hlast
    rw [State.ringWrite_cons]
    cases i with
    | zero =>
      have hkept : ∀ j, j < bs.length → (s.histIdx + 0) % (s.ringWriteByte b).cfg.histCap ≠
          ((s.ringWriteByte b).histIdx + j) % (s.ringWriteByte b).cfg.histCap := by
        intro j hj
        rw [State.ringWriteByte_cfg, State.ringWriteByte_histIdx, Nat.mod_add_mod, Nat.add_assoc]
        exact (add_mod_ne_mod (by omega) (by omega)).symm
      rw [State.histByte_ringWrite_old hkept, State.histByte_ringWriteByte, Nat.add_zero, if_pos rfl,
        List.getElem?_cons_zero]
    | succ k =>
      have haddr : (s.histIdx + (k + 1)) % ((s.ringWriteByte b).ringWrite bs).cfg.histCap =
          ((s.ringWriteByte b).histIdx + k) % ((s.ringWriteByte b).ringWrite bs).cfg.histCap := by
        rw [State.ringWrite_cfg, State.ringWriteByte_cfg, State.ringWriteByte_histIdx, Nat.mod_add_mod, Nat.add_assoc,
          Nat.add_comm 1 k]
      rw [State.histByte_congr haddr, List.getElem?_cons_succ]
      exact ih (by omega) (by rw [State.ringWriteByte_cfg]; omega)

/-- Settles O12: read after write for one byte, and `histByte_ringWrite_new` for a ring's length of them. -/
theorem ringWriteByteWritesAndAdvances : Obligations.RingWriteByteWritesAndAdvances := by
  refine ⟨?one, ?many, ?rulesExample⟩
  case one =>
    intro s b hidx
    have hmod : s.histIdx % s.cfg.histCap = s.histIdx := Nat.mod_eq_of_lt hidx
    refine ⟨?written, ?others, rfl, Nat.mod_lt _ (by omega), ?wraps, rfl⟩
    case written => rw [State.histByte_ringWriteByte, if_pos rfl]
    case others =>
      intro a ha
      rw [State.histByte_ringWriteByte, hmod, if_neg ha]
    case wraps =>
      intro hlast
      rw [State.ringWriteByte_histIdx, hlast, Nat.sub_add_cancel (by omega), Nat.mod_self]
  case many =>
    intro s bytes _ hlen i hi
    exact State.histByte_ringWrite_new hi (by omega)
  case rulesExample =>
    intro s hcap hidx
    refine ⟨?_, by rw [State.ringWriteByte_histIdx, hcap, hidx]⟩
    rw [State.histByte_ringWriteByte, hcap, hidx, if_pos rfl]

/-! ### What `append` and the loop test change -/

/-- `append` changes the ring, the output and their two registers only. -/
theorem State.append_eq (s : State) (bs : List Byte) :
    s.append bs =
      { s with hist := (s.append bs).hist, histIdx := (s.append bs).histIdx, out := (s.append bs).out,
               outCnt := (s.append bs).outCnt } := by
  rw [State.append, State.ringWrite_eq]

/-- The ring reads the same after `append` as after `ring_write` alone. -/
theorem State.histByte_append (s : State) (bs : List Byte) (a : Nat) :
    (s.append bs).histByte a = (s.ringWrite bs).histByte a := by
  rw [State.histByte, State.histByte, State.append_hist, State.append_cfg, State.ringWrite_cfg]

/-- Rules R201, R208: the writes of `emit` append to output and ring. -/
theorem State.append_emitted {s : State} {bs : List Byte} (h : bs = [] → s.histIdx < s.cfg.histCap) :
    Emitted bs s (s.append bs) where
  outCnt := s.append_outCnt bs
  histIdx := by rw [State.append_histIdx, State.histIdx_ringWrite h]
  outNew := by
    intro i hi
    rw [State.append_out, Memory.get?_writeList, if_pos (by omega), Nat.add_sub_cancel_left]
  outOld := by
    intro a ha
    rw [State.append_out, Memory.get?_writeList, if_neg (by omega)]
  histNew := by
    intro i hi hlast
    rw [State.histByte_append, State.histByte_ringWrite_new hi hlast]
  histOld := by
    intro a ha
    rw [State.histByte_append, State.histByte_ringWrite_old ha]

/-- The loop test writes `STATE` only, so what was emitted before it still is. -/
theorem Emitted.loopTest {bs : List Byte} {s t : State} (h : Emitted bs s t) : Emitted bs s t.loopTest :=
  ⟨h.outCnt, h.histIdx, h.outNew, h.outOld, h.histNew, h.histOld⟩

theorem State.append_loopTest_sameAround (s : State) (bs : List Byte) : SameAroundToken s (s.append bs).loopTest := by
  rw [State.append_eq]
  exact ⟨⟨rfl, rfl, rfl, rfl, rfl, rfl⟩, ⟨rfl, rfl⟩,
    ⟨rfl, rfl, rfl, rfl, rfl, rfl, rfl, rfl, rfl, rfl, rfl, rfl, rfl, rfl⟩, rfl⟩

theorem State.append_loopTest_sameWorking (s : State) (bs : List Byte) : SameWorking s (s.append bs).loopTest := by
  rw [State.append_eq]
  exact ⟨rfl, rfl, rfl, rfl, rfl, rfl, rfl⟩

/-- The loop test of rule R224, in the statements' words. -/
theorem State.loopTest_state_eq (s : State) : s.loopTest.state = afterToken s.bitsRem := by
  rw [State.loopTest_state, afterToken]
  by_cases h : s.bitsRem = 0
  · rw [if_pos h, if_neg (by omega)]
  · rw [if_neg h, if_pos (by omega)]

/-! ### Where a match reads from -/

/-- Rules R9, R203: a remainder by a positive divisor is not negative, so `toNat` loses nothing. -/
theorem State.sourceAddr_cast {s : State} (hcap : 0 < s.cfg.histCap) (d i : Nat) :
    ((s.sourceAddr d i : Nat) : Int) = ((s.histIdx : Int) - d + i) % (s.cfg.histCap : Int) :=
  Int.toNat_of_nonneg (Int.emod_nonneg _ (by omega))

theorem State.sourceAddr_lt {s : State} (hcap : 0 < s.cfg.histCap) (d i : Nat) : s.sourceAddr d i < s.cfg.histCap := by
  have hlt : ((s.sourceAddr d i : Nat) : Int) < (s.cfg.histCap : Int) := by
    rw [State.sourceAddr_cast hcap]
    exact Int.emod_lt_of_pos _ (by omega)
  omega

/-- Unsigned registers (rule R236): the distance is reduced and `HIST_CAP` is added before it is taken off. -/
theorem State.sourceAddr_unsigned {s : State} (hcap : 0 < s.cfg.histCap) (d : Nat) :
    s.sourceAddr d 0 = (s.histIdx + s.cfg.histCap - d % s.cfg.histCap) % s.cfg.histCap := by
  have hle : d % s.cfg.histCap ≤ s.histIdx + s.cfg.histCap := by have := Nat.mod_lt d hcap; omega
  zify [hle]
  rw [State.sourceAddr_cast hcap, Nat.cast_zero, Int.add_zero, Int.sub_emod_emod, add_sub_right_comm,
    Int.add_emod_right]

/-- A distance inside the part of the ring below the index: no wrap. -/
theorem State.sourceAddr_of_le {s : State} {d : Nat} (hidx : s.histIdx < s.cfg.histCap) (hd : d ≤ s.histIdx) :
    s.sourceAddr d 0 = s.histIdx - d := by
  zify [hd]
  rw [State.sourceAddr_cast (by omega), Nat.cast_zero, Int.add_zero, Int.emod_eq_of_lt (by omega) (by omega)]

/-- A distance past the index: the address wraps to the top of the ring. -/
theorem State.sourceAddr_of_gt {s : State} {d : Nat} (hcap : 0 < s.cfg.histCap) (hlow : s.histIdx < d)
    (hhigh : d ≤ s.histIdx + s.cfg.histCap) : s.sourceAddr d 0 = s.histIdx + s.cfg.histCap - d := by
  zify [hhigh]
  rw [State.sourceAddr_cast hcap, Nat.cast_zero, Int.add_zero, ← Int.add_emod_right, ← add_sub_right_comm,
    Int.emod_eq_of_lt (by omega) (by omega)]

/-- Byte `i` of a match lies `i` addresses after its first (rule R204). -/
theorem State.sourceAddr_add {s : State} (hcap : 0 < s.cfg.histCap) (d i : Nat) :
    s.sourceAddr d i = (s.sourceAddr d 0 + i) % s.cfg.histCap := by
  zify
  rw [State.sourceAddr_cast hcap, State.sourceAddr_cast hcap, Nat.cast_zero, Int.add_zero, Int.emod_add_emod]

/-- Settles O14: each clause is one of the facts about `sourceAddr` above. -/
theorem sourceAddressIsInsideTheRing : Obligations.SourceAddressIsInsideTheRing := by
  intro s d hidx
  have hcap : 0 < s.cfg.histCap := by omega
  refine ⟨?floor, State.sourceAddr_lt hcap d 0, State.sourceAddr_unsigned hcap d, State.sourceAddr_of_le hidx,
    State.sourceAddr_of_gt hcap, State.sourceAddr_add hcap d, ?rulesExample⟩
  case floor => rw [State.sourceAddr_cast hcap, Nat.cast_zero, Int.add_zero]
  case rulesExample =>
    intro h16 h2
    rw [State.sourceAddr_of_gt hcap (by omega) (by omega), h16, h2]

/-! ### The bytes of a match -/

/-- The periodic formula of rule R204. -/
theorem State.matchBytes_getElem? (s : State) (d : Nat) {l i : Nat} (hi : i < l) :
    (s.matchBytes d l)[i]? = some (s.histByte (s.sourceAddr d (i % d))) := by
  rw [State.matchBytes, List.getElem?_map, List.getElem?_range hi, Option.map_some]

/-- The periodic formula meets rule R204's recursion: `i - d` and `i` have the same remainder by `d`. -/
theorem State.matchBytes_isMatchOutput (s : State) (d l : Nat) : IsMatchOutput s d l (s.matchBytes d l) := by
  refine ⟨matchBytes_length s d l, fun i hi => ?_⟩
  rw [s.matchBytes_getElem? d hi]
  by_cases hd : i < d
  · rw [if_pos hd, Nat.mod_eq_of_lt hd]
  · rw [if_neg hd, s.matchBytes_getElem? d (by omega), ← Nat.mod_eq_sub_mod (by omega)]

/-- One period more in front of a match. -/
theorem State.matchBytes_period_add (s : State) (d l : Nat) :
    s.matchBytes d (d + l) = s.matchBytes d d ++ s.matchBytes d l := by
  simp only [State.matchBytes, List.range_add, List.map_append, List.map_map, Function.comp_def, Nat.add_mod_left]

/-- One period of a match is the history's own suffix of `d` bytes. -/
theorem State.matchBytes_period {s : State} {bytes : List Byte}
    (h : ∀ i, i < bytes.length → some (s.histByte (s.sourceAddr bytes.length i)) = bytes[i]?) :
    s.matchBytes bytes.length bytes.length = bytes := by
  apply List.ext_getElem?
  intro i
  by_cases hi : i < bytes.length
  · rw [s.matchBytes_getElem? _ hi, Nat.mod_eq_of_lt hi, h i hi]
  · rw [List.getElem?_eq_none (by rw [matchBytes_length]; omega), List.getElem?_eq_none (by omega)]

/-! ### The match copy -/

/-- A match that fits is appended whole, and the loop test follows (rules R204, R224, R232). -/
theorem matchCopy_ok {d l : Nat} {s : State} (h : l ≤ outCap - s.outCnt) :
    matchCopy d l s = .ok () (s.append (s.matchBytes d l)).loopTest := by
  rw [matchCopy, if_neg (by omega), emitAndLoop]
  rcases emit_cases (s.matchBytes d l) s with ⟨hfull, _⟩ | ⟨_, hemit⟩
  · rw [matchBytes_length] at hfull
    omega
  · rw [hemit, Res.bind_of_ok]

/-- Settles O15: `matchCopy` appends `matchBytes`, which is one period of the history repeated. -/
theorem matchCopyEmitsThePeriodicOutput : Obligations.MatchCopyEmitsThePeriodicOutput := by
  intro s d l _ hidx
  refine ⟨s.matchBytes_isMatchOutput d l, fun i hi => s.matchBytes_getElem? d hi, ?emits, ?doubled⟩
  case emits =>
    intro hfits
    refine ⟨_, matchCopy_ok hfits, (State.append_emitted fun _ => hidx).loopTest, s.append_loopTest_sameAround _,
      s.append_loopTest_sameWorking _, ?_⟩
    rw [State.loopTest_state_eq, State.append_bitsRem]
  case doubled =>
    intro a b c e hsuffix
    have hperiod : s.matchBytes 4 4 = [a, b, c, e] := State.matchBytes_period (bytes := [a, b, c, e]) hsuffix
    rw [s.matchBytes_period_add 4 4, hperiod]
    rfl

end Sys2Proof.Machine

/-! PROOFS. The control byte of a presented segment (rules R31, R220 to R223): bit `0x20` selects the form, and
whichever form runs, the byte itself goes to `CTRL` and nowhere else. -/

namespace Sys2Proof.Machine

/-! ### The bit that selects the form -/

/-- Masking a control byte with `0x20` leaves the field `COMPRESSED` alone in its place. -/
theorem and_0x20_eq (c : Byte) : c &&& 0x20 = if compressed c then 0x20 else 0 := BitVec.and_twoPow c 5

theorem and_eq_0x20_iff (c : Byte) : c &&& 0x20 = 0x20 ↔ compressed c = true := by
  rw [and_0x20_eq]
  cases compressed c <;> decide

theorem and_0x20_eq_zero_iff (c : Byte) : c &&& 0x20 = 0 ↔ compressed c = false := by
  rw [and_0x20_eq]
  cases compressed c <;> decide

theorem compressed_congr {c c' : Byte} (h : c &&& 0x20 = c' &&& 0x20) : compressed c = compressed c' := by
  rw [Bool.eq_iff_iff, ← and_eq_0x20_iff, ← and_eq_0x20_iff, h]

theorem decodeSegment_of_compressed {c : Byte} (h : compressed c = true) : decodeSegment c = .segComp c := if_pos h

theorem decodeSegment_of_not_compressed {c : Byte} (h : compressed c = false) : decodeSegment c = .segRaw c :=
  if_neg (Bool.eq_false_iff.mp h)

/-- A presented segment is run in the form its control byte selects (rules R220, R221). -/
theorem step_of_presented {s : State} {c : Byte} {body : List Byte} (hbusy : s.busy = false)
    (hseg : s.presented = some (c :: body)) : step s = exec (decodeSegment c) s := by
  have hfetch : fetch s = .run (.row (decodeSegment c)) s := by
    rw [fetch_idle hbusy, fetchHost, hseg]
    rfl
  rw [step_of_fetch_run hfetch, execForm_row]

theorem step_of_compressed {s : State} {c : Byte} {body : List Byte} (hbusy : s.busy = false)
    (hseg : s.presented = some (c :: body)) (hc : compressed c = true) : step s = exec (.segComp c) s := by
  rw [step_of_presented hbusy hseg, decodeSegment_of_compressed hc]

theorem step_of_not_compressed {s : State} {c : Byte} {body : List Byte} (hbusy : s.busy = false)
    (hseg : s.presented = some (c :: body)) (hc : compressed c = false) : step s = exec (.segRaw c) s := by
  rw [step_of_presented hbusy hseg, decodeSegment_of_not_compressed hc]

/-! ### Two runs that differ in `CTRL` only -/

/-- `t` is `s` with `c` in `CTRL`. -/
def SameButCtrl (c : Byte) (s t : State) : Prop := t = { s with ctrl := c }

/-- Two operations end alike: the same value or the same stop, in states that are the same but for `c` in `CTRL`. -/
abbrev AlikeButCtrl {α : Type} (c : Byte) (x y : Act α) : Prop := Res.Rel Eq (SameButCtrl c) x y

theorem outcomeOf_alikeButCtrl {c : Byte} {x y : Act Unit} {t : State} (h : AlikeButCtrl c x y)
    (hx : outcomeOf x = .next t) : outcomeOf y = .next { t with ctrl := c } := by
  rcases outcomeOf_eq_next hx with rfl | ⟨k, u, rfl, rfl⟩
  · cases y with
    | ok _ v => obtain ⟨_, rfl⟩ := h; rfl
    | stop e v => exact h.elim
  · cases y with
    | ok _ v => exact h.elim
    | stop e v => obtain ⟨rfl, rfl⟩ := h; rfl

theorem State.ringWrite_setCtrl (s : State) (c : Byte) (bs : List Byte) :
    State.ringWrite { s with ctrl := c } bs = { s.ringWrite bs with ctrl := c } := by
  induction bs generalizing s with
  | nil => rfl
  | cons b bs ih => exact ih (s.ringWriteByte b)

theorem State.append_setCtrl (s : State) (c : Byte) (bs : List Byte) :
    State.append { s with ctrl := c } bs = { s.append bs with ctrl := c } :=
  State.ringWrite_setCtrl { s with out := s.out.writeList noByte s.outCnt bs, outCnt := s.outCnt + bs.length } c bs

/-- `emit` does not read `CTRL` (rule R208). -/
theorem emit_alikeButCtrl (bs : List Byte) (s : State) (c : Byte) :
    AlikeButCtrl c (emit bs s) (emit bs { s with ctrl := c }) := by
  unfold emit
  by_cases hfull : outCap - s.outCnt < bs.length
  · rw [if_pos hfull, if_pos hfull]
    exact ⟨rfl, rfl⟩
  · rw [if_neg hfull, if_neg hfull]
    exact ⟨rfl, s.append_setCtrl c bs⟩

/-- The header checks do not read `CTRL` (rule R223). -/
theorem openBitstream_alikeButCtrl (seg : List Byte) (s : State) (c : Byte) :
    AlikeButCtrl c (openBitstream seg s) (openBitstream seg { s with ctrl := c }) := by
  simp only [openBitstream]
  split_ifs <;> exact ⟨rfl, rfl⟩

/-- The header checks do not read the control byte in the segment either: they read its length, its last byte once
there are two, and what lies between (rule R223). -/
theorem openBitstream_control_congr (c c' : Byte) (body : List Byte) (s : State) :
    openBitstream (c :: body) s = openBitstream (c' :: body) s := by
  cases body with
  | nil => rfl
  | cons b bs =>
    have hlast (x : Byte) : (x :: b :: bs).getLastD 0 = bs.getLastD b := by
      rw [List.getLastD_cons, List.getLastD_cons]
    simp only [openBitstream, hlast]
    rfl

/-! ### The start of a presented segment -/

/-- An idle core starts a segment inside the operand range (rule R220). -/
theorem startSegment_of_presented {s : State} {seg : List Byte} (hbusy : s.busy = false) (hseg : s.presented = some seg)
    (hne : seg ≠ []) (hlen : seg.length < 2 ^ 32) :
    startSegment s = .ok seg { s with presented := none, outCnt := 0, err := none } := by
  have hget : s.presented.getD [] = seg := by rw [hseg, Option.getD_some]
  rcases startSegment_cases s with ⟨h, _⟩ | ⟨_, h, _⟩ | ⟨_, h, _⟩ | ⟨_, _, _, e⟩
  · rw [hbusy] at h
    cases h
  · rw [hget] at h
    omega
  · exact absurd (hget.symm.trans h) hne
  · rw [e, hget]

/-- A segment start that does not refuse found a segment inside the operand range (rule R220, assumption 9). -/
theorem length_lt_of_startSegment_next {s t : State} {seg : List Byte} {f : List Byte → State → Act Unit}
    (hseg : s.presented = some seg) (h : outcomeOf ((startSegment s).bind f) = .next t) : seg.length < 2 ^ 32 := by
  have hget : s.presented.getD [] = seg := by rw [hseg, Option.getD_some]
  rcases startSegment_cases s with ⟨_, e⟩ | ⟨_, _, e⟩ | ⟨_, hnil, _⟩ | ⟨_, _, hlen, _⟩
  · rw [e] at h
    cases h
  · rw [e] at h
    cases h
  · rw [← hget, hnil]
    decide
  · rwa [hget] at hlen

/-- The start hands the control byte on in the answered segment only. So when what follows it ends alike but for `c'` in
`CTRL`, the two segments do (rules R220, R221). -/
theorem startSegment_replace_control {s t : State} {c c' : Byte} {body : List Byte}
    {f g : List Byte → State → Act Unit} (hbusy : s.busy = false) (hseg : s.presented = some (c :: body))
    (hfg : ∀ u, AlikeButCtrl c' (f (c :: body) u) (g (c' :: body) u))
    (h : outcomeOf ((startSegment s).bind f) = .next t) :
    outcomeOf ((startSegment { s with presented := some (c' :: body) }).bind g) = .next { t with ctrl := c' } := by
  have hbusy' : State.busy { s with presented := some (c' :: body) } = false := hbusy
  have hlen := length_lt_of_startSegment_next hseg h
  rw [startSegment_of_presented hbusy hseg (List.cons_ne_nil c body) hlen] at h
  rw [startSegment_of_presented hbusy' rfl (List.cons_ne_nil c' body) hlen]
  exact outcomeOf_alikeButCtrl (hfg _) h

/-- `SEG_RAW` latches the control byte and does nothing else with it (rules R220, R222). -/
theorem exec_segRaw_replace_control {s t : State} {c : Byte} {body : List Byte} (c' : Byte) (hbusy : s.busy = false)
    (hseg : s.presented = some (c :: body)) (h : exec (.segRaw c) s = .next t) :
    exec (.segRaw c') { s with presented := some (c' :: body) } = .next { t with ctrl := c' } := by
  refine startSegment_replace_control hbusy hseg (fun u => ?_) h
  exact (emit_alikeButCtrl body { u with ctrl := c } c').bind (by rintro _ _ _ rfl; exact ⟨rfl, rfl⟩)

/-- `SEG_COMP` latches the control byte and does nothing else with it (rules R220, R223). -/
theorem exec_segComp_replace_control {s t : State} {c : Byte} {body : List Byte} (c' : Byte) (hbusy : s.busy = false)
    (hseg : s.presented = some (c :: body)) (h : exec (.segComp c) s = .next t) :
    exec (.segComp c') { s with presented := some (c' :: body) } = .next { t with ctrl := c' } := by
  refine startSegment_replace_control hbusy hseg (fun u => ?_) h
  rw [openBitstream_control_congr c c']
  exact (openBitstream_alikeButCtrl (c' :: body) { u with ctrl := c } c').bind (by rintro _ _ _ rfl; exact ⟨rfl, rfl⟩)

/-- Settles O26: equal bits `0x20` select the same form, and either form only latches the rest of the control byte. -/
theorem controlByteSelectsTheFormByOneBit : Obligations.ControlByteSelectsTheFormByOneBit := by
  intro s c c' body hbusy hseg
  refine ⟨fun hbit => step_of_compressed hbusy hseg ((and_eq_0x20_iff c).mp hbit),
    fun hbit => step_of_not_compressed hbusy hseg ((and_0x20_eq_zero_iff c).mp hbit), fun hbit t hstep => ?_⟩
  have hform := compressed_congr hbit
  have hbusy' : State.busy { s with presented := some (c' :: body) } = false := hbusy
  cases hc : compressed c with
  | true =>
    rw [step_of_compressed hbusy hseg hc] at hstep
    exact (step_of_compressed hbusy' rfl (hform.symm.trans hc)).trans
      (exec_segComp_replace_control c' hbusy hseg hstep)
  | false =>
    rw [step_of_not_compressed hbusy hseg hc] at hstep
    exact (step_of_not_compressed hbusy' rfl (hform.symm.trans hc)).trans
      (exec_segRaw_replace_control c' hbusy hseg hstep)

end Sys2Proof.Machine

/-! PROOFS. Where `InvalidPadIndicator` comes from (rules R223, R282): the tokens and the host between segments never
write it to `ERR`, and of the two segment forms only the header check of a compressed one does. -/

namespace Sys2Proof

/-! ### The decoder answers tokens -/

theorem litRows_layer {r : Token × Instr} (h : r ∈ litRows) : r.2.layer = .token := by
  have hall : ∀ i ∈ litInstrs, i.layer = .token := by decide
  exact hall r.2 (List.of_mem_zip h).2

theorem matchRows_layer {r : Token × (Nat → LengthCode → Instr)} (h : r ∈ matchRows) (x : Nat) (len : LengthCode) :
    (r.2 x len).layer = .token := by
  have hall : ∀ build ∈ matchInstrs, (build x len).layer = .token := by simp [matchInstrs, Instr.layer]
  exact hall r.2 (List.of_mem_zip h).2

theorem literalForm_layer (e : Token) : (literalForm e).layer = .token := by
  rcases literalForm_cases e with ⟨i, hi, hform⟩ | ⟨_, hform⟩
  · rw [hform]
    exact litRows_layer hi
  · rw [hform]
    rfl

theorem matchForm_layer (e : Token) (x : Nat) (len : LengthCode) : (matchForm e x len).layer = .token := by
  rcases matchForm_cases e x len with ⟨build, hbuild, hform⟩ | ⟨_, hform⟩
  · rw [hform]
    exact matchRows_layer hbuild x len
  · rw [hform]
    rfl

theorem runForm_layer (e : Token) (c : Nat) : (runForm e c).layer = .token := by
  rcases runForm_cases e c with ⟨_, hform⟩ | ⟨_, hform⟩ <;> rw [hform] <;> rfl

theorem unmatchedForm_layer (t : TableSel) (p n : Nat) : (unmatchedForm t p n).layer = .token := by
  rcases unmatchedForm_cases t p n with ⟨_, _, _, hform⟩ | ⟨_, _, _, hform⟩ | hform <;> rw [hform] <;> rfl

section
variable {ε σ : Type} {rd : Reader ε σ} {cfg : Config} {s t : σ} {f : Form}

theorem decodeLiteral_layer (h : decodeLiteral rd cfg s = .ok f t) : f.layer = .token := by
  obtain ⟨r, u, _, hr⟩ := Res.bind_eq_ok h
  cases r with
  | found e => cases hr; exact literalForm_layer e
  | unmatched p n => cases hr; exact unmatchedForm_layer .literalTable p n

theorem decodeMatch_layer (h : decodeMatch rd cfg s = .ok f t) : f.layer = .token := by
  obtain ⟨r, u, _, hr⟩ := Res.bind_eq_ok h
  cases r with
  | unmatched p n => cases hr; exact unmatchedForm_layer .matchTable p n
  | found e =>
    obtain ⟨x, v, _, hx⟩ := Res.bind_eq_ok hr
    split at hx
    · obtain ⟨c, w, _, hc⟩ := Res.bind_eq_ok hx
      cases hc; exact runForm_layer e c
    · obtain ⟨len, w, _, hlen⟩ := Res.bind_eq_ok hx
      cases hlen; exact matchForm_layer e x len

/-- What the decoder reads at a token boundary is a token, for any tables (rules R90, R225). -/
theorem decodeTokenWith_layer (h : decodeTokenWith rd cfg s = .ok f t) : f.layer = .token := by
  obtain ⟨b, u, _, hb⟩ := Res.bind_eq_ok h
  split at hb
  · obtain ⟨v, w, _, hv⟩ := Res.bind_eq_ok hb
    cases hv; rfl
  · obtain ⟨c, w, _, hc⟩ := Res.bind_eq_ok hb
    split at hc
    · exact decodeMatch_layer hc
    · exact decodeLiteral_layer hc
end

namespace Machine

/-! ### The five meanings of a token -/

/-- The operations that tokens run: a plain literal, the three that an entry of a table selects, and the failure of a
walk that no entry ends (rules R143, R226, R228, R229, R233). -/
inductive TokenMeaning (s : State) : Outcome → Prop
  | lit8 (v : Byte) : TokenMeaning s (execLit8 v s)
  | literal (e : Token) : TokenMeaning s (literalToken e s)
  | copy (e : Token) (x : Nat) (len : LengthCode) : TokenMeaning s (matchToken e x len s)
  | run (e : Token) (count : Nat) : TokenMeaning s (runToken e count s)
  | unmatched (t : TableSel) (p n : Nat) : TokenMeaning s (unmatchedToken t p n s)

/-- A row of the token layer runs one of these operations. -/
theorem exec_tokenMeaning {i : Instr} (h : i.layer = .token) (s : State) : TokenMeaning s (exec i s) := by
  cases i with
  | lit8 v => exact .lit8 v
  | litc00 | litc01 | litc02 | litc03 | litcFF | litc04 | litc05 | litc06 | litc07 | litc08 | litc09 | litc0A | litc0B
  | litc3A | litc3B | litc3C | litc3D | litc3E | litc3F | litc40 | litc80 | litc0C | litc38 | litc39 | litc66 =>
    exact .literal _
  | matchC0 x len | matchC1 x len | matchC2 x len | matchC3 x len | matchC4 x len | matchC5 x len | matchC6 x len
  | matchC7 x len | matchC8 x len | matchC9 x len | matchC10 x len | matchC11 x len | matchC12 x len
  | matchC13 x len => exact .copy _ x.toNat len
  | unenc count => exact .run _ count.toNat
  | illegal10000 rest => exact .unmatched _ _ _
  | illegal101111111 => exact .unmatched _ _ _
  | segRaw ctrl => cases h
  | segComp ctrl => cases h
  | frameSingle => cases h
  | frameMulti => cases h

theorem execForm_tokenMeaning {f : Form} (h : f.layer = .token) (s : State) : TokenMeaning s (execForm f s) := by
  cases f with
  | row i => exact exec_tokenMeaning h s
  | literal e => exact .literal e
  | copy e x len => exact .copy e x len
  | run e count => exact .run e count.toNat
  | unmatched t p n => exact .unmatched t p n

/-! ### Outcomes that do not raise `InvalidPadIndicator` -/

/-- If `InvalidPadIndicator` stands in `ERR` after the outcome, then `e`, what `ERR` held before, was that already. -/
def PadErrorIsOld (e : Option ErrKind) (o : Outcome) : Prop :=
  ∀ t, o = .next t → t.err = some .invalidPadIndicator → e = some .invalidPadIndicator

namespace PadErrorIsOld

variable {e : Option ErrKind} {s : State}

theorem of_err_eq (h : s.err = e) : PadErrorIsOld e (.next s) := by
  rintro _ ⟨⟩ herr
  exact h.symm.trans herr

theorem of_err_none (h : s.err = none) : PadErrorIsOld e (.next s) := by
  rintro _ ⟨⟩ herr
  cases h.symm.trans herr

theorem of_raise {k : ErrKind} (hk : k ≠ .invalidPadIndicator) : PadErrorIsOld e (.next (s.enterFailed k)) := by
  rintro _ ⟨⟩ herr
  exact absurd (Option.some.inj herr) hk

theorem of_fault (f : Fault) : PadErrorIsOld e (.fault f) := by
  rintro _ ⟨⟩

theorem of_refused (r : Refusal) : PadErrorIsOld e (.refused r) := by
  rintro _ ⟨⟩

theorem of_stop {k : Stop} (hk : k ≠ .raise .invalidPadIndicator) : PadErrorIsOld e (stopOutcome k s) := by
  cases k with
  | raise k => exact of_raise fun h => hk (congrArg Stop.raise h)
  | fault f => exact of_fault f
  | refuse r => exact of_refused r

end PadErrorIsOld

/-! ### Tokens -/

/-- The kinds a token raises are `OutputCapacityExceeded`, `BitstreamExhausted` and `UnmatchedCode` (rules R281, R283,
R284); a token that completes leaves `ERR`. -/
theorem TokenMeaning.padErrorIsOld {s : State} {o : Outcome} (h : TokenMeaning s o) : PadErrorIsOld s.err o := by
  cases h with
  | lit8 v =>
    rcases emitAndLoop_cases [v] { s with state := .literal } with ⟨_, e⟩ | ⟨_, e⟩
    · rw [execLit8, e]
      exact .of_raise (by decide)
    · rw [execLit8, e]
      exact .of_err_eq (by simp)
  | literal entry =>
    rcases literalToken_cases entry s with ⟨_, e⟩ | ⟨_, e⟩
    · rw [e]
      exact .of_raise (by decide)
    · rw [e]
      exact .of_err_eq (by simp)
  | copy entry x len =>
    rcases matchToken_cases entry x len s with ⟨_, e⟩ | ⟨_, _, e⟩ | ⟨_, _, _, e⟩
    · rw [e]
      exact .of_refused _
    · rw [e]
      exact .of_raise (by decide)
    · rw [e]
      exact .of_err_eq (by simp)
  | run entry count =>
    rcases copyRun_cases count (s.runOperands entry count) with
      ⟨_, e⟩ | ⟨_, _, e⟩ | ⟨_, _, _, ⟨bytes, _, _, e⟩ | ⟨f, _, e⟩⟩
    · rw [runToken, e]
      exact .of_raise (by decide)
    · rw [runToken, e]
      exact .of_raise (by decide)
    · rw [runToken, e]
      exact .of_err_eq (by simp)
    · rw [runToken, e]
      exact .of_fault f
  | unmatched t p n =>
    rw [unmatchedToken_eq]
    exact .of_raise (by decide)

/-! ### The fetch of a token -/

theorem refill_keeps_err {e : Option ErrKind} (n fuel : Nat) {s : State} (h : s.err = e) :
    Res.Keeps (fun t => t.err = e) (refill n fuel s) := by
  induction fuel generalizing s with
  | zero => exact h
  | succ fuel ih =>
    rw [refill]
    split
    · cases s.inBytes[s.byteCur]? with
      | some b => exact ih (s := s.pushByte b) h
      | none => exact h
    · exact h

/-- `get_bits` writes no error register, whether it fails or not (rules R121, R122). -/
theorem getBits_keeps_err {e : Option ErrKind} (n : Nat) {s : State} (h : s.err = e) :
    Res.Keeps (fun t => t.err = e) (getBits n s) := by
  have hrefill := refill_keeps_err n 3 h
  rcases getBits_cases n s with ⟨_, hg⟩ | ⟨_, _, hg⟩ | ⟨_, _, _, ⟨t, hr, hg⟩ | ⟨k, t, hr, hg⟩⟩
  · rw [hg]
    exact h
  · rw [hg]
    exact h
  · rw [hr] at hrefill
    rw [hg]
    exact hrefill
  · rw [hr] at hrefill
    rw [hg]
    exact hrefill

/-- The only kind `get_bits` raises is `BitstreamExhausted` (rule R122). -/
theorem getBits_stop_ne {n : Nat} {s t : State} {k : Stop} (h : getBits n s = .stop k t) :
    k ≠ .raise .invalidPadIndicator := by
  rcases getBits_cases n s with ⟨_, hg⟩ | ⟨_, _, hg⟩ | ⟨_, _, _, ⟨u, _, hg⟩ | ⟨k', u, hr, hg⟩⟩
  · cases hg.symm.trans h
    simp
  · cases hg.symm.trans h
    simp
  · cases hg.symm.trans h
  · cases hg.symm.trans h
    rcases refill_cases n 3 s with ⟨v, hv, _⟩ | ⟨v, hv, _⟩
    · cases hr.symm.trans hv
    · cases hr.symm.trans hv
      simp

theorem fetched_err_eq {cfg : Config} {s t : State} {f : Form} (h : decodeTokenWith bitReader cfg s = .ok f t) :
    t.err = s.err := by
  have hkeeps := decodeTokenWith_keeps (rd := bitReader) (P := fun u => u.err = s.err)
    (fun n u hu => getBits_keeps_err n hu) cfg (s := s) rfl
  rw [h] at hkeeps
  exact hkeeps

/-- The fetch of a token stops only where one of its reads stops, so it does not raise `InvalidPadIndicator`. -/
theorem fetch_stop_ne {cfg : Config} {s t : State} {k : Stop} (h : decodeTokenWith bitReader cfg s = .stop k t) :
    k ≠ .raise .invalidPadIndicator := by
  have hread (n : Nat) (u v : State) (huv : u = v) :
      Res.Rel (fun k _ => k ≠ Stop.raise .invalidPadIndicator) Eq (getBits n u) (getBits n v) := by
    subst huv
    cases hg : getBits n u with
    | ok a w => exact ⟨rfl, rfl⟩
    | stop k w => exact ⟨getBits_stop_ne hg, rfl⟩
  have hrel := decodeTokenWith_rel (rd := bitReader) (rd' := bitReader) hread cfg (rfl : s = s)
  rw [h] at hrel
  exact hrel.1

theorem step_token_padErrorIsOld {s : State} (h : s.state = .readSelector) : PadErrorIsOld s.err (step s) := by
  rcases step_token_cases h with ⟨_, e⟩ | ⟨_, ⟨f, t, hd, e⟩ | ⟨k, t, hd, e⟩⟩
  · rw [e]
    exact .of_refused _
  · rw [e, ← fetched_err_eq hd]
    exact (execForm_tokenMeaning (decodeTokenWith_layer hd) t).padErrorIsOld
  · rw [e]
    exact .of_stop (fetch_stop_ne hd)

/-! ### The host between segments -/

/-- The outcome of what a step begins with. -/
def Fetched.outcome : Fetched → Outcome
  | .run f s => execForm f s
  | .done o => o

theorem step_eq_fetch_outcome (s : State) : step s = (fetch s).outcome := by
  cases h : fetch s with
  | run f t => exact step_of_fetch_run h
  | done o => exact step_of_fetch_done h

theorem sessionReset_padErrorIsOld (e : Option ErrKind) (s : State) : PadErrorIsOld e (sessionReset s) := by
  rcases sessionReset_cases s with ⟨_, h⟩ | ⟨_, h⟩
  · rw [h]
    exact .of_refused _
  · rw [h]
    exact .of_err_none rfl

@[simp] theorem State.closeFrame_err (s : State) : s.closeFrame.err = s.err := by
  rcases closeFrame_cases s with ⟨h, _⟩ | ⟨h, _⟩ <;> rw [h] <;> rfl

@[simp] theorem State.nextSegment_err (s : State) : s.nextSegment.err = s.err := by
  rcases nextSegment_cases s with ⟨_, ⟨_, h⟩ | ⟨_, _, h⟩ | ⟨_, h⟩⟩ | ⟨_, h⟩
  · rw [h, State.hostRaise_err]
  · rw [h, State.hostRaise_err]
  · rw [h]
  · rw [h, State.closeFrame_err]

theorem collectSingle_padErrorIsOld (s : State) : PadErrorIsOld s.err (collectSingle s) := by
  rcases collectSingle_cases s with ⟨_, h⟩ | ⟨_, bytes, _, h⟩ | ⟨_, f, _, h⟩
  · rw [h]
    exact .of_err_eq rfl
  · rw [h]
    exact .of_err_eq rfl
  · rw [h]
    exact .of_fault f

theorem collectMulti_padErrorIsOld (s : State) : PadErrorIsOld s.err (collectMulti s) := by
  rcases collectMulti_cases s with ⟨_, h⟩ | ⟨_, _, h⟩ | ⟨_, _, bytes, _, h⟩ | ⟨_, _, f, _, h⟩
  · rw [h]
    exact .of_err_eq rfl
  · rw [h]
    exact .of_err_eq rfl
  · rw [h]
    exact .of_err_eq rfl
  · rw [h]
    exact .of_fault f

theorem execFrameSingle_padErrorIsOld (s : State) : PadErrorIsOld s.err (execFrameSingle s) := by
  unfold execFrameSingle
  split
  · exact .of_refused _
  · exact .of_err_eq rfl

theorem execFrameMulti_padErrorIsOld (s : State) : PadErrorIsOld s.err (execFrameMulti s) := by
  unfold execFrameMulti
  split
  · exact .of_refused _
  · split
    · exact .of_err_eq rfl
    · exact .of_err_eq rfl

/-- The two frame forms that a descriptor byte can select (rules R91 to R93). -/
theorem decodeFrame_eq_some {d : Byte} {i : Instr} (h : decodeFrame d = some i) : i = .frameSingle ∨ i = .frameMulti := by
  unfold decodeFrame at h
  split at h
  · exact .inl (Option.some.inj h).symm
  · split at h
    · exact .inr (Option.some.inj h).symm
    · cases h

theorem fetchFrame_padErrorIsOld (s : State) : PadErrorIsOld s.err (fetchFrame s).outcome := by
  unfold fetchFrame
  cases s.input[s.offset]? with
  | none => exact .of_err_eq rfl
  | some d =>
    dsimp only
    cases hd : decodeFrame d with
    | none => exact .of_err_eq rfl
    | some i =>
      rcases decodeFrame_eq_some hd with rfl | rfl
      · exact execFrameSingle_padErrorIsOld s
      · exact execFrameMulti_padErrorIsOld s

theorem fetchCommand_padErrorIsOld (s : State) : PadErrorIsOld s.err (fetchCommand s).outcome := by
  unfold fetchCommand
  cases s.calls with
  | nil => exact .of_err_eq rfl
  | cons c rest =>
    cases c with
    | decompress input offset => exact fetchFrame_padErrorIsOld (State.enterCall { s with calls := rest } input offset)
    | segment seg => exact .of_err_eq rfl
    | sessionReset => exact sessionReset_padErrorIsOld _ _
    | resetInFrame n => exact sessionReset_padErrorIsOld _ _

theorem fetchLoop_padErrorIsOld (s : State) : PadErrorIsOld s.err (fetchLoop s).outcome := by
  rcases fetchLoop_cases s with ⟨rest, _, h⟩ | ⟨_, h⟩
  · rw [h]
    exact sessionReset_padErrorIsOld _ _
  · rw [h]
    exact .of_err_eq s.nextSegment_err

/-- With no segment presented, the host's steps leave `ERR` or reset it (rules R26, R260 to R266, R311). -/
theorem step_host_padErrorIsOld {s : State} (hbusy : s.busy = false) (hseg : s.presented = none) :
    PadErrorIsOld s.err (step s) := by
  rw [step_eq_fetch_outcome, fetch_idle hbusy, fetchHost, hseg]
  dsimp only
  cases s.phase with
  | idle => exact fetchCommand_padErrorIsOld s
  | single => exact collectSingle_padErrorIsOld s
  | multiNext => exact fetchLoop_padErrorIsOld s
  | multiWait => exact collectMulti_padErrorIsOld s

/-! ### The start of a segment -/

/-- The pad indicator of a segment with at least two bytes is illegal: above 7, or more than the bitstream bits there
are (rule R223). -/
def PadIllegal (seg : List Byte) : Prop :=
  7 < (seg.getLastD 0).toNat ∨ 8 * (seg.length - 2) < (seg.getLastD 0).toNat

/-- A pad indicator of at most 7 exceeds the bitstream only where there is no bitstream byte. -/
theorem padIllegal_iff {seg : List Byte} (h : 2 ≤ seg.length) :
    PadIllegal seg ↔ 7 < (seg.getLastD 0).toNat ∨ seg.length = 2 ∧ (seg.getLastD 0).toNat ≠ 0 := by
  unfold PadIllegal
  omega

/-- Entry to `Failed` writes `ERR` and `STATE` only, whatever `ERR` held (rule R287). -/
theorem failedWith_enterFailed (s : State) (e : Option ErrKind) (k : ErrKind) :
    FailedWith k s (State.enterFailed { s with err := e } k) where
  err := rfl
  state := rfl
  memory := ⟨rfl, rfl, fun _ => rfl, fun _ => rfl⟩
  header := ⟨rfl, rfl⟩
  host := ⟨rfl, rfl, rfl, rfl, rfl, rfl, rfl, rfl, rfl, rfl, rfl, rfl, rfl, rfl⟩

/-- An idle core that is presented an empty segment fails with `BitstreamExhausted` (rule R220, decision D17). -/
theorem step_of_presented_nil {s : State} (hbusy : s.busy = false) (hseg : s.presented = some []) :
    step s = .next (State.enterFailed { s with presented := none, outCnt := 0, err := none } .bitstreamExhausted) := by
  have hget : s.presented.getD [] = [] := by rw [hseg, Option.getD_some]
  rw [step_eq_fetch_outcome, fetch_idle hbusy, fetchHost, hseg]
  rcases startSegment_cases s with ⟨h, _⟩ | ⟨_, h, _⟩ | ⟨_, _, h⟩ | ⟨_, h, _⟩
  · rw [hbusy] at h
    cases h
  · rw [hget] at h
    exact absurd h (by decide)
  · change outcomeOf ((startSegment s).bind _) = _
    rw [h]
    rfl
  · rw [hget] at h
    exact absurd h (by decide)

/-- `SEG_RAW` has no pad indicator (rule R222): it completes with `ERR` clear or raises `OutputCapacityExceeded`. -/
theorem exec_segRaw_err_ne {s t : State} {ctrl c : Byte} {body : List Byte} (hbusy : s.busy = false)
    (hseg : s.presented = some (c :: body)) (h : exec (.segRaw ctrl) s = .next t) :
    t.err ≠ some .invalidPadIndicator := by
  have hstart := startSegment_of_presented hbusy hseg (List.cons_ne_nil c body) (length_lt_of_startSegment_next hseg h)
  have hexec : execSegRaw ctrl s = .next t := h
  rcases rawSegment_cases ctrl s with ⟨k, u, hs, _⟩ | ⟨seg, u, hs, ⟨_, e⟩ | ⟨_, e⟩⟩
  · cases hstart.symm.trans hs
  · cases e.symm.trans hexec
    simp
  · cases hstart.symm.trans hs
    cases e.symm.trans hexec
    simp

/-- What `SEG_COMP` can do with a presented segment (rules R220, R223): fail for want of a pad indicator, fail with
`InvalidPadIndicator` before anything but the header registers is written, or open the bitstream with `ERR` clear. -/
theorem exec_segComp_cases {s t : State} {ctrl c : Byte} {body : List Byte} (hbusy : s.busy = false)
    (hseg : s.presented = some (c :: body)) (h : exec (.segComp ctrl) s = .next t) :
    ((c :: body).length < 2 ∧ t.err = some .bitstreamExhausted) ∨
      (2 ≤ (c :: body).length ∧ PadIllegal (c :: body) ∧
        t = State.enterFailed { s with presented := none, outCnt := 0, err := none, ctrl := ctrl,
                                       pad := (c :: body).getLastD 0 } .invalidPadIndicator) ∨
      (2 ≤ (c :: body).length ∧ ¬PadIllegal (c :: body) ∧ t.err = none) := by
  have hstart := startSegment_of_presented hbusy hseg (List.cons_ne_nil c body) (length_lt_of_startSegment_next hseg h)
  have hexec : execSegComp ctrl s = .next t := h
  rcases compressedSegment_cases ctrl s with ⟨k, u, hs, _⟩ | ⟨seg, u, hs, hopen⟩
  · cases hstart.symm.trans hs
  cases hstart.symm.trans hs
  rcases openBitstream_cases (c :: body) { s with presented := none, outCnt := 0, err := none, ctrl := ctrl } with
    ⟨hshort, ho⟩ | ⟨hlen, hbad, ho⟩ | ⟨hlen, hpad, hfits, ho⟩
  · rcases hopen with ⟨k, v, hk, e⟩ | ⟨v, hv, _⟩
    · cases ho.symm.trans hk
      cases e.symm.trans hexec
      exact .inl ⟨hshort, rfl⟩
    · cases ho.symm.trans hv
  · rcases hopen with ⟨k, v, hk, e⟩ | ⟨v, hv, _⟩
    · cases ho.symm.trans hk
      cases e.symm.trans hexec
      exact .inr (.inl ⟨hlen, hbad, rfl⟩)
    · cases ho.symm.trans hv
  · rcases hopen with ⟨k, v, hk, _⟩ | ⟨v, hv, e⟩
    · cases ho.symm.trans hk
    · cases ho.symm.trans hv
      cases e.symm.trans hexec
      refine .inr (.inr ⟨hlen, ?_, rfl⟩)
      unfold PadIllegal
      omega

/-- A step that starts a presented segment ends with `InvalidPadIndicator` in `ERR` exactly if the segment is compressed
and its pad indicator is illegal, and then by `SEG_COMP`'s header check (rules R223, R282). -/
theorem step_of_presented_padError {s t : State} {seg : List Byte} (hbusy : s.busy = false)
    (hseg : s.presented = some seg) (h : step s = .next t) :
    (2 ≤ seg.length ∧ compressed (seg.headD 0) = true ∧ PadIllegal seg ∧
        t = State.enterFailed { s with presented := none, outCnt := 0, err := none, ctrl := seg.headD 0,
                                       pad := seg.getLastD 0 } .invalidPadIndicator) ∨
      (¬(2 ≤ seg.length ∧ compressed (seg.headD 0) = true ∧ PadIllegal seg) ∧ t.err ≠ some .invalidPadIndicator) := by
  cases seg with
  | nil =>
    cases (step_of_presented_nil hbusy hseg).symm.trans h
    exact .inr ⟨by simp, by simp⟩
  | cons c body =>
    rw [List.headD_cons]
    cases hc : compressed c with
    | false =>
      rw [step_of_not_compressed hbusy hseg hc] at h
      exact .inr ⟨by simp, exec_segRaw_err_ne hbusy hseg h⟩
    | true =>
      rw [step_of_compressed hbusy hseg hc] at h
      rcases exec_segComp_cases hbusy hseg h with ⟨hshort, herr⟩ | ⟨hlen, hbad, ht⟩ | ⟨_, hgood, herr⟩
      · exact .inr ⟨fun ⟨hlen, _⟩ => by omega, by simp [herr]⟩
      · exact .inl ⟨hlen, rfl, hbad, ht⟩
      · exact .inr ⟨fun ⟨_, _, hbad⟩ => hgood hbad, by simp [herr]⟩

/-- Settles O30: `InvalidPadIndicator` is new in `ERR` only after the header check of `SEG_COMP`. -/
theorem invalidPadIndicatorIsTheHeaders : Obligations.InvalidPadIndicatorIsTheHeaders := by
  refine ⟨fun s t seg hbusy hseg hstep => ?segment, fun s t hstate hstep => ?token, fun s t hbusy hseg hstep => ?host⟩
  case segment =>
    rcases step_of_presented_padError hbusy hseg hstep with ⟨hlen, hc, hbad, rfl⟩ | ⟨hnot, herr⟩
    · exact ⟨iff_of_true rfl ⟨hlen, hc, (padIllegal_iff hlen).mp hbad⟩, fun _ =>
        ⟨failedWith_enterFailed _ none .invalidPadIndicator, ⟨rfl, rfl, rfl, rfl, rfl, rfl⟩,
          ⟨rfl, rfl, rfl, rfl, rfl, rfl, rfl⟩⟩⟩
    · exact ⟨iff_of_false herr fun ⟨hlen, hc, hbad⟩ => hnot ⟨hlen, hc, (padIllegal_iff hlen).mpr hbad⟩,
        fun h => absurd h herr⟩
  case token => exact step_token_padErrorIsOld hstate t hstep
  case host => exact step_host_padErrorIsOld hbusy hseg t hstep

end Machine
end Sys2Proof

/-! PROOFS. A sound BitReader (rules R121 to R128): the accumulator is a window of the bit stream, so the pending bits are
the stream from `BIT_POS` on, and `get_bits`, the raw copies and `realign` move along that stream. -/

namespace Sys2Proof

/-! ### Slices of a bit stream -/

theorem streamBits_take (bytes : List Byte) (k : Nat) : streamBits (bytes.take k) = (streamBits bytes).take (8 * k) := by
  induction k generalizing bytes with
  | zero => rfl
  | succ k ih =>
    cases bytes with
    | nil => simp [streamBits]
    | cons b bs =>
      rw [List.take_succ_cons, streamBits_cons, streamBits_cons, ih, List.take_append, byteBits_length,
        List.take_of_length_le (l := byteBits b) (by rw [byteBits_length]; omega), show 8 * (k + 1) - 8 = 8 * k by omega]

theorem streamBits_drop (bytes : List Byte) (k : Nat) : streamBits (bytes.drop k) = (streamBits bytes).drop (8 * k) := by
  induction k generalizing bytes with
  | zero => rfl
  | succ k ih =>
    cases bytes with
    | nil => simp [streamBits]
    | cons b bs =>
      rw [List.drop_succ_cons, streamBits_cons, ih, List.drop_append, byteBits_length,
        List.drop_of_length_le (l := byteBits b) (by rw [byteBits_length]; omega),
        show 8 * (k + 1) - 8 = 8 * k by omega, List.nil_append]

theorem streamBits_append (xs ys : List Byte) : streamBits (xs ++ ys) = streamBits xs ++ streamBits ys := by
  simp [streamBits]

theorem bitsToNat_byteBits (b : Byte) : bitsToNat (byteBits b) = b.toNat := by
  rw [byteBits, bitsToNat_natToBits, Nat.mod_eq_of_lt b.isLt]

/-- One byte more of the stream. -/
theorem streamBits_take_succ {bytes : List Byte} {k : Nat} {b : Byte} (h : bytes[k]? = some b) :
    (streamBits bytes).take (8 * (k + 1)) = (streamBits bytes).take (8 * k) ++ byteBits b := by
  rw [← streamBits_take, ← streamBits_take, List.take_add_one, h, Option.toList_some, streamBits_append, streamBits_cons]
  simp [streamBits]

/-- The low bits of a bit string's number are its last bits. -/
theorem bitsToNat_drop (bits : List Bool) (n : Nat) :
    bitsToNat (bits.drop n) = bitsToNat bits % 2 ^ (bits.length - n) := by
  have hlt : bitsToNat (bits.drop n) < 2 ^ (bits.length - n) := by
    simpa using bitsToNat_lt (bits.drop n)
  conv_rhs => rw [← List.take_append_drop n bits, bitsToNat_append]
  rw [List.take_append_drop, List.length_drop, Nat.mul_comm, Nat.mul_add_mod, Nat.mod_eq_of_lt hlt]

/-- The high bits of a bit string's number are its first bits. -/
theorem bitsToNat_take (bits : List Bool) (n : Nat) :
    bitsToNat (bits.take n) = bitsToNat bits / 2 ^ (bits.length - n) := by
  have hlt : bitsToNat (bits.drop n) < 2 ^ (bits.length - n) := by
    simpa using bitsToNat_lt (bits.drop n)
  conv_rhs => rw [← List.take_append_drop n bits, bitsToNat_append]
  rw [List.take_append_drop, List.length_drop, Nat.add_comm, Nat.add_mul_div_right _ _ (Nat.two_pow_pos _),
    Nat.div_eq_of_lt hlt, Nat.zero_add]

namespace Machine

/-! ### The accumulator as a window of the stream -/

/-- The stream bits that have been fetched into the accumulator and not handed out: those from `BIT_POS` to
`8 * BYTE_CUR` (rule R128). -/
def State.window (s : State) : List Bool := ((streamBits s.inBytes).take (8 * s.byteCur)).drop s.bitPos

/-- Rule R128, for an accumulator of any fill: it holds its window of the stream. -/
structure State.AccView (s : State) : Prop where
  cur_le : s.byteCur ≤ s.inBytes.length
  cnt_le : s.accCnt ≤ 8 * s.byteCur
  acc_eq : s.acc.toNat = bitsToNat s.window

theorem State.window_length {s : State} (hcur : s.byteCur ≤ s.inBytes.length) (hcnt : s.accCnt ≤ 8 * s.byteCur) :
    s.window.length = s.accCnt := by
  rw [State.window, List.length_drop, List.length_take, streamBits_length, State.bitPos]
  omega

/-- The last byte fetched, `b`, gives a window of at most 8 bits. -/
theorem State.window_eq_of_byte {s : State} {b : Byte} (hcur : 1 ≤ s.byteCur) (hb : s.inBytes[s.byteCur - 1]? = some b)
    (hcnt : s.accCnt ≤ 8) : s.window = natToBits s.accCnt b.toNat := by
  have htake := streamBits_take_succ hb
  rw [Nat.sub_add_cancel hcur] at htake
  have hlen : ((streamBits s.inBytes).take (8 * (s.byteCur - 1))).length = 8 * (s.byteCur - 1) := by
    have := (List.getElem?_eq_some_iff.mp hb).1
    rw [List.length_take, streamBits_length]
    omega
  have hbyte : byteBits b = natToBits (8 - s.accCnt) (b.toNat / 2 ^ s.accCnt) ++ natToBits s.accCnt b.toNat := by
    rw [byteBits, ← natToBits_add, Nat.sub_add_cancel hcnt]
  rw [State.window, htake, State.bitPos, List.drop_append, hlen, List.drop_of_length_le (by omega), hbyte,
    List.drop_append, natToBits_length, List.drop_of_length_le (by rw [natToBits_length]; omega),
    show 8 * s.byteCur - s.accCnt - 8 * (s.byteCur - 1) - (8 - s.accCnt) = 0 by omega]
  rfl

theorem State.ReaderInv.cur_le_length {s : State} (h : s.ReaderInv) : s.byteCur ≤ s.inBytes.length :=
  h.len_eq ▸ h.cur_le

theorem State.ReaderInv.accCnt_le {s : State} (h : s.ReaderInv) : s.accCnt ≤ 8 * s.byteCur := by
  have hcnt := h.cnt_le
  rcases h.acc_rest with ⟨hzero, _⟩ | ⟨_, hcur, _⟩ <;> omega

theorem State.ReaderInv.accView {s : State} (h : s.ReaderInv) : s.AccView := by
  refine ⟨h.cur_le_length, h.accCnt_le, ?_⟩
  have hcnt := h.cnt_le
  rcases h.acc_rest with ⟨hzero, hacc⟩ | ⟨b, hcur, hb, hacc⟩
  · have hnil := List.eq_nil_of_length_eq_zero ((State.window_length h.cur_le_length h.accCnt_le).trans hzero)
    rw [hacc, hnil]
    rfl
  · rw [State.window_eq_of_byte hcur hb (by omega), bitsToNat_natToBits, hacc]

/-- With at most 7 bits the window is the rest of the last byte, as `State.ReaderInv` says it. -/
theorem State.AccView.acc_rest {s : State} (h : s.AccView) (hcnt : s.accCnt ≤ 7) :
    (s.accCnt = 0 ∧ s.acc = 0) ∨
      ∃ b : Byte, 1 ≤ s.byteCur ∧ s.inBytes[s.byteCur - 1]? = some b ∧ s.acc.toNat = b.toNat % 2 ^ s.accCnt := by
  obtain ⟨hcur, hle, hacc⟩ := h
  by_cases hzero : s.accCnt = 0
  · have hnil := List.eq_nil_of_length_eq_zero ((State.window_length hcur hle).trans hzero)
    rw [hnil] at hacc
    exact .inl ⟨hzero, BitVec.eq_of_toNat_eq hacc⟩
  · have hb : s.inBytes[s.byteCur - 1]? = some s.inBytes[s.byteCur - 1] := List.getElem?_eq_getElem (by omega)
    refine .inr ⟨_, by omega, hb, ?_⟩
    rw [hacc, State.window_eq_of_byte (by omega) hb (by omega), bitsToNat_natToBits]

theorem State.AccView.window_eq {s : State} (h : s.AccView) : natToBits s.accCnt s.acc.toNat = s.window := by
  rw [h.acc_eq, ← State.window_length h.cur_le h.cnt_le, natToBits_bitsToNat]

/-- Rules R123, R128: the pending bits are the stream bits from `BIT_POS` on. -/
theorem State.AccView.pendingBits_eq {s : State} (h : s.AccView) (hlen : s.inLen = s.inBytes.length) :
    s.pendingBits = (streamBits s.inBytes).drop s.bitPos := by
  have hpos : s.bitPos ≤ ((streamBits s.inBytes).take (8 * s.byteCur)).length := by
    have := h.cur_le
    rw [List.length_take, streamBits_length, State.bitPos]
    omega
  rw [State.pendingBits, h.window_eq, hlen, List.take_length, streamBits_drop, State.window,
    ← List.drop_append_of_le_length hpos, List.take_append_drop]

/-! ### `get_bits` -/

theorem State.AccView.acc_lt {s : State} (h : s.AccView) : s.acc.toNat < 2 ^ s.accCnt := by
  rw [h.acc_eq]
  exact (bitsToNat_lt _).trans_eq (by rw [State.window_length h.cur_le h.cnt_le])

/-- The refill keeps the view: the new byte stands below the bits already there (rule R121). -/
theorem State.AccView.pushByte {s : State} {b : Byte} (h : s.AccView) (hcnt : s.accCnt ≤ 24)
    (hb : s.inBytes[s.byteCur]? = some b) : (s.pushByte b).AccView where
  cur_le := (List.getElem?_eq_some_iff.mp hb).1
  cnt_le := by
    have := h.cnt_le
    simp only [State.pushByte_accCnt, State.pushByte_byteCur]
    omega
  acc_eq := by
    have hlt : s.acc.toNat < 2 ^ 24 := h.acc_lt.trans_le (Nat.pow_le_pow_right (by decide) hcnt)
    have hbyte : b.toNat < 2 ^ 8 := b.isLt
    have hpos : (s.pushByte b).bitPos = s.bitPos := by
      simp only [State.bitPos, State.pushByte_accCnt, State.pushByte_byteCur]
      omega
    have hle : s.bitPos ≤ ((streamBits s.inBytes).take (8 * s.byteCur)).length := by
      have := h.cur_le
      rw [List.length_take, streamBits_length, State.bitPos]
      omega
    have hwindow : (s.pushByte b).window = s.window ++ byteBits b := by
      rw [State.window, hpos, State.pushByte_inBytes, State.pushByte_byteCur, streamBits_take_succ hb,
        List.drop_append_of_le_length hle, State.window]
    have hacc : (s.pushByte b).acc.toNat = s.acc.toNat * 2 ^ 8 + b.toNat := by
      rw [State.pushByte_acc, BitVec.toNat_or, BitVec.toNat_shiftLeft, BitVec.toNat_setWidth, Nat.shiftLeft_eq,
        Nat.mod_eq_of_lt (by omega), Nat.mod_eq_of_lt (by omega), Nat.mul_comm, Nat.two_pow_add_eq_or_of_lt hbyte]
    rw [hacc, hwindow, bitsToNat_append, byteBits_length, bitsToNat_byteBits, h.acc_eq]

theorem refill_accView {n fuel : Nat} {s t : State} (hn : n ≤ 24) (h : s.AccView) (hr : refill n fuel s = .ok () t) :
    t.AccView := by
  induction fuel generalizing s with
  | zero => cases hr; exact h
  | succ fuel ih =>
    rw [refill] at hr
    split at hr
    · cases hb : s.inBytes[s.byteCur]? with
      | none => rw [hb] at hr; cases hr
      | some b => rw [hb] at hr; exact ih (h.pushByte (by omega) hb) hr
    · cases hr; exact h

theorem State.acc_dropBits {s : State} {n : Nat} (hcnt : s.accCnt ≤ 32) :
    (s.dropBits n).acc.toNat = s.acc.toNat % 2 ^ (s.accCnt - n) := by
  have hpow : 2 ^ (s.accCnt - n) ≤ 2 ^ 32 := Nat.pow_le_pow_right (by decide) (by omega)
  have hpos := Nat.two_pow_pos (s.accCnt - n)
  rw [State.dropBits_acc, BitVec.toNat_and, BitVec.toNat_ofNat, Nat.mod_eq_of_lt (by omega),
    Nat.and_two_pow_sub_one_eq_mod]

theorem State.bitPos_dropBits {s : State} {n : Nat} (hn : n ≤ s.accCnt) (hcnt : s.accCnt ≤ 8 * s.byteCur) :
    (s.dropBits n).bitPos = s.bitPos + n := by
  simp only [State.bitPos, State.dropBits_accCnt, State.dropBits_byteCur]
  omega

/-- The bits that leave the accumulator are the first of its window, and the rest stay (rule R121). -/
theorem State.AccView.dropBits {s : State} {n : Nat} (h : s.AccView) (hn : n ≤ s.accCnt) (hcnt : s.accCnt ≤ 32) :
    (s.dropBits n).AccView where
  cur_le := h.cur_le
  cnt_le := (Nat.sub_le _ _).trans h.cnt_le
  acc_eq := by
    have hwindow : (s.dropBits n).window = s.window.drop n := by
      rw [State.window, State.bitPos_dropBits hn h.cnt_le, State.dropBits_inBytes, State.dropBits_byteCur, State.window,
        List.drop_drop]
    rw [State.acc_dropBits hcnt, hwindow, bitsToNat_drop, State.window_length h.cur_le h.cnt_le, h.acc_eq]

theorem State.AccView.accTop_eq {s : State} {n : Nat} (h : s.AccView) (hn : n ≤ s.accCnt) :
    s.accTop n = bitsToNat (s.window.take n) := by
  have hlen := State.window_length h.cur_le h.cnt_le
  have htake := bitsToNat_lt (s.window.take n)
  rw [List.length_take, hlen, Nat.min_eq_left hn] at htake
  rw [State.accTop, BitVec.toNat_ushiftRight, Nat.shiftRight_eq_div_pow, h.acc_eq, ← hlen, ← bitsToNat_take,
    Nat.mod_eq_of_lt htake]

/-- The window is where the stream goes on. -/
theorem State.window_take {s : State} {n : Nat} (hn : n ≤ s.accCnt) (hcnt : s.accCnt ≤ 8 * s.byteCur) :
    s.window.take n = ((streamBits s.inBytes).drop s.bitPos).take n := by
  rw [State.window, List.drop_take, List.take_take, Nat.min_eq_left (by rw [State.bitPos]; omega)]

/-- What a successful `get_bits` of a sound BitReader answers and where it stands (rules R121, R123). -/
structure ReadBits (n : Nat) (s : State) (v : Nat) (t : State) : Prop where
  value : v = bitsToNat (((streamBits s.inBytes).drop s.bitPos).take n)
  bitPos : t.bitPos = s.bitPos + n
  bitsRem : t.bitsRem = s.bitsRem - n
  pending : t.pendingBits = s.pendingBits.drop n
  sound : t.ReaderInv
  frame : t = { s with byteCur := t.byteCur, acc := t.acc, accCnt := t.accCnt, bitsRem := t.bitsRem }

/-- A successful `get_bits` of a sound BitReader takes the next `n` stream bits. -/
theorem State.ReaderInv.getBits_ok {n v : Nat} {s t : State} (h : s.ReaderInv) (hg : getBits n s = .ok v t) :
    ReadBits n s v t := by
  obtain ⟨hslice, hmove, hcur⟩ := getBits_moves hg
  obtain ⟨hframe, hbudget, _⟩ := getBits_frame hg
  have hview := h.accView
  have hlen := h.len_eq
  have hcnt := h.cnt_le
  have hle := hview.cnt_le
  have hbudget_le := h.budget_le
  have hcur' := hcur h.cur_le
  rcases getBits_cases n s with ⟨_, e⟩ | ⟨_, _, e⟩ | ⟨hn, _, _, ⟨r, hr, e⟩ | ⟨_, _, _, e⟩⟩
  · cases hg.symm.trans e
  · cases hg.symm.trans e
  · cases hg.symm.trans e
    rw [nMax] at hn
    rcases refill_cases n 3 s with ⟨u, hu, hsame, _, hpos, henough, hstop⟩ | ⟨u, hu, _⟩
    · cases hr.symm.trans hu
      have hrview : r.AccView := refill_accView hn hview hr
      have hrcnt : n ≤ r.accCnt := henough (by omega)
      have hrpos : r.bitPos = s.bitPos := by simp only [State.bitPos]; omega
      have hrbytes : r.inBytes = s.inBytes := by rw [hsame]
      have htview : (r.dropBits n).AccView := hrview.dropBits hrcnt (by omega)
      have htpos : (r.dropBits n).bitPos = s.bitPos + n := by
        rw [State.bitPos_dropBits hrcnt hrview.cnt_le, hrpos]
      have htlen : (r.dropBits n).inLen = (r.dropBits n).inBytes.length := by
        rw [hframe]
        exact hlen
      exact {
        value := by rw [hrview.accTop_eq hrcnt, State.window_take hrcnt hrview.cnt_le, hrpos, hrbytes]
        bitPos := htpos
        bitsRem := by rw [hframe]
        pending := by
          rw [htview.pendingBits_eq htlen, hview.pendingBits_eq hlen, htpos, List.drop_drop, State.dropBits_inBytes,
            hrbytes]
        sound := by
          have hcnt' : (r.dropBits n).accCnt ≤ 7 := by
            rw [State.dropBits_accCnt]
            omega
          have hrem : (r.dropBits n).bitsRem = s.bitsRem - n := by rw [hframe]
          have hinLen : (r.dropBits n).inLen = s.inLen := by rw [hframe]
          exact ⟨htlen, by omega, hcnt', htview.acc_rest hcnt', by omega⟩
        frame := by rw [hframe] }
    · cases hr.symm.trans hu
  · cases hg.symm.trans e

/-- Settles O8: within budget a sound slice is long enough too, so the read succeeds. -/
theorem getBitsDeliversTheStreamBits : Obligations.GetBitsDeliversTheStreamBits := by
  intro s n h hn hbudget
  have hslice := h.budget_le
  obtain ⟨v, t, hg⟩ := getBits_succeeds h.len_eq hn hbudget (by omega)
  obtain ⟨rfl, hpos, hrem, hpending, hsound, hframe⟩ := h.getBits_ok hg
  exact ⟨t, hg, hpos, hrem, hpending, hsound, hframe⟩

/-- Settles O9. -/
theorem getBitsFailsCleanly : Obligations.GetBitsFailsCleanly := fun _ _ hn h => getBits_exhausted hn h

/-! ### The raw copies and `realign` -/

theorem readInput_of_le {a n : Nat} {s : State} (h : n ≤ s.inBytes.length - a) :
    readInput a n s = .ok ((s.inBytes.drop a).take n) s := by
  rw [readInput]
  exact if_pos (by rw [List.length_take, List.length_drop]; omega)

theorem copyRaw_of_le {n : Nat} {s : State} (hlen : s.inLen = s.inBytes.length) (h : n ≤ s.inLen - s.byteCur) :
    copyRaw n s = .ok ((s.inBytes.drop s.byteCur).take n) s := by
  rw [copyRaw, if_neg (by omega), readInput_of_le (by omega)]

theorem copyRawAdvance_of_le {n : Nat} {s : State} (hlen : s.inLen = s.inBytes.length) (h : n ≤ s.inLen - s.byteCur)
    (hbudget : 8 * n ≤ s.bitsRem) :
    copyRawAdvance n s = .ok ((s.inBytes.drop s.byteCur).take n)
      { s with byteCur := s.byteCur + n, bitsRem := s.bitsRem - 8 * n } := by
  rw [copyRawAdvance, if_neg (by omega), if_neg (by omega), readInput_of_le (by omega), Res.bind_of_ok]

/-- Settles O10: the slice check comes first, then the budget check, then a read that finds its bytes. -/
theorem rawCopiesTakeWholeBytes : Obligations.RawCopiesTakeWholeBytes := by
  intro s n hlen
  refine ⟨fun hshort => ?copyShort, fun hshort => ?advanceShort, fun hfits => ?fits⟩
  case copyShort => exact if_pos hshort
  case advanceShort =>
    rcases copyRawAdvance_cases n s with ⟨_, e⟩ | ⟨_, _, _⟩
    · exact e
    · omega
  case fits =>
    refine ⟨_, ?_, fun i hi => ?_, copyRaw_of_le hlen hfits, copyRawAdvance_of_le hlen hfits⟩
    · rw [List.length_take, List.length_drop]
      omega
    · rw [List.getElem?_take_of_lt hi, List.getElem?_drop]

theorem State.ReaderInv.realign {s : State} (h : s.ReaderInv) : s.realign.ReaderInv where
  len_eq := h.len_eq
  cur_le := h.cur_le
  cnt_le := Nat.zero_le _
  acc_rest := .inl ⟨rfl, rfl⟩
  budget_le := by
    have hbudget := h.budget_le
    simp only [State.realign_bitsRem, State.realign_inLen, State.realign_byteCur, State.realign_accCnt]
    omega

theorem State.realign_bitPos (s : State) : s.realign.bitPos = 8 * s.byteCur := rfl

/-- The next byte boundary from `BIT_POS` on is the cursor's, as long as the accumulator holds less than a byte. -/
theorem State.ReaderInv.boundary_eq {s : State} (h : s.ReaderInv) : (s.bitPos + 7) / 8 * 8 = 8 * s.byteCur := by
  have hcnt := h.cnt_le
  have hle := h.accCnt_le
  rw [State.bitPos]
  omega

/-- Settles O11: the accumulator holds less than a byte, so the cursor is the next byte boundary. -/
theorem realignMovesToAByteBoundary : Obligations.RealignMovesToAByteBoundary := by
  intro s h
  refine ⟨?registers, h.realign, by rw [State.realign_bitPos, h.boundary_eq], fun hzero => ?empty⟩
  case registers =>
    rw [State.realign, show s.bitsRem - min s.accCnt s.bitsRem = s.bitsRem - s.accCnt by omega]
  case empty =>
    have hacc : s.acc = 0 := by
      have hlt := h.accView.acc_lt
      rw [hzero] at hlt
      exact BitVec.eq_of_toNat_eq (Nat.lt_one_iff.mp hlt)
    rw [State.realign, hzero, Nat.zero_min, Nat.sub_zero, ← hacc, ← hzero]

end Machine
end Sys2Proof

/-! PROOFS. The decoder on a list of bits (rules R102, R142, R225 to R231): each of its parts, run forwards on the bits it
reads and read backwards from what it answers. -/

namespace Sys2Proof

/-! ### Reads of a list -/

/-- What a successful read of a list takes (rules R122, R123). -/
theorem listReader_read_ok {n v : Nat} {s t : List Bool} (h : listReader.read n s = .ok v t) :
    ∃ c, c.length = n ∧ s = c ++ t ∧ v = bitsToNat c := by
  simp only [listReader] at h
  split at h
  · cases h
    exact ⟨s.take n, by rw [List.length_take]; omega, (List.take_append_drop n s).symm, rfl⟩
  · cases h

@[simp] theorem listReader_read_one (b : Bool) (rest : List Bool) :
    listReader.read 1 (b :: rest) = .ok b.toNat rest := by
  have h := listReader_read_append [b] rest
  rwa [show bitsToNat [b] = b.toNat by simp [bitsToNat]] at h

theorem listReader_read_one_ok {v : Nat} {s t : List Bool} (h : listReader.read 1 s = .ok v t) :
    ∃ b : Bool, s = b :: t ∧ v = b.toNat := by
  obtain ⟨c, hlen, rfl, rfl⟩ := listReader_read_ok h
  obtain ⟨b, rfl⟩ := List.length_eq_one_iff.mp hlen
  exact ⟨b, rfl, by simp [bitsToNat]⟩

/-- A read of `w` bits of a number that has no more. -/
theorem listReader_read_of_lt {w v : Nat} (h : v < 2 ^ w) (rest : List Bool) :
    listReader.read w (natToBits w v ++ rest) = .ok v rest := by
  rw [listReader_read_natToBits, Nat.mod_eq_of_lt h]

/-! ### The length code (rules R102, R230, R231) -/

theorem readUnary_false (fuel extra : Nat) (rest : List Bool) :
    readUnary listReader fuel extra (false :: rest) =
      (listReader.read extra rest).bind fun w s => .ok (.ext extra w) s := by
  cases fuel <;> rfl

theorem readUnary_true_succ (fuel extra : Nat) (rest : List Bool) :
    readUnary listReader (fuel + 1) extra (true :: rest) = readUnary listReader fuel (extra + 1) rest := rfl

/-- `k` doublings, the zero bit, and the value. -/
theorem readUnary_ext {k fuel extra w : Nat} (hk : k ≤ fuel) (hw : w < 2 ^ (extra + k)) (rest : List Bool) :
    readUnary listReader fuel extra (List.replicate k true ++ false :: (natToBits (extra + k) w ++ rest)) =
      .ok (.ext (extra + k) w) rest := by
  induction k generalizing fuel extra with
  | zero =>
    rw [Nat.add_zero] at hw ⊢
    rw [List.replicate_zero, List.nil_append, readUnary_false, listReader_read_of_lt hw, Res.bind_of_ok]
  | succ k ih =>
    obtain ⟨fuel, rfl⟩ : ∃ f, fuel = f + 1 := ⟨fuel - 1, by omega⟩
    rw [List.replicate_succ, List.cons_append, readUnary_true_succ]
    have hcomm : extra + (k + 1) = extra + 1 + k := by omega
    rw [hcomm] at hw ⊢
    exact ih (by omega) hw

/-- One-bits up to the guard. -/
theorem readUnary_overrun (fuel extra : Nat) (rest : List Bool) :
    readUnary listReader fuel extra (List.replicate (fuel + 1) true ++ rest) = .ok .overrun rest := by
  induction fuel generalizing extra with
  | zero => rfl
  | succ fuel ih =>
    rw [List.replicate_succ, List.cons_append, readUnary_true_succ]
    exact ih (extra + 1)

/-- The bits of a length code read back as the code. -/
theorem readLength_encodeLength {len : LengthCode} (h : len.wellFormed = true) (rest : List Bool) :
    readLength listReader (encodeLength len ++ rest) = .ok len rest := by
  cases len with
  | three => simp [encodeLength, readLength]
  | ext extra w =>
    simp only [LengthCode.wellFormed, Bool.and_eq_true, decide_eq_true_eq] at h
    obtain ⟨⟨hlow, hhigh⟩, hw⟩ := h
    obtain ⟨k, rfl⟩ := Nat.exists_eq_add_of_le hlow
    rw [encodeLength, show 2 + k - 1 = k + 1 by omega, List.replicate_succ, List.cons_append, List.cons_append,
      List.append_assoc, List.cons_append, readLength, listReader_read_one, Res.bind_of_ok, if_neg (by decide)]
    exact readUnary_ext (by omega) hw rest
  | overrun =>
    rw [encodeLength, List.replicate_succ, List.cons_append, readLength, listReader_read_one, Res.bind_of_ok,
      if_neg (by decide)]
    exact readUnary_overrun 14 2 rest

/-- After the zero bit comes a value that fits its bits. -/
theorem readUnary_false_ok {fuel extra : Nat} {len : LengthCode} {s t : List Bool}
    (h : readUnary listReader fuel extra (false :: s) = .ok len t) (hlow : 2 ≤ extra) (hhigh : extra ≤ 16) :
    ∃ c, s = c ++ t ∧ encodeLength len = List.replicate (extra - 1) true ++ false :: c ∧ len.wellFormed = true := by
  rw [readUnary_false] at h
  obtain ⟨w, u, hw, hend⟩ := Res.bind_eq_ok h
  obtain ⟨c, rfl, rfl, rfl⟩ := listReader_read_ok hw
  cases hend
  refine ⟨c, rfl, by rw [encodeLength, natToBits_bitsToNat], ?_⟩
  simp [LengthCode.wellFormed, hlow, hhigh, bitsToNat_lt]

/-- After `extra - 1` one-bits the walk over the unary part reads the rest of a listed length code. -/
theorem readUnary_ok {fuel extra : Nat} {len : LengthCode} {s t : List Bool}
    (h : readUnary listReader fuel extra s = .ok len t) (hextra : 2 ≤ extra) (hsum : fuel + extra = 16) :
    ∃ c, s = c ++ t ∧ encodeLength len = List.replicate (extra - 1) true ++ c ∧ len.wellFormed = true := by
  induction s generalizing fuel extra with
  | nil => cases fuel <;> cases h
  | cons b s ih =>
    cases b with
    | false =>
      obtain ⟨c, rfl, henc, hwf⟩ := readUnary_false_ok h hextra (by omega)
      exact ⟨false :: c, rfl, henc, hwf⟩
    | true =>
      cases fuel with
      | zero =>
        cases h
        obtain rfl : extra = 16 := by omega
        exact ⟨[true], rfl, rfl, rfl⟩
      | succ fuel =>
        obtain ⟨c, rfl, henc, hwf⟩ := ih (extra := extra + 1) h (by omega) (by omega)
        refine ⟨true :: c, rfl, ?_, hwf⟩
        rw [henc, show extra + 1 - 1 = extra - 1 + 1 by omega, List.replicate_succ', List.append_assoc]
        rfl

theorem readLength_ok {len : LengthCode} {s t : List Bool} (h : readLength listReader s = .ok len t) :
    s = encodeLength len ++ t ∧ len.wellFormed = true := by
  obtain ⟨v, u, hv, hrest⟩ := Res.bind_eq_ok h
  obtain ⟨b, rfl, rfl⟩ := listReader_read_one_ok hv
  cases b with
  | false => cases hrest; exact ⟨rfl, rfl⟩
  | true =>
    obtain ⟨c, rfl, henc, hwf⟩ := readUnary_ok (fuel := 14) (extra := 2) hrest le_rfl rfl
    exact ⟨by rw [henc]; rfl, hwf⟩

/-! ### The table walk (rule R142) -/

/-- The number of the longest prefix of a table, at least `len`. -/
def longestPrefix (len : Nat) (table : List Token) : Nat := table.foldl (fun w e => max w e.prefixLen) len

@[simp] theorem longestPrefix_cons (len : Nat) (e : Token) (table : List Token) :
    longestPrefix len (e :: table) = longestPrefix (max len e.prefixLen) table := rfl

theorem le_longestPrefix (len : Nat) (table : List Token) : len ≤ longestPrefix len table := by
  induction table generalizing len with
  | nil => exact le_rfl
  | cons e es ih => exact (le_max_left _ _).trans (ih _)

theorem shiftLeft_or_bitsToNat (pre mid : List Bool) :
    (bitsToNat pre <<< mid.length) ||| bitsToNat mid = bitsToNat (pre ++ mid) := by
  rw [← Nat.shiftLeft_add_eq_or_of_lt (bitsToNat_lt mid), Nat.shiftLeft_eq, bitsToNat_append]

/-- The walk's prefix register grows by the bits it asks for. -/
theorem extendPrefix_append (pre mid rest : List Bool) :
    extendPrefix listReader (pre ++ mid).length (bitsToNat pre) pre.length (mid ++ rest) =
      .ok (bitsToNat (pre ++ mid), (pre ++ mid).length) rest := by
  unfold extendPrefix
  rw [List.length_append, Nat.add_sub_cancel_left]
  by_cases hmid : mid = []
  · simp [hmid]
  · have hpos := List.length_pos_of_ne_nil hmid
    rw [if_pos (by omega), listReader_read_append, Res.bind_of_ok, shiftLeft_or_bitsToNat]

theorem extendPrefix_ok {want : Nat} {pre s t : List Bool} {p : Nat × Nat}
    (h : extendPrefix listReader want (bitsToNat pre) pre.length s = .ok p t) :
    ∃ mid, s = mid ++ t ∧ (pre ++ mid).length = max pre.length want ∧
      p = (bitsToNat (pre ++ mid), (pre ++ mid).length) := by
  unfold extendPrefix at h
  split at h
  · obtain ⟨v, u, hv, hp⟩ := Res.bind_eq_ok h
    obtain ⟨mid, hlen, rfl, rfl⟩ := listReader_read_ok hv
    cases hp
    have hsum : (pre ++ mid).length = want := by rw [List.length_append]; omega
    exact ⟨mid, rfl, by omega, by rw [hsum, ← hlen, shiftLeft_or_bitsToNat]⟩
  · cases h
    exact ⟨[], rfl, by rw [List.append_nil]; omega, by rw [List.append_nil]⟩

/-- What the walk has read when it ends, for any table: the prefix of the entry found, or bits of the longest prefix's
length. -/
theorem walk_ok {table : List Token} {pre s t : List Bool} {r : Walked}
    (h : walk listReader table (bitsToNat pre) pre.length s = .ok r t) :
    ∃ mid, s = mid ++ t ∧
      ((∃ e, r = .found e ∧ e ∈ table ∧ pre ++ mid = e.prefixBits) ∨
        (r = .unmatched (bitsToNat (pre ++ mid)) (pre ++ mid).length ∧
          (pre ++ mid).length = longestPrefix pre.length table)) := by
  induction table generalizing pre s with
  | nil =>
    cases h
    exact ⟨[], rfl, .inr ⟨by rw [List.append_nil], by rw [List.append_nil]; rfl⟩⟩
  | cons e es ih =>
    obtain ⟨p, u, hp, hrest⟩ := Res.bind_eq_ok h
    obtain ⟨mid, rfl, hlen, rfl⟩ := extendPrefix_ok hp
    split at hrest
    · rename_i hfound
      cases hrest
      refine ⟨mid, rfl, .inl ⟨e, rfl, List.mem_cons_self, ?_⟩⟩
      rw [Token.prefixBits, ← hfound.1, ← hfound.2, natToBits_bitsToNat]
    · obtain ⟨mid', rfl, hend⟩ := ih hrest
      rw [List.append_assoc] at hend
      refine ⟨mid ++ mid', (List.append_assoc _ _ _).symm, ?_⟩
      rcases hend with ⟨e', hr, hmem, hbits⟩ | ⟨hr, hlong⟩
      · exact .inl ⟨e', hr, List.mem_cons_of_mem e hmem, hbits⟩
      · exact .inr ⟨hr, by rw [hlong, hlen, longestPrefix_cons]⟩

/-- The prefix codes of a table are numbers of their length. -/
def CodesFit (table : List Token) : Prop := ∀ e ∈ table, e.prefixCode < 2 ^ e.prefixLen

theorem bitsToNat_prefixBits {e : Token} (h : e.prefixCode < 2 ^ e.prefixLen) : bitsToNat e.prefixBits = e.prefixCode := by
  rw [Token.prefixBits, bitsToNat_natToBits, Nat.mod_eq_of_lt h]

@[simp] theorem prefixBits_length (e : Token) : e.prefixBits.length = e.prefixLen := natToBits_length _ _

theorem ascending_cons {len : Nat} {e : Token} {es : List Token} (h : ascending len (e :: es) = true) :
    len ≤ e.prefixLen ∧ e.prefixLen ≤ len + nMax ∧ ascending e.prefixLen es = true := by
  simp only [ascending, Bool.and_eq_true, decide_eq_true_eq] at h
  exact ⟨h.1.1, h.1.2, h.2⟩

theorem ascending_le {len : Nat} {table : List Token} (h : ascending len table = true) {e : Token} (he : e ∈ table) :
    len ≤ e.prefixLen := by
  induction table generalizing len with
  | nil => cases he
  | cons e' es ih =>
    obtain ⟨hle, _, htail⟩ := ascending_cons h
    rcases List.mem_cons.mp he with rfl | he
    · exact hle
    · exact hle.trans (ih htail he)

/-- One entry of the walk over bits that reach past its prefix. -/
theorem walk_cons_append {e : Token} {es : List Token} {pre mid : List Bool} (hlen : (pre ++ mid).length = e.prefixLen)
    (rest : List Bool) :
    walk listReader (e :: es) (bitsToNat pre) pre.length (mid ++ rest) =
      if bitsToNat (pre ++ mid) = e.prefixCode then .ok (.found e) rest
      else walk listReader es (bitsToNat (pre ++ mid)) (pre ++ mid).length rest := by
  rw [walk, ← hlen, extendPrefix_append, Res.bind_of_ok]
  simp only [true_and]

/-- In a table whose prefixes are in order of length and none of which begins another, the prefix of an entry leads to
that entry. -/
theorem walk_prefixBits {table : List Token} {e : Token} {pre mid : List Bool} (he : e ∈ table)
    (hfree : Machine.PrefixFree table) (hfit : CodesFit table) (hasc : ascending pre.length table = true)
    (hbits : pre ++ mid = e.prefixBits) (rest : List Bool) :
    walk listReader table (bitsToNat pre) pre.length (mid ++ rest) = .ok (.found e) rest := by
  induction table generalizing pre mid with
  | nil => cases he
  | cons e' es ih =>
    obtain ⟨hle, _, htail⟩ := ascending_cons hasc
    rcases List.mem_cons.mp he with rfl | he
    · rw [walk_cons_append (by rw [hbits, prefixBits_length]), hbits,
        if_pos (bitsToNat_prefixBits (hfit e List.mem_cons_self))]
    · have hlen : (pre ++ mid).length = e.prefixLen := by rw [hbits, prefixBits_length]
      have hle' := ascending_le htail he
      rw [List.length_append] at hlen
      obtain ⟨mid₁, mid₂, rfl, hmid₁⟩ : ∃ m₁ m₂, mid = m₁ ++ m₂ ∧ m₁.length = e'.prefixLen - pre.length :=
        ⟨_, _, (List.take_append_drop (e'.prefixLen - pre.length) mid).symm, by rw [List.length_take]; omega⟩
      have hlen₁ : (pre ++ mid₁).length = e'.prefixLen := by rw [List.length_append]; omega
      have hfree' := List.pairwise_cons.mp hfree
      have hne : bitsToNat (pre ++ mid₁) ≠ e'.prefixCode := by
        intro hcode
        refine (hfree'.1 e he).1 ⟨mid₂, ?_⟩
        rw [Token.prefixBits, ← hlen₁, ← hcode, natToBits_bitsToNat, ← hbits, List.append_assoc]
      rw [List.append_assoc, walk_cons_append hlen₁, if_neg hne]
      exact ih he hfree'.2 (fun a ha => hfit a (List.mem_cons_of_mem e' ha)) (by rw [hlen₁]; exact htail)
        (by rw [List.append_assoc, hbits])

/-- The entry of a table whose prefix the bits begin with. -/
def entryOf (table : List Token) (bits : List Bool) : Option Token :=
  table.find? fun e => decide (bitsToNat (bits.take e.prefixLen) = e.prefixCode)

/-- The walk over bits as long as the longest prefix ends in the entry whose prefix they begin with, or has read them
all. -/
theorem walk_of_longest {table : List Token} {pre mid : List Bool} (hasc : ascending pre.length table = true)
    (hlong : (pre ++ mid).length = longestPrefix pre.length table) (rest : List Bool) :
    walk listReader table (bitsToNat pre) pre.length (mid ++ rest) =
      match entryOf table (pre ++ mid) with
      | some e => .ok (.found e) ((pre ++ mid).drop e.prefixLen ++ rest)
      | none => .ok (.unmatched (bitsToNat (pre ++ mid)) (pre ++ mid).length) rest := by
  induction table generalizing pre mid with
  | nil =>
    have hnil : mid = [] := List.eq_nil_of_length_eq_zero (by
      rw [List.length_append] at hlong
      simp only [longestPrefix, List.foldl_nil] at hlong
      omega)
    rw [hnil, List.append_nil]
    rfl
  | cons e es ih =>
    obtain ⟨hle, _, htail⟩ := ascending_cons hasc
    rw [longestPrefix_cons, max_eq_right hle] at hlong
    have hle' := le_longestPrefix e.prefixLen es
    rw [← hlong, List.length_append] at hle'
    obtain ⟨mid₁, mid₂, rfl, hmid₁⟩ : ∃ m₁ m₂, mid = m₁ ++ m₂ ∧ m₁.length = e.prefixLen - pre.length :=
      ⟨_, _, (List.take_append_drop (e.prefixLen - pre.length) mid).symm, by rw [List.length_take]; omega⟩
    have hlen₁ : (pre ++ mid₁).length = e.prefixLen := by rw [List.length_append]; omega
    rw [← List.append_assoc] at hlong ⊢
    rw [List.append_assoc mid₁, walk_cons_append hlen₁, entryOf, List.find?_cons, ← hlen₁, List.take_left]
    by_cases hcode : bitsToNat (pre ++ mid₁) = e.prefixCode
    · simp [hcode, ← hlen₁]
    · rw [if_neg hcode, decide_eq_false hcode]
      rw [← hlen₁] at htail hlong
      exact ih htail hlong

end Sys2Proof

/-! PROOFS. Decoding and encoding (30_encoding.md sections 2 to 8): what a decoded token is, that it was encoded so, and
that an encoding decodes to what it encodes. -/

namespace Sys2Proof

/-! ### The constraints on tables, clause by clause (rule R7) -/

/-- What rule R7 says of one table, both tables alike: the prefixes are numbers of their length that begin with the two
bits `lead`, in order of length. -/
structure TableLegal (lead : Nat) (table : List Token) : Prop where
  len_ge : ∀ e ∈ table, 2 ≤ e.prefixLen
  fit : CodesFit table
  leads : ∀ e ∈ table, e.prefixCode / 2 ^ (e.prefixLen - 2) = lead
  ascending : ascending 2 table = true

theorem tableLegal_of_all {lead : Nat} {table : List Token} (h : ∀ e ∈ table, e.prefixLegal lead = true)
    (hasc : ascending 2 table = true) : TableLegal lead table := by
  simp only [Token.prefixLegal, Bool.and_eq_true, decide_eq_true_eq] at h
  refine ⟨fun e he => ?_, fun e he => ?_, fun e he => ?_, hasc⟩ <;> obtain ⟨⟨⟨hlen, _⟩, hfit⟩, hlead⟩ := h e he
  · exact hlen
  · exact hfit
  · exact hlead

theorem litTable_legal {cfg : Config} (h : cfg.tablesLegal = true) : TableLegal 0b11 cfg.litTable := by
  simp only [Config.tablesLegal, litTableLegal, Bool.and_eq_true, List.all_eq_true] at h
  obtain ⟨⟨hentries, hasc⟩, _⟩ := h
  exact tableLegal_of_all (fun e he => (hentries e he).1.1) hasc

theorem matchTable_legal {cfg : Config} (h : cfg.tablesLegal = true) : TableLegal 0b10 cfg.matchTable := by
  simp only [Config.tablesLegal, matchTableLegal, Bool.and_eq_true, List.all_eq_true] at h
  obtain ⟨_, hentries, hasc⟩ := h
  exact tableLegal_of_all (fun e he => (hentries e he).1) hasc

theorem valueBits_le {cfg : Config} (h : cfg.tablesLegal = true) {e : Token} (he : e ∈ cfg.matchTable) :
    e.valueBits ≤ nMax := by
  simp only [Config.tablesLegal, matchTableLegal, Bool.and_eq_true, List.all_eq_true, decide_eq_true_eq] at h
  obtain ⟨_, hentries, _⟩ := h
  exact (hentries e he).2

/-- A prefix is its two leading bits and the rest. -/
theorem TableLegal.prefixBits_eq {lead : Nat} {table : List Token} (h : TableLegal lead table) {e : Token} (he : e ∈ table) :
    e.prefixBits = natToBits 2 lead ++ natToBits (e.prefixLen - 2) e.prefixCode := by
  rw [Token.prefixBits, ← h.leads e he, ← natToBits_add]
  congr 1
  have := h.len_ge e he
  omega

theorem reference_tables_legal {cfg : Config} (h : Machine.ReferenceTables cfg) : cfg.tablesLegal = true := by
  obtain ⟨hlit, hmatch⟩ := h
  rw [Config.tablesLegal, hlit, hmatch]
  exact reference_tablesLegal

/-! ### The rows of the tables -/

/-- A literal row's encoding is its entry's prefix. -/
theorem encode_litRow {e : Token} {i : Instr} (h : (e, i) ∈ litRows) : encode i = e.prefixBits := by
  have hall : ∀ r ∈ litRows, encode r.2 = r.1.prefixBits := by decide
  exact hall _ h

theorem wellFormed_litRow {e : Token} {i : Instr} (h : (e, i) ∈ litRows) : i.wellFormed = true := by
  have hall : ∀ r ∈ litRows, r.2.wellFormed = true := by decide
  exact hall _ h

/-- A match row's encoding is its entry's prefix, the extra bits and the length code. -/
theorem encode_matchRow {e : Token} {build : Nat → LengthCode → Instr} (h : (e, build) ∈ matchRows) (x : Nat)
    (len : LengthCode) :
    encode (build x len) = e.prefixBits ++ natToBits e.valueBits x ++ encodeLength len := by
  have hbits (w : Nat) : natToBits w (BitVec.ofNat w x).toNat = natToBits w x := by
    rw [BitVec.toNat_ofNat, natToBits_mod]
  have hall : ∀ r ∈ matchRows,
      encode (r.2 x len) = r.1.prefixBits ++ natToBits r.1.valueBits x ++ encodeLength len := by
    simp only [matchRows, refMatchTable, matchInstrs, List.zip_cons_cons, List.zip_nil_left, List.forall_mem_cons, encode,
      hbits]
    simp [Token.prefixBits]
  exact hall _ h

theorem wellFormed_matchRow {e : Token} {build : Nat → LengthCode → Instr} (h : (e, build) ∈ matchRows) {x : Nat}
    {len : LengthCode} (hx : x < 2 ^ e.valueBits) (hdist : e.base + x ≠ 0) (hlen : len.wellFormed = true) :
    (build x len).wellFormed = true := by
  have hall : ∀ r ∈ matchRows, x < 2 ^ r.1.valueBits → r.1.base + x ≠ 0 → (r.2 x len).wellFormed = true := by
    simp only [matchRows, refMatchTable, matchInstrs, List.zip_cons_cons, List.zip_nil_left, List.forall_mem_cons,
      Instr.wellFormed, hlen]
    simp only [Bool.and_true, decide_eq_true_eq, implies_true, and_true, List.not_mem_nil, false_imp_iff]
    intro hx hne hzero
    have hnat := congrArg BitVec.toNat hzero
    rw [BitVec.toNat_ofNat, Nat.mod_eq_of_lt hx] at hnat
    exact hne (by rw [hnat]; rfl)
  exact hall _ h hx hdist

/-- The entry `UNENC` belongs to. -/
theorem head_refMatchTable {e : Token} (h : refMatchTable.head? = some e) : e = ⟨5, 0b10001, 5, 0⟩ := by
  cases h; rfl

/-! ### The forms that the decoder makes of an entry -/

theorem encodeForm_literalForm (e : Token) : encodeForm (literalForm e) = e.prefixBits := by
  rcases literalForm_cases e with ⟨i, hi, hform⟩ | ⟨_, hform⟩
  · rw [hform]; exact encode_litRow hi
  · rw [hform]; rfl

theorem encodeForm_matchForm (e : Token) (x : Nat) (len : LengthCode) :
    encodeForm (matchForm e x len) = e.prefixBits ++ natToBits e.valueBits x ++ encodeLength len := by
  rcases matchForm_cases e x len with ⟨build, hbuild, hform⟩ | ⟨_, hform⟩
  · rw [hform]; exact encode_matchRow hbuild x len
  · rw [hform]; rfl

theorem encodeForm_runForm (e : Token) (c : Nat) :
    encodeForm (runForm e c) = e.prefixBits ++ natToBits e.valueBits 0 ++ natToBits 15 c := by
  have hcount : natToBits 15 (BitVec.ofNat 15 c).toNat = natToBits 15 c := by
    rw [BitVec.toNat_ofNat, natToBits_mod]
  rcases runForm_cases e c with ⟨hhead, hform⟩ | ⟨_, hform⟩
  · rw [hform, encodeForm, encode, hcount, head_refMatchTable hhead]; rfl
  · rw [hform, encodeForm, hcount]

theorem encodeForm_unmatchedForm (t : TableSel) (p n : Nat) : encodeForm (unmatchedForm t p n) = natToBits n p := by
  rcases unmatchedForm_cases t p n with ⟨_, rfl, rfl, hform⟩ | ⟨_, rfl, hp, hform⟩ | hform
  · rw [hform]; rfl
  · rw [hform, encodeForm, encode, BitVec.toNat_ofNat, natToBits_mod, ← hp]
    exact (natToBits_add 5 4 p).symm
  · rw [hform]; rfl

theorem wellFormed_literalForm (e : Token) : (literalForm e).wellFormed = true := by
  rcases literalForm_cases e with ⟨i, hi, hform⟩ | ⟨_, hform⟩
  · rw [hform]; exact wellFormed_litRow hi
  · rw [hform]; rfl

theorem wellFormed_matchForm {e : Token} {x : Nat} {len : LengthCode} (hx : x < 2 ^ e.valueBits)
    (hdist : e.base + x ≠ 0) (hlen : len.wellFormed = true) : (matchForm e x len).wellFormed = true := by
  rcases matchForm_cases e x len with ⟨build, hbuild, hform⟩ | ⟨_, hform⟩
  · rw [hform]; exact wellFormed_matchRow hbuild hx hdist hlen
  · rw [hform, Form.wellFormed, decide_eq_true hx, decide_eq_true hdist, hlen]; rfl

theorem wellFormed_runForm {e : Token} (hbase : e.base = 0) (c : Nat) : (runForm e c).wellFormed = true := by
  rcases runForm_cases e c with ⟨_, hform⟩ | ⟨_, hform⟩
  · rw [hform]; rfl
  · rw [hform]; exact decide_eq_true hbase

theorem wellFormed_unmatchedForm (t : TableSel) (p n : Nat) : (unmatchedForm t p n).wellFormed = true := by
  rcases unmatchedForm_cases t p n with ⟨_, _, _, hform⟩ | ⟨_, _, _, hform⟩ | hform <;> rw [hform] <;> rfl

/-! ### What a decoded token is -/

/-- The table that `TBL_SEL` names. -/
def Config.table (cfg : Config) : TableSel → List Token
  | .literalTable => cfg.litTable
  | .matchTable => cfg.matchTable

/-- The selector bit and the table-select bit (rule R225). -/
def leadBits : TableSel → List Bool
  | .literalTable => [true, true]
  | .matchTable => [true, false]

/-- The token that a core with the tables of `cfg` decodes from exactly the bits `c` (rules R225 to R233). -/
inductive Decoded (cfg : Config) : List Bool → Form → Prop
  | lit8 (v : Byte) : Decoded cfg (false :: byteBits v) (.row (.lit8 v))
  | literal {e : Token} (he : e ∈ cfg.litTable) : Decoded cfg e.prefixBits (literalForm e)
  | copy {e : Token} {x : Nat} {len : LengthCode} (he : e ∈ cfg.matchTable) (hx : x < 2 ^ e.valueBits)
      (hdist : e.base + x ≠ 0) (hlen : len.wellFormed = true) :
      Decoded cfg (e.prefixBits ++ natToBits e.valueBits x ++ encodeLength len) (matchForm e x len)
  | run {e : Token} {count : Nat} (he : e ∈ cfg.matchTable) (hbase : e.base = 0) (hcount : count < 2 ^ 15) :
      Decoded cfg (e.prefixBits ++ natToBits e.valueBits 0 ++ natToBits 15 count) (runForm e count)
  | unmatched {t : TableSel} {c : List Bool} (hlead : leadBits t <+: c)
      (hlen : c.length = longestPrefix 2 (cfg.table t))
      (hoff : ascending 2 (cfg.table t) = true → entryOf (cfg.table t) c = none) :
      Decoded cfg c (unmatchedForm t (bitsToNat c) c.length)

/-- The walk of a table after its two leading bits. -/
theorem walk_table_ok {cfg : Config} {t : TableSel} {s rest : List Bool} {r : Walked}
    (h : walk listReader (cfg.table t) (bitsToNat (leadBits t)) 2 s = .ok r rest) :
    ∃ mid, s = mid ++ rest ∧
      ((∃ e, r = .found e ∧ e ∈ cfg.table t ∧ leadBits t ++ mid = e.prefixBits) ∨
        (r = .unmatched (bitsToNat (leadBits t ++ mid)) (leadBits t ++ mid).length ∧
          Decoded cfg (leadBits t ++ mid)
            (unmatchedForm t (bitsToNat (leadBits t ++ mid)) (leadBits t ++ mid).length))) := by
  have htwo : 2 = (leadBits t).length := by cases t <;> rfl
  rw [htwo] at h
  obtain ⟨mid, rfl, hfound | ⟨rfl, hlong⟩⟩ := walk_ok h
  · exact ⟨mid, rfl, .inl hfound⟩
  · refine ⟨mid, rfl, .inr ⟨rfl, .unmatched (List.prefix_append _ _) (by rw [htwo]; exact hlong) fun hasc => ?_⟩⟩
    rw [htwo] at hasc
    rw [walk_of_longest hasc hlong] at h
    cases hentry : entryOf (cfg.table t) (leadBits t ++ mid) with
    | none => rfl
    | some e => rw [hentry] at h; cases h

theorem decodeLiteral_ok {cfg : Config} {s rest : List Bool} {f : Form}
    (h : decodeLiteral listReader cfg s = .ok f rest) :
    ∃ mid, s = mid ++ rest ∧ Decoded cfg (leadBits .literalTable ++ mid) f := by
  obtain ⟨r, u, hwalk, hform⟩ := Res.bind_eq_ok h
  obtain ⟨mid, rfl, ⟨e, rfl, he, hbits⟩ | ⟨rfl, hoff⟩⟩ := walk_table_ok (t := .literalTable) hwalk
  · cases hform
    exact ⟨mid, rfl, hbits ▸ .literal he⟩
  · cases hform
    exact ⟨mid, rfl, hoff⟩

theorem decodeMatch_ok {cfg : Config} {s rest : List Bool} {f : Form}
    (h : decodeMatch listReader cfg s = .ok f rest) :
    ∃ mid, s = mid ++ rest ∧ Decoded cfg (leadBits .matchTable ++ mid) f := by
  obtain ⟨r, u, hwalk, hform⟩ := Res.bind_eq_ok h
  obtain ⟨mid, rfl, ⟨e, rfl, he, hbits⟩ | ⟨rfl, hoff⟩⟩ := walk_table_ok (t := .matchTable) hwalk
  · obtain ⟨x, v, hx, hrest⟩ := Res.bind_eq_ok hform
    obtain ⟨cx, hcx, rfl, rfl⟩ := listReader_read_ok hx
    have hxbits : natToBits e.valueBits (bitsToNat cx) = cx := by rw [← hcx, natToBits_bitsToNat]
    split at hrest
    · rename_i hzero
      obtain ⟨c, w, hc, hend⟩ := Res.bind_eq_ok hrest
      obtain ⟨cc, hcc, rfl, rfl⟩ := listReader_read_ok hc
      cases hend
      have hrun : Decoded cfg _ _ :=
        .run he (by omega) ((bitsToNat_lt cc).trans_eq (by rw [hcc]))
      rw [← hbits, show 0 = bitsToNat cx by omega, hxbits, ← hcc, natToBits_bitsToNat] at hrun
      exact ⟨mid ++ cx ++ cc, by simp, by simpa using hrun⟩
    · rename_i hdist
      obtain ⟨len, w, hlen, hend⟩ := Res.bind_eq_ok hrest
      obtain ⟨rfl, hwf⟩ := readLength_ok hlen
      cases hend
      have hcopy : Decoded cfg _ _ := .copy he ((bitsToNat_lt cx).trans_eq (by rw [hcx])) hdist hwf
      rw [← hbits, hxbits] at hcopy
      exact ⟨mid ++ cx ++ encodeLength len, by simp, by simpa using hcopy⟩
  · cases hform
    exact ⟨mid, rfl, hoff⟩

/-- A list that decodes begins with the bits of the token it decodes to. -/
theorem decode_token_ok {cfg : Config} {bits rest : List Bool} {f : Form}
    (h : decode cfg .token bits = .ok f rest) : ∃ c, bits = c ++ rest ∧ Decoded cfg c f := by
  obtain ⟨b, u, hb, hrest⟩ := Res.bind_eq_ok h
  obtain ⟨b, rfl, rfl⟩ := listReader_read_one_ok hb
  cases b with
  | false =>
    obtain ⟨v, w, hv, hend⟩ := Res.bind_eq_ok hrest
    obtain ⟨c, hc, rfl, rfl⟩ := listReader_read_ok hv
    cases hend
    have hbyte : byteBits (BitVec.ofNat 8 (bitsToNat c)) = c := by
      rw [byteBits, BitVec.toNat_ofNat, natToBits_mod, ← hc, natToBits_bitsToNat]
    refine ⟨false :: c, rfl, ?_⟩
    have hlit : Decoded cfg _ _ := .lit8 (BitVec.ofNat 8 (bitsToNat c))
    rwa [hbyte] at hlit
  | true =>
    obtain ⟨t, w, ht, hend⟩ := Res.bind_eq_ok (show (listReader.read 1 u).bind _ = _ from hrest)
    obtain ⟨t, rfl, rfl⟩ := listReader_read_one_ok ht
    cases t with
    | false =>
      obtain ⟨mid, rfl, hdec⟩ := decodeMatch_ok hend
      exact ⟨true :: false :: mid, rfl, hdec⟩
    | true =>
      obtain ⟨mid, rfl, hdec⟩ := decodeLiteral_ok hend
      exact ⟨true :: true :: mid, rfl, hdec⟩

theorem Decoded.encodeForm_eq {cfg : Config} {c : List Bool} {f : Form} (h : Decoded cfg c f) : encodeForm f = c := by
  cases h with
  | lit8 v => rfl
  | literal _ => exact encodeForm_literalForm _
  | copy _ _ _ _ => exact encodeForm_matchForm _ _ _
  | run _ _ _ => exact encodeForm_runForm _ _
  | unmatched _ _ _ => rw [encodeForm_unmatchedForm, natToBits_bitsToNat]

theorem Decoded.wellFormed {cfg : Config} {c : List Bool} {f : Form} (h : Decoded cfg c f) : f.wellFormed = true := by
  cases h with
  | lit8 v => rfl
  | literal _ => exact wellFormed_literalForm _
  | copy _ hx hdist hlen => exact wellFormed_matchForm hx hdist hlen
  | run _ hbase _ => exact wellFormed_runForm hbase _
  | unmatched _ _ _ => exact wellFormed_unmatchedForm _ _ _

/-! ### The reference tables are complete but for two prefixes (rule R148) -/

/-- `entryOf` on the bits read as one number of `n` bits. -/
def entryAt (table : List Token) (p n : Nat) : Option Token :=
  table.find? fun e => decide (p / 2 ^ (n - e.prefixLen) = e.prefixCode)

theorem entryOf_eq_entryAt (table : List Token) (c : List Bool) : entryOf table c = entryAt table (bitsToNat c) c.length := by
  simp only [entryOf, entryAt, bitsToNat_take]

/-- Bits that begin with two given ones, as a number. -/
theorem bitsToNat_of_lead {t : TableSel} {c : List Bool} {n : Nat} (hlead : leadBits t <+: c) (hlen : c.length = n + 2) :
    ∃ k : Fin (2 ^ n), bitsToNat c = bitsToNat (leadBits t) * 2 ^ n + k := by
  obtain ⟨mid, rfl⟩ := hlead
  have hmid : mid.length = n := by
    rw [List.length_append] at hlen
    cases t <;> simp only [leadBits, List.length_cons, List.length_nil] at hlen <;> omega
  have hlt : bitsToNat mid < 2 ^ n := hmid ▸ bitsToNat_lt mid
  exact ⟨⟨bitsToNat mid, hlt⟩, by simp only [bitsToNat_append, hmid]⟩

theorem longestPrefix_refLitTable : longestPrefix 2 refLitTable = 8 := by decide
theorem longestPrefix_refMatchTable : longestPrefix 2 refMatchTable = 9 := by decide

/-- Every eight bits under `11` begin with a literal entry's prefix (rule R148 (b)). -/
theorem entryOf_refLitTable {c : List Bool} (hlead : leadBits .literalTable <+: c) (hlen : c.length = 8) :
    entryOf refLitTable c ≠ none := by
  have hall : ∀ k : Fin (2 ^ 6), entryAt refLitTable (3 * 2 ^ 6 + k) 8 ≠ none := by decide
  obtain ⟨k, hk⟩ := bitsToNat_of_lead (n := 6) hlead hlen
  rw [entryOf_eq_entryAt, hk, hlen]
  exact hall k

/-- Of nine bits under `10` those that begin with no match entry's prefix are the two `ILLEGAL` rows' (rule R148 (c)). -/
theorem entryOf_refMatchTable {c : List Bool} (hlead : leadBits .matchTable <+: c) (hlen : c.length = 9) :
    entryOf refMatchTable c = none ↔ bitsToNat c = 0b101111111 ∨ bitsToNat c / 16 = 0b10000 := by
  have hall : ∀ k : Fin (2 ^ 7), entryAt refMatchTable (2 * 2 ^ 7 + k) 9 = none ↔
      2 * 2 ^ 7 + (k : Nat) = 0b101111111 ∨ (2 * 2 ^ 7 + (k : Nat)) / 16 = 0b10000 := by decide
  obtain ⟨k, hk⟩ := bitsToNat_of_lead (n := 7) hlead hlen
  rw [entryOf_eq_entryAt, hk, hlen]
  exact hall k

theorem exists_litRow {e : Token} (he : e ∈ refLitTable) : ∃ i, (e, i) ∈ litRows := by
  rw [← List.map_fst_zip (show refLitTable.length ≤ litInstrs.length by decide)] at he
  obtain ⟨r, hr, rfl⟩ := List.mem_map.mp he
  exact ⟨r.2, hr⟩

theorem exists_matchRow {e : Token} (he : e ∈ refMatchTable) : ∃ build, (e, build) ∈ matchRows := by
  rw [← List.map_fst_zip (show refMatchTable.length ≤ matchInstrs.length by decide)] at he
  obtain ⟨r, hr, rfl⟩ := List.mem_map.mp he
  exact ⟨r.2, hr⟩

/-- What a core with the reference tables decodes is a row, and it is an `ILLEGAL` row where the walk found no entry. -/
theorem Decoded.row_of_reference {cfg : Config} (href : Machine.ReferenceTables cfg) {c : List Bool} {f : Form}
    (h : Decoded cfg c f) : ∃ i, f = .row i := by
  obtain ⟨hlit, hmatch⟩ := href
  cases h with
  | lit8 v => exact ⟨_, rfl⟩
  | @literal e he =>
    obtain ⟨i, hi⟩ := exists_litRow (hlit ▸ he)
    rcases literalForm_cases e with ⟨j, _, hform⟩ | ⟨hnone, _⟩
    · exact ⟨j, hform⟩
    · exact absurd hi (hnone i)
  | @copy e x len he _ _ _ =>
    obtain ⟨build, hbuild⟩ := exists_matchRow (hmatch ▸ he)
    rcases matchForm_cases e x len with ⟨b, _, hform⟩ | ⟨hnone, _⟩
    · exact ⟨_, hform⟩
    · exact absurd hbuild (hnone build)
  | @run e count he hbase _ =>
    have hhead : ∀ e ∈ refMatchTable, e.base = 0 → refMatchTable.head? = some e := by decide
    rcases runForm_cases e count with ⟨_, hform⟩ | ⟨hnone, _⟩
    · exact ⟨_, hform⟩
    · exact absurd (hhead e (hmatch ▸ he) hbase) hnone
  | @unmatched t c hlead hlen hoff =>
    cases t with
    | literalTable =>
      rw [Config.table, hlit] at hlen hoff
      exact absurd (hoff (by decide)) (entryOf_refLitTable hlead hlen)
    | matchTable =>
      rw [Config.table, hmatch] at hlen hoff
      have hnine : c.length = 9 := hlen
      rcases (entryOf_refMatchTable hlead hlen).mp (hoff (by decide)) with hp | hp
      · exact ⟨.illegal101111111, if_pos ⟨rfl, hnine, hp⟩⟩
      · refine ⟨.illegal10000 (BitVec.ofNat 4 (bitsToNat c)), ?_⟩
        rw [unmatchedForm, if_neg (by omega), if_pos ⟨rfl, hnine, hp⟩]

theorem decode_segment_ok {cfg : Config} {bits rest : List Bool} {f : Form} (h : decode cfg .segment bits = .ok f rest) :
    ∃ ctrl : Byte, bits = byteBits ctrl ++ rest ∧ f = .row (decodeSegment ctrl) := by
  obtain ⟨v, u, hv, hend⟩ := Res.bind_eq_ok h
  obtain ⟨c, hc, rfl, rfl⟩ := listReader_read_ok hv
  cases hend
  refine ⟨BitVec.ofNat 8 (bitsToNat c), ?_, rfl⟩
  rw [byteBits, BitVec.toNat_ofNat, natToBits_mod, ← hc, natToBits_bitsToNat]

theorem decode_frame_ok {cfg : Config} {bits rest : List Bool} {f : Form} (h : decode cfg .frame bits = .ok f rest) :
    ∃ d : Byte, ∃ i, bits = byteBits d ++ rest ∧ decodeFrame d = some i ∧ f = .row i := by
  obtain ⟨v, u, hv, hend⟩ := Res.bind_eq_ok h
  obtain ⟨c, hc, rfl, rfl⟩ := listReader_read_ok hv
  have hbits : byteBits (BitVec.ofNat 8 (bitsToNat c)) = c := by
    rw [byteBits, BitVec.toNat_ofNat, natToBits_mod, ← hc, natToBits_bitsToNat]
  cases hi : decodeFrame (BitVec.ofNat 8 (bitsToNat c)) with
  | none => rw [hi] at hend; cases hend
  | some i =>
    rw [hi] at hend
    cases hend
    exact ⟨_, i, by rw [hbits], hi, rfl⟩

/-- The descriptor byte that selects each frame form (rules R91, R92). -/
theorem decodeFrame_encode {d : Byte} {i : Instr} (h : decodeFrame d = some i) :
    encode i = byteBits d ∧ i.layer = .frame ∧ i.wellFormed = true := by
  unfold decodeFrame at h
  split at h
  · rename_i hd
    cases h
    exact ⟨by rw [hd]; rfl, rfl, rfl⟩
  · split at h
    · rename_i hd
      cases h
      exact ⟨by rw [hd]; rfl, rfl, rfl⟩
    · cases h

theorem decodeSegment_encode (ctrl : Byte) :
    encode (decodeSegment ctrl) = byteBits ctrl ∧ (decodeSegment ctrl).layer = .segment ∧
      (decodeSegment ctrl).wellFormed = true := by
  cases hc : compressed ctrl with
  | true => rw [Machine.decodeSegment_of_compressed hc]; exact ⟨rfl, rfl, hc⟩
  | false => rw [Machine.decodeSegment_of_not_compressed hc]; exact ⟨rfl, rfl, by rw [Instr.wellFormed, hc]; rfl⟩

/-- Settles O42: layer by layer, what the decoder has read is the encoding of what it answers. -/
theorem encodeInvertsDecode : Obligations.EncodeInvertsDecode := by
  refine ⟨fun cfg layer bits rest f h => ?inverse, fun cfg layer bits rest f href h => ?rows⟩
  case inverse =>
    cases layer with
    | token =>
      obtain ⟨c, rfl, hdec⟩ := decode_token_ok h
      exact ⟨hdec.wellFormed, decodeTokenWith_layer h, by rw [hdec.encodeForm_eq]⟩
    | segment =>
      obtain ⟨ctrl, rfl, rfl⟩ := decode_segment_ok h
      obtain ⟨henc, hlayer, hwf⟩ := decodeSegment_encode ctrl
      exact ⟨hwf, hlayer, by rw [encodeForm, henc]⟩
    | frame =>
      obtain ⟨d, i, rfl, hi, rfl⟩ := decode_frame_ok h
      obtain ⟨henc, hlayer, hwf⟩ := decodeFrame_encode hi
      exact ⟨hwf, hlayer, by rw [encodeForm, henc]⟩
  case rows =>
    cases layer with
    | token =>
      obtain ⟨c, _, hdec⟩ := decode_token_ok h
      exact hdec.row_of_reference href
    | segment =>
      obtain ⟨ctrl, _, hform⟩ := decode_segment_ok h
      exact ⟨_, hform⟩
    | frame =>
      obtain ⟨d, i, _, _, hform⟩ := decode_frame_ok h
      exact ⟨i, hform⟩

/-! ### Encodings decode -/

theorem decode_lit8 (cfg : Config) (v : Byte) (rest : List Bool) :
    decode cfg .token (encode (.lit8 v) ++ rest) = .ok (.row (.lit8 v)) rest := by
  rw [encode, List.cons_append, decode, decodeTokenWith, listReader_read_one, Res.bind_of_ok, if_pos (by rfl),
    listReader_read_of_lt v.isLt, Res.bind_of_ok, BitVec.ofNat_toNat, BitVec.setWidth_eq]

theorem decode_lead_literal (cfg : Config) (bits : List Bool) :
    decode cfg .token (leadBits .literalTable ++ bits) = decodeLiteral listReader cfg bits := by
  simp [decode, decodeTokenWith, leadBits]

theorem decode_lead_match (cfg : Config) (bits : List Bool) :
    decode cfg .token (leadBits .matchTable ++ bits) = decodeMatch listReader cfg bits := by
  simp [decode, decodeTokenWith, leadBits]

theorem lead_literal {cfg : Config} (hlegal : cfg.tablesLegal = true) {e : Token} (he : e ∈ cfg.litTable) :
    ∃ mid, e.prefixBits = leadBits .literalTable ++ mid := ⟨_, (litTable_legal hlegal).prefixBits_eq he⟩

theorem lead_match {cfg : Config} (hlegal : cfg.tablesLegal = true) {e : Token} (he : e ∈ cfg.matchTable) :
    ∃ mid, e.prefixBits = leadBits .matchTable ++ mid := ⟨_, (matchTable_legal hlegal).prefixBits_eq he⟩

/-- A literal entry's prefix decodes to it. -/
theorem decode_literal {cfg : Config} {e : Token} (hlegal : cfg.tablesLegal = true)
    (hfree : Machine.PrefixFree cfg.litTable) (he : e ∈ cfg.litTable) (rest : List Bool) :
    decode cfg .token (e.prefixBits ++ rest) = .ok (literalForm e) rest := by
  have ht := litTable_legal hlegal
  obtain ⟨mid, hmid⟩ := lead_literal hlegal he
  have hwalk := walk_prefixBits (pre := leadBits .literalTable) he hfree ht.fit ht.ascending hmid.symm rest
  rw [hmid, List.append_assoc, decode_lead_literal, decodeLiteral]
  exact congrArg (fun r : Res _ _ Walked => r.bind _) hwalk

/-- After a match entry's prefix come its extra bits, and then what the distance asks for. -/
theorem decode_match {cfg : Config} {e : Token} {x : Nat} (hlegal : cfg.tablesLegal = true)
    (hfree : Machine.PrefixFree cfg.matchTable) (he : e ∈ cfg.matchTable) (hx : x < 2 ^ e.valueBits) (rest : List Bool) :
    decode cfg .token (e.prefixBits ++ (natToBits e.valueBits x ++ rest)) =
      if e.base + x = 0 then (listReader.read 15 rest).bind fun c s => .ok (runForm e c) s
      else (readLength listReader rest).bind fun len s => .ok (matchForm e x len) s := by
  have ht := matchTable_legal hlegal
  obtain ⟨mid, hmid⟩ := lead_match hlegal he
  have hwalk := walk_prefixBits (pre := leadBits .matchTable) he hfree ht.fit ht.ascending hmid.symm
    (natToBits e.valueBits x ++ rest)
  rw [hmid, List.append_assoc, decode_lead_match, decodeMatch]
  refine (congrArg (fun r : Res _ _ Walked => r.bind _) hwalk).trans ?_
  rw [Res.bind_of_ok]
  dsimp only
  rw [listReader_read_of_lt hx, Res.bind_of_ok]

theorem decode_copy {cfg : Config} {e : Token} {x : Nat} {len : LengthCode} (hlegal : cfg.tablesLegal = true)
    (hfree : Machine.PrefixFree cfg.matchTable) (he : e ∈ cfg.matchTable) (hx : x < 2 ^ e.valueBits)
    (hlen : len.wellFormed = true) (hdist : e.base + x ≠ 0) (rest : List Bool) :
    decode cfg .token (e.prefixBits ++ natToBits e.valueBits x ++ encodeLength len ++ rest) =
      .ok (matchForm e x len) rest := by
  rw [List.append_assoc, List.append_assoc, decode_match hlegal hfree he hx, if_neg hdist,
    readLength_encodeLength hlen, Res.bind_of_ok]

theorem decode_run {cfg : Config} {e : Token} {x : Nat} (hlegal : cfg.tablesLegal = true)
    (hfree : Machine.PrefixFree cfg.matchTable) (he : e ∈ cfg.matchTable) (hx : x < 2 ^ e.valueBits)
    (hdist : e.base + x = 0) (count : BitVec 15) (rest : List Bool) :
    decode cfg .token (e.prefixBits ++ natToBits e.valueBits x ++ natToBits 15 count.toNat ++ rest) =
      .ok (runForm e count.toNat) rest := by
  rw [List.append_assoc, List.append_assoc, decode_match hlegal hfree he hx, if_pos hdist,
    listReader_read_of_lt count.isLt, Res.bind_of_ok]

/-! ### The rows of the token layer -/

/-- A row of the token layer, as what the decoder makes of its entry and operands (rule R110). -/
inductive TokenRow : Instr → Prop
  | lit8 (v : Byte) : TokenRow (.lit8 v)
  | literal {e : Token} {i : Instr} (h : (e, i) ∈ litRows) : TokenRow i
  | copy {r : Token × (Nat → LengthCode → Instr)} {i : Instr} (hr : r ∈ matchRows) (x : Nat) (len : LengthCode)
      (hx : x < 2 ^ r.1.valueBits) (hi : i = r.2 x len) : TokenRow i
  | unenc (count : BitVec 15) : TokenRow (.unenc count)
  | illegal10000 (rest : BitVec 4) : TokenRow (.illegal10000 rest)
  | illegal101111111 : TokenRow .illegal101111111

theorem ofNat_toNat_self {w : Nat} (x : BitVec w) : BitVec.ofNat w x.toNat = x := by simp

theorem TokenRow.ofMem {i : Instr} (h : i ∈ litInstrs) : TokenRow i := by
  rw [← List.map_snd_zip (show litInstrs.length ≤ refLitTable.length by decide)] at h
  obtain ⟨r, hr, rfl⟩ := List.mem_map.mp h
  exact .literal hr

theorem matchRow_mem (k : Nat) (hk : k < matchRows.length := by decide) : matchRows[k] ∈ matchRows := List.getElem_mem hk

theorem tokenRow_of_layer {i : Instr} (h : i.layer = .token) : TokenRow i := by
  cases i with
  | lit8 v => exact .lit8 v
  | litc00 | litc01 | litc02 | litc03 | litcFF | litc04 | litc05 | litc06 | litc07 | litc08 | litc09 | litc0A | litc0B
  | litc3A | litc3B | litc3C | litc3D | litc3E | litc3F | litc40 | litc80 | litc0C | litc38 | litc39 | litc66 =>
    exact .ofMem (by decide)
  | matchC0 x len => exact .copy (matchRow_mem 0) x.toNat len x.isLt (congrArg (Instr.matchC0 · len) (ofNat_toNat_self x).symm)
  | matchC1 x len => exact .copy (matchRow_mem 1) x.toNat len x.isLt (congrArg (Instr.matchC1 · len) (ofNat_toNat_self x).symm)
  | matchC2 x len => exact .copy (matchRow_mem 2) x.toNat len x.isLt (congrArg (Instr.matchC2 · len) (ofNat_toNat_self x).symm)
  | matchC3 x len => exact .copy (matchRow_mem 3) x.toNat len x.isLt (congrArg (Instr.matchC3 · len) (ofNat_toNat_self x).symm)
  | matchC4 x len => exact .copy (matchRow_mem 4) x.toNat len x.isLt (congrArg (Instr.matchC4 · len) (ofNat_toNat_self x).symm)
  | matchC5 x len => exact .copy (matchRow_mem 5) x.toNat len x.isLt (congrArg (Instr.matchC5 · len) (ofNat_toNat_self x).symm)
  | matchC6 x len => exact .copy (matchRow_mem 6) x.toNat len x.isLt (congrArg (Instr.matchC6 · len) (ofNat_toNat_self x).symm)
  | matchC7 x len => exact .copy (matchRow_mem 7) x.toNat len x.isLt (congrArg (Instr.matchC7 · len) (ofNat_toNat_self x).symm)
  | matchC8 x len => exact .copy (matchRow_mem 8) x.toNat len x.isLt (congrArg (Instr.matchC8 · len) (ofNat_toNat_self x).symm)
  | matchC9 x len => exact .copy (matchRow_mem 9) x.toNat len x.isLt (congrArg (Instr.matchC9 · len) (ofNat_toNat_self x).symm)
  | matchC10 x len => exact .copy (matchRow_mem 10) x.toNat len x.isLt (congrArg (Instr.matchC10 · len) (ofNat_toNat_self x).symm)
  | matchC11 x len => exact .copy (matchRow_mem 11) x.toNat len x.isLt (congrArg (Instr.matchC11 · len) (ofNat_toNat_self x).symm)
  | matchC12 x len => exact .copy (matchRow_mem 12) x.toNat len x.isLt (congrArg (Instr.matchC12 · len) (ofNat_toNat_self x).symm)
  | matchC13 x len => exact .copy (matchRow_mem 13) x.toNat len x.isLt (congrArg (Instr.matchC13 · len) (ofNat_toNat_self x).symm)
  | unenc count => exact .unenc count
  | illegal10000 rest => exact .illegal10000 rest
  | illegal101111111 => exact .illegal101111111
  | segRaw ctrl => cases h
  | segComp ctrl => cases h
  | frameSingle => cases h
  | frameMulti => cases h

theorem literalForm_litRow {e : Token} {i : Instr} (h : (e, i) ∈ litRows) : literalForm e = .row i := by
  have hall : ∀ r ∈ litRows, literalForm r.1 = .row r.2 := by decide
  exact hall _ h

theorem matchForm_matchRow {r : Token × (Nat → LengthCode → Instr)} (h : r ∈ matchRows) (x : Nat) (len : LengthCode) :
    matchForm r.1 x len = .row (r.2 x len) := by
  have hall : ∀ r ∈ matchRows, matchForm r.1 x len = .row (r.2 x len) := by
    simp only [matchRows, refMatchTable, matchInstrs, List.zip_cons_cons, List.zip_nil_left, List.forall_mem_cons,
      List.not_mem_nil, false_imp_iff, implies_true, and_true]
    and_intros <;> rfl
  exact hall r h

/-! ### The reference tables decode their rows -/

theorem refTables_prefixFree : Machine.PrefixFree refLitTable ∧ Machine.PrefixFree refMatchTable := by
  have hdec : ∀ table ∈ [refLitTable, refMatchTable], table.Pairwise fun a b =>
      a.prefixBits.isPrefixOf b.prefixBits = false ∧ b.prefixBits.isPrefixOf a.prefixBits = false := by decide
  have hfree : ∀ table ∈ [refLitTable, refMatchTable], Machine.PrefixFree table := fun table ht =>
    (hdec table ht).imp fun ⟨hab, hba⟩ => by
      rw [← Bool.not_eq_true, List.isPrefixOf_iff_prefix] at hab hba
      exact ⟨hab, hba⟩
  exact ⟨hfree _ (by simp), hfree _ (by simp)⟩

theorem refLitTable_of_row {e : Token} {i : Instr} (h : (e, i) ∈ litRows) : e ∈ refLitTable := (List.of_mem_zip h).1

theorem refMatchTable_of_row {r : Token × (Nat → LengthCode → Instr)} (h : r ∈ matchRows) : r.1 ∈ refMatchTable :=
  (List.of_mem_zip (a := r.1) (b := r.2) h).1

/-- A well-formed row of a match entry has a distance and a listed length code (rules R102, R110, R180). -/
theorem of_wellFormed_matchRow {r : Token × (Nat → LengthCode → Instr)} (h : r ∈ matchRows) {x : Nat} {len : LengthCode}
    (hwf : (r.2 x len).wellFormed = true) : r.1.base + x ≠ 0 ∧ len.wellFormed = true := by
  have hall : ∀ r ∈ matchRows, (r.2 x len).wellFormed = true → r.1.base + x ≠ 0 ∧ len.wellFormed = true := by
    simp only [matchRows, refMatchTable, matchInstrs, List.zip_cons_cons, List.zip_nil_left, List.forall_mem_cons,
      List.not_mem_nil, false_imp_iff, implies_true, and_true, Instr.wellFormed]
    and_intros
    · intro h
      obtain ⟨hx, hlen⟩ := Bool.and_eq_true_iff.mp h
      exact ⟨fun hzero => of_decide_eq_true hx (by rw [show x = 0 by omega]; rfl), hlen⟩
    all_goals exact fun h => ⟨by omega, h⟩
  exact hall r h hwf

/-- Bits that begin with no match entry's prefix: the walk reads nine and finds none. -/
theorem decode_illegal {cfg : Config} {c : List Bool} (href : Machine.ReferenceTables cfg)
    (hlead : leadBits .matchTable <+: c) (hlen : c.length = 9)
    (hbits : bitsToNat c = 0b101111111 ∨ bitsToNat c / 16 = 0b10000) (rest : List Bool) :
    decode cfg .token (c ++ rest) = .ok (unmatchedForm .matchTable (bitsToNat c) 9) rest := by
  have hoff := (entryOf_refMatchTable hlead hlen).mpr hbits
  obtain ⟨mid, rfl⟩ := hlead
  have hwalk := walk_of_longest (table := refMatchTable) (pre := leadBits .matchTable) (mid := mid) (by decide)
    (hlen.trans longestPrefix_refMatchTable.symm) rest
  rw [hoff] at hwalk
  rw [List.append_assoc, decode_lead_match, decodeMatch, href.2]
  refine (congrArg (fun r : Res _ _ Walked => r.bind _) hwalk).trans ?_
  rw [Res.bind_of_ok, hlen]

theorem decode_illegal101111111 {cfg : Config} (href : Machine.ReferenceTables cfg) (rest : List Bool) :
    decode cfg .token (encode .illegal101111111 ++ rest) = .ok (.row .illegal101111111) rest :=
  decode_illegal href (by decide) rfl (.inl (by decide)) rest

theorem bitsToNat_encode_illegal10000 (r : BitVec 4) : bitsToNat (encode (.illegal10000 r)) = 0b100000000 + r.toNat := by
  rw [encode, bitsToNat_append, bitsToNat_natToBits, bitsToNat_natToBits, natToBits_length, Nat.mod_eq_of_lt r.isLt,
    show 16 % 2 ^ 5 * 2 ^ 4 = 0b100000000 by rfl]

theorem decode_illegal10000 {cfg : Config} (href : Machine.ReferenceTables cfg) (r : BitVec 4) (rest : List Bool) :
    decode cfg .token (encode (.illegal10000 r) ++ rest) = .ok (.row (.illegal10000 r)) rest := by
  have hr := r.isLt
  have hnat := bitsToNat_encode_illegal10000 r
  rw [decode_illegal href (c := encode (.illegal10000 r)) ⟨[false, false, false] ++ natToBits 4 r.toNat, rfl⟩ (by simp [encode]) (.inr (by omega)), hnat, unmatchedForm,
    if_neg (by omega), if_pos ⟨rfl, rfl, by omega⟩]
  have hlow : BitVec.ofNat 4 (256 + r.toNat) = r := BitVec.eq_of_toNat_eq (by rw [BitVec.toNat_ofNat]; omega)
  rw [hlow]

theorem decode_tokenRow {cfg : Config} {i : Instr} (href : Machine.ReferenceTables cfg) (hrow : TokenRow i)
    (hwf : i.wellFormed = true) (rest : List Bool) : decode cfg .token (encode i ++ rest) = .ok (.row i) rest := by
  have hlegal := reference_tables_legal href
  obtain ⟨hlitFree, hmatchFree⟩ := refTables_prefixFree
  rw [← href.1] at hlitFree
  rw [← href.2] at hmatchFree
  cases hrow with
  | lit8 v => exact decode_lit8 cfg v rest
  | literal h =>
    rw [encode_litRow h, decode_literal hlegal hlitFree (href.1 ▸ refLitTable_of_row h), literalForm_litRow h]
  | copy hr x len hx hi =>
    subst hi
    obtain ⟨hdist, hlen⟩ := of_wellFormed_matchRow hr hwf
    rw [encode_matchRow hr, decode_copy hlegal hmatchFree (href.2 ▸ refMatchTable_of_row hr) hx hlen hdist,
      matchForm_matchRow hr]
  | unenc count =>
    have he : (⟨5, 0b10001, 5, 0⟩ : Token) ∈ cfg.matchTable := by rw [href.2]; exact List.mem_cons_self
    have hrun := decode_run (x := 0) hlegal hmatchFree he (by decide) rfl count rest
    rw [show runForm ⟨5, 0b10001, 5, 0⟩ count.toNat = .row (.unenc count) by
      rw [runForm, if_pos (by rfl), ofNat_toNat_self]] at hrun
    exact hrun
  | illegal10000 r => exact decode_illegal10000 href r rest
  | illegal101111111 => exact decode_illegal101111111 href rest

theorem decode_segment_byteBits (cfg : Config) (ctrl : Byte) (rest : List Bool) :
    decode cfg .segment (byteBits ctrl ++ rest) = .ok (.row (decodeSegment ctrl)) rest := by
  rw [decode, byteBits, listReader_read_of_lt ctrl.isLt, Res.bind_of_ok, ofNat_toNat_self]

theorem decode_frame_byteBits {d : Byte} {i : Instr} (cfg : Config) (h : decodeFrame d = some i) (rest : List Bool) :
    decode cfg .frame (byteBits d ++ rest) = .ok (.row i) rest := by
  rw [decode, byteBits, listReader_read_of_lt d.isLt, Res.bind_of_ok, ofNat_toNat_self, h]

theorem eq_decodeSegment {i : Instr} (h : i.layer = .segment) (hwf : i.wellFormed = true) :
    ∃ ctrl, i = decodeSegment ctrl := by
  cases i with
  | segRaw ctrl => exact ⟨ctrl, (Machine.decodeSegment_of_not_compressed (by simpa [Instr.wellFormed] using hwf)).symm⟩
  | segComp ctrl => exact ⟨ctrl, (Machine.decodeSegment_of_compressed hwf).symm⟩
  | _ => cases h

theorem exists_descriptor {i : Instr} (h : i.layer = .frame) : ∃ d, decodeFrame d = some i := by
  cases i with
  | frameSingle => exact ⟨0xE0, rfl⟩
  | frameMulti => exact ⟨0xE1, rfl⟩
  | _ => cases h

/-- Settles O41: the entries of any legal prefix-free tables decode, the rows are the reference tables' entries, and the
other two layers read one byte. -/
theorem decodeInvertsEncode : Obligations.DecodeInvertsEncode := by
  refine ⟨fun cfg i rest href hwf => ?rows, fun cfg rest hlegal hlit hmatch =>
    ⟨fun v => decode_lit8 cfg v rest, fun e he => decode_literal hlegal hlit he rest, fun e he x hx =>
      ⟨fun len hlen hdist => decode_copy hlegal hmatch he hx hlen hdist rest,
        fun count hdist => decode_run hlegal hmatch he hx hdist count rest⟩⟩⟩
  case rows =>
    cases hlayer : i.layer with
    | token => exact decode_tokenRow href (tokenRow_of_layer hlayer) hwf rest
    | segment =>
      obtain ⟨ctrl, rfl⟩ := eq_decodeSegment hlayer hwf
      rw [(decodeSegment_encode ctrl).1]
      exact decode_segment_byteBits cfg ctrl rest
    | frame =>
      obtain ⟨d, hd⟩ := exists_descriptor hlayer
      rw [(decodeFrame_encode hd).1]
      exact decode_frame_byteBits cfg hd rest

end Sys2Proof

/-! PROOFS. What the codes cover (rules R101, R102, R106, R148): every length and every distance has one code, and two
prefixes of the reference tables have none. -/

namespace Sys2Proof

open Machine

/-! ### Lengths -/

/-- A length from 4 on is its highest power of two and the rest. -/
theorem lengthCode_of_log2 {l : Nat} (hlow : 4 ≤ l) (hhigh : l < 2 ^ 17) :
    (LengthCode.ext l.log2 (l - 2 ^ l.log2)).wellFormed = true ∧
      lengthValue (.ext l.log2 (l - 2 ^ l.log2)) = some l := by
  have hself : 2 ^ l.log2 ≤ l := Nat.log2_self_le (by omega)
  have hnext : l < 2 ^ (l.log2 + 1) := Nat.lt_log2_self
  have htwo : 2 ≤ l.log2 := (Nat.le_log2 (by omega)).mpr hlow
  have hsixteen : l.log2 < 17 := (Nat.log2_lt (by omega)).mpr hhigh
  rw [Nat.pow_succ] at hnext
  constructor
  · simp only [LengthCode.wellFormed, Bool.and_eq_true, decide_eq_true_eq]
    omega
  · rw [lengthValue, Nat.add_sub_cancel' hself]

theorem wellFormed_ext {extra w : Nat} (h : (LengthCode.ext extra w).wellFormed = true) :
    2 ≤ extra ∧ extra ≤ 16 ∧ w < 2 ^ extra := by
  simp only [LengthCode.wellFormed, Bool.and_eq_true, decide_eq_true_eq] at h
  exact ⟨h.1.1, h.1.2, h.2⟩

/-- A listed code with value bits stands for a length whose highest power of two it names. -/
theorem log2_of_ext {extra w : Nat} (h : (LengthCode.ext extra w).wellFormed = true) :
    4 ≤ 2 ^ extra + w ∧ 2 ^ extra + w < 2 ^ 17 ∧ (2 ^ extra + w).log2 = extra := by
  obtain ⟨hlow, hhigh, hw⟩ := wellFormed_ext h
  have hfour : 2 ^ 2 ≤ 2 ^ extra := Nat.pow_le_pow_right (by decide) hlow
  have htop : 2 ^ extra ≤ 2 ^ 16 := Nat.pow_le_pow_right (by decide) hhigh
  refine ⟨by omega, by omega, (Nat.log2_eq_iff (by omega)).mpr ⟨by omega, ?_⟩⟩
  rw [Nat.pow_succ]
  omega

/-- Settles O44: the code of a length from 4 on is its binary logarithm and what is left over. -/
theorem everyLengthHasOneCode : Obligations.EveryLengthHasOneCode := by
  refine ⟨fun l hlow hhigh => ?one, fun len l hwf hval => ?range⟩
  case one =>
    by_cases hthree : l = 3
    · subst hthree
      refine ⟨.three, rfl, rfl, fun len hwf hval => ?_⟩
      cases len with
      | three => rfl
      | ext extra w =>
        have hfour := (log2_of_ext hwf).1
        have heq : 2 ^ extra + w = 3 := Option.some.inj hval
        omega
      | overrun => cases hval
    · obtain ⟨hwf, hval⟩ := lengthCode_of_log2 (by omega) hhigh
      refine ⟨_, hwf, hval, fun len hwf' hval' => ?_⟩
      cases len with
      | three => cases hval'; omega
      | ext extra w =>
        cases hval'
        rw [(log2_of_ext hwf').2.2, Nat.add_sub_cancel_left]
      | overrun => cases hval'
  case range =>
    cases len with
    | three => cases hval; decide
    | ext extra w =>
      cases hval
      obtain ⟨hfour, htop, _⟩ := log2_of_ext hwf
      exact ⟨by omega, htop⟩
    | overrun => cases hval

/-! ### Distances -/

/-- The distance and length code of a match row are its entry's (rule R101). -/
theorem matchOperandsOf_matchRow {r : Token × (Nat → LengthCode → Instr)} (h : r ∈ matchRows) {x : Nat}
    (hx : x < 2 ^ r.1.valueBits) (len : LengthCode) : matchOperandsOf (r.2 x len) = some (r.1.base + x, len) := by
  have hall : ∀ r ∈ matchRows, x < 2 ^ r.1.valueBits → matchOperandsOf (r.2 x len) = some (r.1.base + x, len) := by
    simp only [matchRows, refMatchTable, matchInstrs, List.zip_cons_cons, List.zip_nil_left, List.forall_mem_cons,
      List.not_mem_nil, false_imp_iff, implies_true, and_true, matchOperandsOf, BitVec.toNat_ofNat]
    and_intros <;> exact fun hx => by rw [Nat.mod_eq_of_lt hx]
  exact hall r h hx

theorem matchOperandsOf_litRow {e : Token} {i : Instr} (h : (e, i) ∈ litRows) : matchOperandsOf i = none := by
  have hall : ∀ r ∈ litRows, matchOperandsOf r.2 = none := by decide
  exact hall _ h

/-- Only match rows have a distance. -/
theorem matchRow_of_operands {i : Instr} {d : Nat} {len : LengthCode} (h : matchOperandsOf i = some (d, len)) :
    ∃ r ∈ matchRows, ∃ x, x < 2 ^ r.1.valueBits ∧ i = r.2 x len ∧ d = r.1.base + x := by
  have hlayer : i.layer = .token := by
    cases i with
    | segRaw | segComp | frameSingle | frameMulti => cases h
    | _ => rfl
  cases tokenRow_of_layer hlayer with
  | copy hr x len' hx hi =>
    subst hi
    rw [matchOperandsOf_matchRow hr hx] at h
    cases h
    exact ⟨_, hr, x, hx, rfl, rfl⟩
  | literal hi => rw [matchOperandsOf_litRow hi] at h; cases h
  | lit8 | unenc | illegal10000 | illegal101111111 => cases h

/-- The entry's distances (rule R101). -/
def InRange (e : Token) (d : Nat) : Prop := e.base ≤ d ∧ d < e.base + 2 ^ e.valueBits

theorem exists_inRange {d : Nat} (h : d ≤ 33871519) : ∃ e ∈ refMatchTable, InRange e d := by
  simp only [refMatchTable, List.exists_mem_cons_iff, InRange]
  omega

theorem inRange_le {e : Token} {d : Nat} (he : e ∈ refMatchTable) (h : InRange e d) : d ≤ 33871519 := by
  have hall : ∀ e ∈ refMatchTable, e.base + 2 ^ e.valueBits ≤ 33871520 := by decide
  have := hall e he
  have := h.2
  omega

/-- The ranges of the classes follow one another (rule R148 (d)). -/
theorem inRange_unique {a b : Token} {d : Nat} (ha : a ∈ refMatchTable) (hb : b ∈ refMatchTable) (had : InRange a d)
    (hbd : InRange b d) : a = b := by
  have hapart : ∀ a ∈ refMatchTable, ∀ b ∈ refMatchTable,
      a = b ∨ a.base + 2 ^ a.valueBits ≤ b.base ∨ b.base + 2 ^ b.valueBits ≤ a.base := by decide
  obtain ⟨ha1, ha2⟩ := had
  obtain ⟨hb1, hb2⟩ := hbd
  rcases hapart a ha b hb with h | h | h
  · exact h
  · omega
  · omega

/-- Settles O45: a distance lies in the range of one entry, and the entry with the rest is one row. -/
theorem everyDistanceHasOneClass : Obligations.EveryDistanceHasOneClass := by
  intro len d
  refine ⟨fun _ hhigh => ?one, fun hpast i h => ?none⟩
  case one =>
    obtain ⟨e, he, hrange⟩ := exists_inRange hhigh
    obtain ⟨build, hbuild⟩ := exists_matchRow he
    obtain ⟨hlow, htop⟩ := hrange
    have hop := matchOperandsOf_matchRow hbuild (x := d - e.base)
      (show d - e.base < 2 ^ e.valueBits by omega) len
    simp only [Nat.add_sub_cancel' hlow] at hop
    refine ⟨_, hop, fun j hj => ?_⟩
    obtain ⟨r, hr, x, hx, rfl, rfl⟩ := matchRow_of_operands hj
    have hentry : r.1 = e := inRange_unique (refMatchTable_of_row hr) he ⟨by omega, by omega⟩ ⟨hlow, htop⟩
    have hform := matchForm_matchRow hr x len
    rw [hentry, matchForm_matchRow hbuild] at hform
    rw [hentry, Nat.add_sub_cancel_left]
    exact (Form.row.inj hform).symm
  case none =>
    obtain ⟨r, hr, x, hx, rfl, rfl⟩ := matchRow_of_operands h
    have := inRange_le (refMatchTable_of_row hr) ⟨by omega, Nat.add_lt_add_left hx _⟩
    omega

/-! ### Unmatched prefixes -/

/-- Eight bits under `11` decode to a coded literal of the reference table (rule R148 (b)). -/
theorem decode_literal_complete {cfg : Config} (href : ReferenceTables cfg) {c : List Bool}
    (hlead : leadBits .literalTable <+: c) (hlen : c.length = 8) (rest : List Bool) :
    ∃ e rest', e ∈ refLitTable ∧ decode cfg .token (c ++ rest) = .ok (literalForm e) rest' := by
  obtain ⟨e, hentry⟩ := Option.ne_none_iff_exists'.mp (entryOf_refLitTable hlead hlen)
  obtain ⟨mid, rfl⟩ := hlead
  have hwalk := walk_of_longest (table := refLitTable) (pre := leadBits .literalTable) (mid := mid) (by decide)
    (hlen.trans longestPrefix_refLitTable.symm) rest
  rw [hentry] at hwalk
  refine ⟨e, (leadBits .literalTable ++ mid).drop e.prefixLen ++ rest, List.mem_of_find?_eq_some hentry, ?_⟩
  rw [List.append_assoc, decode_lead_literal, decodeLiteral, href.1]
  exact congrArg (fun r : Res _ _ Walked => r.bind _) hwalk

theorem literalByteOf_litRow {e : Token} {i : Instr} (h : (e, i) ∈ litRows) :
    literalByteOf i = some (BitVec.ofNat 8 e.base) := by
  have hall : ∀ r ∈ litRows, literalByteOf r.2 = some (BitVec.ofNat 8 r.1.base) := by decide
  exact hall _ h

/-- The two `ILLEGAL` prefixes, on the bits (rules R194, R195). -/
def BeginsIllegal (bits : List Bool) : Prop :=
  bits.take 5 = [true, false, false, false, false] ∨
    bits.take 9 = [true, false, true, true, true, true, true, true, true]

theorem isUnmatched_literalForm (e : Token) : isUnmatched (literalForm e) = false := by
  have hall : ∀ r ∈ litRows, isUnmatched (.row r.2) = false := by decide
  rcases literalForm_cases e with ⟨i, hi, hform⟩ | ⟨_, hform⟩
  · rw [hform]; exact hall _ hi
  · rw [hform]; rfl

theorem isUnmatched_matchForm (e : Token) (x : Nat) (len : LengthCode) : isUnmatched (matchForm e x len) = false := by
  have hall : ∀ r ∈ matchRows, isUnmatched (.row (r.2 x len)) = false := by
    simp only [matchRows, refMatchTable, matchInstrs, List.zip_cons_cons, List.zip_nil_left, List.forall_mem_cons,
      List.not_mem_nil, false_imp_iff, implies_true, isUnmatched, and_self]
  rcases matchForm_cases e x len with ⟨build, hbuild, hform⟩ | ⟨_, hform⟩
  · rw [hform]; exact hall _ hbuild
  · rw [hform]; rfl

theorem isUnmatched_runForm (e : Token) (c : Nat) : isUnmatched (runForm e c) = false := by
  rcases runForm_cases e c with ⟨_, hform⟩ | ⟨_, hform⟩ <;> rw [hform] <;> rfl

theorem isUnmatched_unmatchedForm (t : TableSel) (p n : Nat) : isUnmatched (unmatchedForm t p n) = true := by
  rcases unmatchedForm_cases t p n with ⟨_, _, _, hform⟩ | ⟨_, _, _, hform⟩ | hform <;> rw [hform] <;> rfl

theorem not_beginsIllegal_lit8 (v : Byte) (rest : List Bool) : ¬BeginsIllegal (false :: byteBits v ++ rest) := by
  simp [BeginsIllegal]

theorem not_beginsIllegal_literal {cfg : Config} (hlegal : cfg.tablesLegal = true) {e : Token} (he : e ∈ cfg.litTable)
    (rest : List Bool) : ¬BeginsIllegal (e.prefixBits ++ rest) := by
  obtain ⟨mid, hmid⟩ := lead_literal hlegal he
  simp [BeginsIllegal, hmid, leadBits]

/-- No match entry's prefix begins an `ILLEGAL` row, nor is begun by one. -/
theorem not_beginsIllegal_match {e : Token} (he : e ∈ refMatchTable) (rest : List Bool) :
    ¬BeginsIllegal (e.prefixBits ++ rest) := by
  have hall : ∀ e ∈ refMatchTable, 5 ≤ e.prefixLen ∧ e.prefixLen ≤ 9 ∧
      e.prefixBits.take 5 ≠ [true, false, false, false, false] ∧
      e.prefixBits ≠ [true, false, true, true, true, true, true, true, true].take e.prefixLen := by decide
  obtain ⟨hlow, hhigh, hfive, hnine⟩ := hall e he
  rintro (h | h)
  · rw [List.take_append_of_le_length (by rw [prefixBits_length]; exact hlow)] at h
    exact hfive h
  · have htake := congrArg (List.take e.prefixLen) h
    rw [List.take_take, Nat.min_eq_left hhigh, List.take_append_of_le_length (by rw [prefixBits_length]),
      List.take_of_length_le (by rw [prefixBits_length])] at htake
    exact hnine htake

/-- The nine bits that no match entry's prefix begins. -/
theorem beginsIllegal_of_entryOf {c : List Bool} (hlead : leadBits .matchTable <+: c) (hlen : c.length = 9)
    (hoff : entryOf refMatchTable c = none) (rest : List Bool) : BeginsIllegal (c ++ rest) := by
  have hc : natToBits 9 (bitsToNat c) = c := by rw [← hlen, natToBits_bitsToNat]
  rcases (entryOf_refMatchTable hlead hlen).mp hoff with hp | hp
  · refine .inr ?_
    rw [← hlen, List.take_left, ← hc, hp]
    rfl
  · refine .inl ?_
    rw [List.take_append_of_le_length (by omega), ← hc, natToBits_add 5 4, show 2 ^ 4 = 16 by rfl, hp,
      List.take_left' (natToBits_length 5 _)]
    rfl

theorem Decoded.isUnmatched_iff {cfg : Config} (href : ReferenceTables cfg) {c : List Bool} {f : Form}
    (h : Decoded cfg c f) (rest : List Bool) : isUnmatched f = true ↔ BeginsIllegal (c ++ rest) := by
  have hlegal := reference_tables_legal href
  cases h with
  | lit8 v => exact iff_of_false (by simp [isUnmatched]) (not_beginsIllegal_lit8 v rest)
  | literal he => exact iff_of_false (by rw [isUnmatched_literalForm]; decide) (not_beginsIllegal_literal hlegal he rest)
  | copy he _ _ _ =>
    rw [List.append_assoc, List.append_assoc]
    exact iff_of_false (by rw [isUnmatched_matchForm]; decide) (not_beginsIllegal_match (href.2 ▸ he) _)
  | run he _ _ =>
    rw [List.append_assoc, List.append_assoc]
    exact iff_of_false (by rw [isUnmatched_runForm]; decide) (not_beginsIllegal_match (href.2 ▸ he) _)
  | @unmatched t c hlead hlen hoff =>
    refine iff_of_true (isUnmatched_unmatchedForm _ _ _) ?_
    cases t with
    | literalTable =>
      rw [Config.table, href.1] at hlen hoff
      exact absurd (hoff (by decide)) (entryOf_refLitTable hlead hlen)
    | matchTable =>
      rw [Config.table, href.2] at hlen hoff
      exact beginsIllegal_of_entryOf hlead hlen (hoff (by decide)) rest

/-- Settles O43: under `11` the walk always finds an entry; under `10` it fails on the two `ILLEGAL` prefixes. -/
theorem onlyTwoPrefixesAreUnmatched : Obligations.OnlyTwoPrefixesAreUnmatched := by
  intro cfg href
  refine ⟨fun bits hlen hlead => ?complete, fun bits rest f h => ?unmatched⟩
  case complete =>
    have hlead' : leadBits .literalTable <+: bits.take 8 := by
      rw [leadBits, ← hlead]
      exact List.take_prefix_take_left (by decide)
    obtain ⟨e, rest, he, hdec⟩ := decode_literal_complete href hlead' (by rw [List.length_take]; omega) (bits.drop 8)
    obtain ⟨i, hi⟩ := exists_litRow he
    rw [List.take_append_drop, literalForm_litRow hi] at hdec
    exact ⟨i, _, rest, hdec, literalByteOf_litRow hi⟩
  case unmatched =>
    obtain ⟨c, rfl, hdec⟩ := decode_token_ok h
    exact hdec.isUnmatched_iff href rest

end Sys2Proof

/-! PROOFS. The machine's fetch against the decoder on a list (rules R27, R122, R142, R225): with legal tables no read is
wider than `N_MAX`, and up to `N_MAX` a sound BitReader and the list of the bits it may still hand out read alike. -/

namespace Sys2Proof

/-! ### Legal tables never ask for more than `N_MAX` bits (rules R7, R131) -/

section
variable {ε σ α β : Type} {rd rd' : Reader ε σ}

theorem Res.bind_congr {r : Res ε σ α} {f g : α → σ → Res ε σ β} (h : ∀ a t, r = .ok a t → f a t = g a t) :
    r.bind f = r.bind g := by
  cases r with
  | ok a t => exact h a t rfl
  | stop e t => rfl

/-- Two sources that answer reads of at most `N_MAX` bits in the same way. -/
def AgreeToMax (rd rd' : Reader ε σ) : Prop := ∀ n, n ≤ nMax → rd.read n = rd'.read n

theorem extendPrefix_snd {want pfx len : Nat} {s t : σ} {p : Nat × Nat} (h : extendPrefix rd want pfx len s = .ok p t) :
    p.2 = max len want := by
  unfold extendPrefix at h
  split at h
  · obtain ⟨v, u, _, hp⟩ := Res.bind_eq_ok h
    cases hp
    omega
  · cases h
    omega

theorem walk_congr (hrd : AgreeToMax rd rd') {table : List Token} {pfx len : Nat} (hasc : ascending len table = true)
    (s : σ) : walk rd table pfx len s = walk rd' table pfx len s := by
  induction table generalizing pfx len s with
  | nil => rfl
  | cons e es ih =>
    obtain ⟨hlow, hhigh, htail⟩ := ascending_cons hasc
    have hext : extendPrefix rd e.prefixLen pfx len s = extendPrefix rd' e.prefixLen pfx len s := by
      unfold extendPrefix
      rw [hrd _ (by omega)]
    rw [walk, walk, hext]
    refine Res.bind_congr fun p t hp => ?_
    rw [ih (by rw [extendPrefix_snd hp, max_eq_right hlow]; exact htail)]

theorem readUnary_congr (hrd : AgreeToMax rd rd') {fuel extra : Nat} (h : fuel + extra ≤ nMax) (s : σ) :
    readUnary rd fuel extra s = readUnary rd' fuel extra s := by
  induction fuel generalizing extra s with
  | zero =>
    unfold readUnary
    rw [hrd 1 (by decide), hrd extra (by omega)]
  | succ fuel ih =>
    unfold readUnary
    rw [hrd 1 (by decide), hrd extra (by omega)]
    simp only [fun t => ih (extra := extra + 1) (by omega) t]

theorem readLength_congr (hrd : AgreeToMax rd rd') (s : σ) : readLength rd s = readLength rd' s := by
  unfold readLength
  rw [hrd 1 (by decide)]
  simp only [fun t => readUnary_congr hrd (fuel := 14) (extra := 2) (by decide) t]

theorem decodeLiteral_congr (hrd : AgreeToMax rd rd') {cfg : Config} (hlegal : cfg.tablesLegal = true) (s : σ) :
    decodeLiteral rd cfg s = decodeLiteral rd' cfg s := by
  unfold decodeLiteral
  rw [walk_congr hrd (litTable_legal hlegal).ascending]

theorem decodeMatch_congr (hrd : AgreeToMax rd rd') {cfg : Config} (hlegal : cfg.tablesLegal = true) (s : σ) :
    decodeMatch rd cfg s = decodeMatch rd' cfg s := by
  unfold decodeMatch
  rw [walk_congr hrd (matchTable_legal hlegal).ascending]
  refine Res.bind_congr fun r t hr => ?_
  cases r with
  | unmatched p n => rfl
  | found e =>
    dsimp only
    rw [hrd _ (valueBits_le hlegal (walk_found_mem hr)), hrd 15 (by decide)]
    simp only [readLength_congr hrd]

/-- With legal tables only reads of at most `N_MAX` bits matter. -/
theorem decodeTokenWith_congr (hrd : AgreeToMax rd rd') {cfg : Config} (hlegal : cfg.tablesLegal = true) (s : σ) :
    decodeTokenWith rd cfg s = decodeTokenWith rd' cfg s := by
  unfold decodeTokenWith
  rw [hrd 1 (by decide), hrd 8 (by decide)]
  simp only [decodeMatch_congr hrd hlegal, decodeLiteral_congr hrd hlegal]

/-- A source that answers reads of more than `N_MAX` bits with `e`. -/
def Reader.capped (rd : Reader ε σ) (e : ε) : Reader ε σ where
  read n s := if n ≤ nMax then rd.read n s else .stop e s

theorem Reader.agree_capped (rd : Reader ε σ) (e : ε) : AgreeToMax rd (rd.capped e) := by
  intro n hn
  funext s
  exact (if_pos hn).symm
end

/-- Sources that read alike up to `N_MAX` bits decode alike, with legal tables (rules R131, R144). -/
theorem decodeTokenWith_rel_of_legal {ε ε' σ τ : Type} {E : ε → ε' → Prop} {R : σ → τ → Prop} {rd : Reader ε σ}
    {rd' : Reader ε' τ} {e : ε} {e' : ε'} (he : E e e')
    (hr : ∀ n s t, n ≤ nMax → R s t → Res.Rel E R (rd.read n s) (rd'.read n t)) {cfg : Config}
    (hlegal : cfg.tablesLegal = true) {s : σ} {t : τ} (h : R s t) :
    Res.Rel E R (decodeTokenWith rd cfg s) (decodeTokenWith rd' cfg t) := by
  rw [decodeTokenWith_congr (rd.agree_capped e) hlegal, decodeTokenWith_congr (rd'.agree_capped e') hlegal]
  refine decodeTokenWith_rel (fun n s t hst => ?_) cfg h
  unfold Reader.capped
  dsimp only
  by_cases hn : n ≤ nMax
  · rw [if_pos hn, if_pos hn]
    exact hr n s t hn hst
  · rw [if_neg hn, if_neg hn]
    exact ⟨he, hst⟩

/-! ### How long a decoded token is (rule R103) -/

namespace Machine

theorem formLength_literalForm (e : Token) : formLength (literalForm e) = e.prefixLen := by
  have hall : ∀ r ∈ litRows, bitLength r.2 = r.1.prefixLen := by decide
  rcases literalForm_cases e with ⟨i, hi, hform⟩ | ⟨_, hform⟩
  · rw [hform]; exact hall _ hi
  · rw [hform]; rfl

theorem formLength_matchForm (e : Token) (x : Nat) (len : LengthCode) :
    formLength (matchForm e x len) = e.prefixLen + e.valueBits + lengthBits len := by
  have hall : ∀ r ∈ matchRows, bitLength (r.2 x len) = r.1.prefixLen + r.1.valueBits + lengthBits len := by
    simp only [matchRows, refMatchTable, matchInstrs, List.zip_cons_cons, List.zip_nil_left, List.forall_mem_cons,
      List.not_mem_nil, false_imp_iff, implies_true, bitLength, and_self]
  rcases matchForm_cases e x len with ⟨build, hbuild, hform⟩ | ⟨_, hform⟩
  · rw [hform]; exact hall _ hbuild
  · rw [hform]; rfl

theorem formLength_runForm (e : Token) (c : Nat) : formLength (runForm e c) = e.prefixLen + e.valueBits + 15 := by
  rcases runForm_cases e c with ⟨hhead, hform⟩ | ⟨_, hform⟩
  · rw [hform, head_refMatchTable hhead]; rfl
  · rw [hform]; rfl

theorem formLength_unmatchedForm (t : TableSel) (p n : Nat) : formLength (unmatchedForm t p n) = n := by
  rcases unmatchedForm_cases t p n with ⟨_, rfl, _, hform⟩ | ⟨_, rfl, _, hform⟩ | hform <;> rw [hform] <;> rfl

end Machine

open Machine in
theorem Decoded.length_eq {cfg : Config} {c : List Bool} {f : Form} (h : Decoded cfg c f) : c.length = formLength f := by
  cases h with
  | lit8 v => rw [List.length_cons, byteBits_length]; rfl
  | literal _ => rw [formLength_literalForm, prefixBits_length]
  | copy _ _ _ hlen =>
    rw [formLength_matchForm, List.length_append, List.length_append, prefixBits_length, natToBits_length,
      Laws.EncodedLength.length_encodeLength hlen]
  | run _ _ _ =>
    rw [formLength_runForm, List.length_append, List.length_append, prefixBits_length, natToBits_length,
      natToBits_length]
  | unmatched _ _ _ => rw [formLength_unmatchedForm]

/-! ### A sound BitReader reads its own list -/

namespace Machine

theorem State.ReaderInv.pendingBits_length {s : State} (h : s.ReaderInv) :
    s.pendingBits.length = 8 * (s.inLen - s.byteCur) + s.accCnt := by
  rw [State.pendingBits, List.length_append, natToBits_length, streamBits_length, List.length_drop, List.length_take,
    h.len_eq, Nat.min_self]
  omega

theorem State.ReaderInv.tokenBits_length {s : State} (h : s.ReaderInv) : s.tokenBits.length = s.bitsRem := by
  rw [State.tokenBits, List.length_take, h.pendingBits_length, Nat.min_eq_left h.budget_le]

/-- The BitReader of `t`, reached from `s` by reads alone, has the bits `bits` left in its budget. -/
structure ReadTo (s t : State) (bits : List Bool) : Prop where
  sound : t.ReaderInv
  tokenBits : t.tokenBits = bits
  position : t.bitPos + t.bitsRem = s.bitPos + s.bitsRem
  budget : t.bitsRem ≤ s.bitsRem
  frame : t = { s with byteCur := t.byteCur, acc := t.acc, accCnt := t.accCnt, bitsRem := t.bitsRem }

theorem ReadTo.refl {s : State} (h : s.ReaderInv) : ReadTo s s s.tokenBits := ⟨h, rfl, rfl, le_rfl, rfl⟩

/-- `get_bits` and the list agree on a read of at most `N_MAX` bits: the same number, or the same failure. -/
theorem getBits_rel {s t : State} {bits : List Bool} {n : Nat} (hn : n ≤ nMax) (h : ReadTo s t bits) :
    Res.Rel (fun e e' => e = Stop.raise .bitstreamExhausted ∧ e' = DecodeError.exhausted) (ReadTo s)
      (getBits n t) (listReader.read n bits) := by
  obtain ⟨hsound, rfl, hpos, hle, hframe⟩ := h
  have hlen := hsound.tokenBits_length
  have hbudget := hsound.budget_le
  simp only [listReader, hlen]
  by_cases hfits : n ≤ t.bitsRem
  · obtain ⟨v, u, hg⟩ := getBits_succeeds hsound.len_eq hn hfits (by omega)
    obtain ⟨hv, hupos, hurem, hupending, husound, huframe⟩ := hsound.getBits_ok hg
    rw [hg, if_pos hfits]
    refine ⟨?_, husound, ?_, by omega, by omega, by rw [huframe, hframe]⟩
    · rw [hv, State.tokenBits, hsound.accView.pendingBits_eq hsound.len_eq, List.take_take, Nat.min_eq_left hfits]
    · rw [State.tokenBits, State.tokenBits, hupending, hurem, List.drop_take]
  · rw [getBits_exhausted hn (.inl (by omega)), if_neg hfits]
    exact ⟨⟨rfl, rfl⟩, hsound, rfl, hpos, hle, hframe⟩

/-- The machine's fetch is the decoder on the bits that the budget leaves (rules R122, R144, R225). -/
theorem fetch_rel_decode {s : State} (h : s.ReaderInv) (hlegal : s.cfg.tablesLegal = true) :
    Res.Rel (fun e e' => e = Stop.raise .bitstreamExhausted ∧ e' = DecodeError.exhausted) (ReadTo s)
      (decodeTokenWith bitReader s.cfg s) (decode s.cfg .token s.tokenBits) :=
  decodeTokenWith_rel_of_legal (E := fun e e' => e = Stop.raise .bitstreamExhausted ∧ e' = DecodeError.exhausted)
    (rd := bitReader) ⟨rfl, rfl⟩ (fun _ _ _ hn hst => getBits_rel hn hst) hlegal (.refl h)

theorem fetch_of_decode_ok {s : State} {f : Form} {rest : List Bool} (h : s.ReaderInv)
    (hlegal : s.cfg.tablesLegal = true) (hdec : decode s.cfg .token s.tokenBits = .ok f rest) :
    ∃ t, decodeTokenWith bitReader s.cfg s = .ok f t ∧ ReadTo s t rest := by
  have hrel := fetch_rel_decode h hlegal
  rw [hdec] at hrel
  cases hf : decodeTokenWith bitReader s.cfg s with
  | ok g t =>
    rw [hf] at hrel
    obtain ⟨rfl, ht⟩ := hrel
    exact ⟨t, rfl, ht⟩
  | stop e t => rw [hf] at hrel; exact hrel.elim

theorem fetch_of_decode_stop {s : State} {e : DecodeError} {rest : List Bool} (h : s.ReaderInv)
    (hlegal : s.cfg.tablesLegal = true) (hdec : decode s.cfg .token s.tokenBits = .stop e rest) :
    ∃ t, decodeTokenWith bitReader s.cfg s = .stop (.raise .bitstreamExhausted) t ∧ ReadTo s t rest := by
  have hrel := fetch_rel_decode h hlegal
  rw [hdec] at hrel
  cases hf : decodeTokenWith bitReader s.cfg s with
  | ok g t => rw [hf] at hrel; exact hrel.elim
  | stop e t =>
    rw [hf] at hrel
    obtain ⟨⟨rfl, _⟩, ht⟩ := hrel
    exact ⟨t, rfl, ht⟩

theorem step_of_fetch_ok {s t : State} {f : Form} (hstate : s.state = .readSelector) (hlegal : s.cfg.tablesLegal = true)
    (h : decodeTokenWith bitReader s.cfg s = .ok f t) : step s = execForm f t := by
  rcases step_token_cases hstate with ⟨hill, _⟩ | ⟨_, ⟨g, u, hg, e⟩ | ⟨k, u, hk, _⟩⟩
  · rw [hlegal] at hill
    cases hill
  · cases h.symm.trans hg
    exact e
  · cases h.symm.trans hk

theorem step_of_fetch_stop {s t : State} {e : Stop} (hstate : s.state = .readSelector)
    (hlegal : s.cfg.tablesLegal = true) (h : decodeTokenWith bitReader s.cfg s = .stop e t) :
    step s = stopOutcome e t := by
  rcases step_token_cases hstate with ⟨hill, _⟩ | ⟨_, ⟨g, u, hg, _⟩ | ⟨k, u, hk, e'⟩⟩
  · rw [hlegal] at hill
    cases hill
  · cases h.symm.trans hg
  · cases h.symm.trans hk
    exact e'

/-- After the bits of a token the BitReader stands that many bits further on, with that much less budget. -/
theorem ReadTo.after_token {s t : State} {f : Form} {rest : List Bool} (hs : s.ReaderInv)
    (hdec : decode s.cfg .token s.tokenBits = .ok f rest) (h : ReadTo s t rest) :
    t.bitPos = s.bitPos + formLength f ∧ t.bitsRem + formLength f = s.bitsRem := by
  obtain ⟨c, hc, htoken⟩ := decode_token_ok hdec
  have hlen := congrArg List.length hc
  rw [hs.tokenBits_length, List.length_append, ← h.tokenBits, h.sound.tokenBits_length, htoken.length_eq] at hlen
  have hpos := h.position
  omega

/-- Settles O46: the fetch reads what the list reads, and its position follows from the bits that are left. -/
theorem stepRunsTheDecodedToken : Obligations.StepRunsTheDecodedToken := by
  intro s f rest hs hlegal hstate hdec
  obtain ⟨t, hfetch, ht⟩ := fetch_of_decode_ok hs hlegal hdec
  obtain ⟨hpos, hrem⟩ := ht.after_token hs hdec
  have hstep := step_of_fetch_ok hstate hlegal hfetch
  exact ⟨t, hstep, fun i hi => by rw [hstep, hi, execForm_row], ht.sound, ht.tokenBits, hpos, hrem, ht.frame⟩

/-- Entry to `Failed` leaves the BitReader (rule R287). -/
theorem enterFailed_readerInv {s : State} {k : ErrKind} (h : s.ReaderInv) : (s.enterFailed k).ReaderInv :=
  ⟨h.len_eq, h.cur_le, h.cnt_le, h.acc_rest, h.budget_le⟩

/-- Settles O47: where the list is too short, so is the budget, and the fetch raises what `get_bits` raised. -/
theorem tokensCutShortFail : Obligations.TokensCutShortFail := by
  intro s e rest hs hlegal hstate hdec
  obtain ⟨t, hfetch, hsound, hbits, _, _, hframe⟩ := fetch_of_decode_stop hs hlegal hdec
  refine ⟨_, step_of_fetch_stop hstate hlegal hfetch, ?failed, ?working, enterFailed_readerInv hsound, hbits, ?_, ?_⟩
  case failed =>
    rw [hframe]
    exact ⟨rfl, rfl, ⟨rfl, rfl, fun _ => rfl, fun _ => rfl⟩, ⟨rfl, rfl⟩,
      ⟨rfl, rfl, rfl, rfl, rfl, rfl, rfl, rfl, rfl, rfl, rfl, rfl, rfl, rfl⟩⟩
  case working =>
    rw [hframe]
    exact ⟨rfl, rfl, rfl, rfl, rfl, rfl, rfl⟩
  all_goals
    rw [hframe]
    rfl

end Machine
end Sys2Proof

/-! PROOFS. The state after a session reset (rules R28, R29, R311) and the reference tables (rules R7, R148). -/

namespace Sys2Proof.Machine

/-- Settles O1. -/
theorem resetHoldsTheSpecifiedValues : Obligations.ResetHoldsTheSpecifiedValues :=
  ⟨rfl, fun _ => ⟨fun _ => rfl, rfl, rfl, rfl, rfl, rfl, rfl, rfl, rfl⟩⟩

theorem resetWith_inv {cfg : Config} (hcap : 1 ≤ cfg.histCap) (hlegal : cfg.tablesLegal = true) :
    (State.resetWith cfg).Inv where
  tables := hlegal
  ring := ⟨hcap, hcap, State.reset_hist_wf cfg, fun _ h => absurd h List.not_mem_nil⟩
  out := ⟨Nat.zero_le _, State.reset_out_wf cfg, fun _ h => absurd h List.not_mem_nil, fun _ h => absurd h (Nat.not_lt_zero _)⟩
  reader := ⟨rfl, le_rfl, Nat.zero_le _, .inl ⟨rfl, rfl⟩, Nat.zero_le _⟩
  control := ⟨.inr (.inl rfl), by rintro ⟨⟩, iff_of_false (by rintro ⟨⟩) (by rintro ⟨⟩)⟩
  host := ⟨fun h => (by cases h), fun h => (by cases h), fun h => (by cases h), fun _ => rfl, fun _ => le_rfl,
    by rintro ⟨⟩, by rintro ⟨⟩, by rintro ⟨⟩, by rintro ⟨⟩⟩
  widths :=
    { inLen := Nat.two_pow_pos _, accCnt := Nat.two_pow_pos _, bitsRem := Nat.two_pow_pos _
      outCnt := Nat.two_pow_pos _, pfx := Nat.two_pow_pos _, pfxLen := Nat.zero_le _, dist := Nat.zero_le _
      len := Nat.two_pow_pos _, extra := Nat.two_pow_pos _, count := Nat.two_pow_pos _
      segmentCount := Nat.two_pow_pos _, uncompressedSize := Nat.two_pow_pos _, segmentSize := Nat.two_pow_pos _
      total := Nat.two_pow_pos _ }

/-- With no output yet there is no tail to compare (rule R208). -/
theorem tailAgrees_of_outCnt {s : State} (h : s.outCnt = 0) : s.TailAgrees := by
  intro k hk
  omega

/-- Settles O2. -/
theorem resetMeetsTheInvariant : Obligations.ResetMeetsTheInvariant :=
  ⟨resetWith_inv (by decide) reference_tablesLegal,
    fun _ hcap hlegal => ⟨resetWith_inv hcap hlegal, tailAgrees_of_outCnt rfl⟩⟩

/-- Settles O3: each condition compares `STATE` with its codes. -/
theorem statusConditionsFollowState : Obligations.StatusConditionsFollowState := by
  intro s
  unfold State.isDone State.isFailed State.busy State.outValid State.isDone
  cases s.state <;> decide

/-- Settles O5: the decoder evaluated on each word. -/
theorem wordsOfTheSpecDecode : Obligations.WordsOfTheSpecDecode := by
  refine ⟨?_, ?_, ?_, ?_, ?_, ?_, ?_, ?_, ?_, ?_, ?_⟩ <;> rfl

theorem refTables_prefixFree_append : PrefixFree (refLitTable ++ refMatchTable) := by
  have hlegal := reference_tablesLegal
  refine List.pairwise_append.mpr ⟨refTables_prefixFree.1, refTables_prefixFree.2, fun a ha b hb => ?_⟩
  obtain ⟨ma, hma⟩ := lead_literal hlegal ha
  obtain ⟨mb, hmb⟩ := lead_match hlegal hb
  rw [hma, hmb]
  constructor
  · rintro ⟨c, hc⟩
    simp [leadBits] at hc
  · rintro ⟨c, hc⟩
    simp [leadBits] at hc

/-- Settles O6: within a table the prefixes were compared pair by pair; across the tables the table-select bit differs. -/
theorem referenceTablesAreLegal : Obligations.ReferenceTablesAreLegal := by
  refine ⟨⟨rfl, rfl⟩, reference_tablesLegal, refTables_prefixFree_append, rfl, ?_, rfl, by decide,
    reference_prefixWidth, reference_maxDistance⟩
  have hall : ∀ k : Fin 13, (matchEntry (k + 1)).base = (matchEntry k).base + 2 ^ (matchEntry k).valueBits := by decide
  exact fun k hk => hall ⟨k, Nat.succ_lt_succ_iff.mp hk⟩

end Sys2Proof.Machine

/-! PROOFS. `emit` and the two procedures the spec compares `match_copy` with (rules R76, R205, R208). -/

namespace Sys2Proof.Machine

/-! ### `emit` -/

/-- Settles O13. -/
theorem emitAppendsOrFails : Obligations.EmitAppendsOrFails := by
  intro s bytes hidx
  rcases emit_cases bytes s with ⟨hfull, e⟩ | ⟨hfits, e⟩
  · exact ⟨fun _ => e, fun h => by omega⟩
  · exact ⟨fun h => by omega, fun _ => ⟨_, e, State.append_emitted fun _ => hidx, s.append_eq bytes⟩⟩

/-! ### The doubling procedure (rule R205) -/

/-- A shorter match is the beginning of a longer one. -/
theorem matchBytes_take (s : State) (d : Nat) {k l : Nat} (h : k ≤ l) : (s.matchBytes d l).take k = s.matchBytes d k := by
  rw [State.matchBytes, ← List.map_take, List.take_range, Nat.min_eq_left h, State.matchBytes]

/-- Whole periods in front of a match change nothing: byte `i` depends on `i mod d` only. -/
theorem matchBytes_periods_add (s : State) {d k : Nat} (hk : d ∣ k) (l : Nat) :
    s.matchBytes d (k + l) = s.matchBytes d k ++ s.matchBytes d l := by
  obtain ⟨c, rfl⟩ := hk
  simp only [State.matchBytes, List.range_add, List.map_append, List.map_map, Function.comp_def,
    Nat.mul_add_mod_self_left]

/-- The doubling loop keeps whole periods of the match until the last copy, which it cuts. -/
theorem doubleUntil_matchBytes (s : State) {d l : Nat} :
    ∀ {fuel k : Nat}, d ∣ k → 0 < k → k ≤ l → l ≤ k + fuel → doubleUntil l fuel (s.matchBytes d k) = s.matchBytes d l
  | 0, k, _, _, hle, hfuel => by
    obtain rfl : k = l := by omega
    rfl
  | fuel + 1, k, hper, hpos, hle, hfuel => by
    rw [doubleUntil, matchBytes_length]
    by_cases hlt : k < l
    · rw [if_pos hlt, matchBytes_take s d (by omega), ← matchBytes_periods_add s hper]
      by_cases hwhole : k ≤ l - k
      · rw [min_eq_left hwhole]
        exact doubleUntil_matchBytes s (Nat.dvd_add hper hper) (by omega) (by omega) (by omega)
      · rw [min_eq_right (by omega), Nat.add_sub_cancel' hle]
        cases fuel with
        | zero => rfl
        | succ fuel => rw [doubleUntil, matchBytes_length, if_neg (lt_irrefl l)]
    · obtain rfl : k = l := by omega
      rw [if_neg hlt]

/-- The template is the match's own beginning. -/
theorem template_eq (s : State) {d k : Nat} (h : k ≤ d) :
    ((List.range k).map fun i => s.histByte (s.sourceAddr d i)) = s.matchBytes d k := by
  refine List.map_congr_left fun i hi => ?_
  rw [Nat.mod_eq_of_lt (by have := List.mem_range.mp hi; omega)]

/-- Settles O16: a short match is its template; a long one starts with one period, which doubling repeats. -/
theorem doublingCopyGivesTheMatchOutput : Obligations.DoublingCopyGivesTheMatchOutput := by
  intro s d l hd
  rw [State.matchBytesByDoubling, template_eq s (by omega)]
  by_cases hshort : l ≤ d
  · rw [min_eq_right hshort]
    cases l with
    | zero => rfl
    | succ l => rw [doubleUntil, matchBytes_length, if_neg (lt_irrefl _)]
  · rw [min_eq_left (by omega)]
    exact doubleUntil_matchBytes s dvd_rfl hd (by omega) (by omega)

/-! ### The byte by byte copy (rule R76) -/

/-- After one byte the copy reads one address further on. -/
theorem sourceAddr_ringWriteByte {s : State} (hcap : 0 < s.cfg.histCap) (b : Byte) (d i : Nat) :
    (s.ringWriteByte b).sourceAddr d i = s.sourceAddr d (i + 1) := by
  zify
  rw [State.sourceAddr_cast (s := s.ringWriteByte b) hcap, State.sourceAddr_cast hcap, State.ringWriteByte_histIdx,
    State.ringWriteByte_cfg]
  push_cast
  rw [show (((s.histIdx : Int) + 1) % s.cfg.histCap - d + i) = ((s.histIdx : Int) + 1) % s.cfg.histCap + (i - d) by ring,
    Int.emod_add_emod]
  congr 1
  ring

theorem sourceAddr_self {s : State} (hidx : s.histIdx < s.cfg.histCap) (d : Nat) : s.sourceAddr d d = s.histIdx := by
  zify
  rw [State.sourceAddr_cast (by omega), sub_add_cancel, Int.emod_eq_of_lt (by omega) (by omega)]

/-- Inside a match whose distance is within the ring no source address is the write index, but that of byte 0. -/
theorem sourceAddr_ne {s : State} {d i : Nat} (hidx : s.histIdx < s.cfg.histCap) (hpos : 0 < i) (hi : i < d)
    (hle : d ≤ s.cfg.histCap) : s.sourceAddr d i ≠ s.histIdx := by
  intro h
  zify at h
  rw [State.sourceAddr_cast (by omega)] at h
  have hsame : (s.histIdx : Int) - d + i ≡ s.histIdx [ZMOD s.cfg.histCap] :=
    h.trans (Int.emod_eq_of_lt (by omega) (by omega)).symm
  have hdvd := hsame.dvd
  rw [show (s.histIdx : Int) - (s.histIdx - d + i) = d - i by ring] at hdvd
  have := Int.le_of_dvd (by omega) hdvd
  omega

/-- Within the ring a written byte comes back as the source of the byte `d` places on, so the rest of the copy is the
match of the new state. -/
theorem matchBytes_ringWriteByte {s : State} {d : Nat} (hidx : s.histIdx < s.cfg.histCap) (hd : 1 ≤ d)
    (hle : d ≤ s.cfg.histCap) (l : Nat) :
    s.histByte (s.sourceAddr d 0) :: (s.ringWriteByte (s.histByte (s.sourceAddr d 0))).matchBytes d l =
      s.matchBytes d (l + 1) := by
  have hcap : 0 < s.cfg.histCap := by omega
  have haddr (i : Nat) : s.sourceAddr d i % s.cfg.histCap = s.sourceAddr d i :=
    Nat.mod_eq_of_lt (State.sourceAddr_lt hcap d i)
  conv_rhs => rw [State.matchBytes, List.range_succ_eq_map, List.map_cons, List.map_map, Nat.zero_mod]
  rw [State.matchBytes]
  congr 1
  refine List.map_congr_left fun i _ => ?_
  rw [sourceAddr_ringWriteByte hcap, State.histByte_ringWriteByte, haddr, Nat.mod_eq_of_lt hidx, Function.comp_apply]
  have hlt := Nat.mod_lt i hd
  by_cases hlast : i % d + 1 = d
  · have hwrap : (i + 1) % d = 0 := by rw [← Nat.mod_add_mod, hlast, Nat.mod_self]
    rw [hlast, sourceAddr_self hidx, if_pos rfl, Nat.succ_eq_add_one, hwrap]
  · have hnext : (i + 1) % d = i % d + 1 := by
      rw [Nat.add_mod, Nat.mod_eq_of_lt (show 1 < d by omega), Nat.mod_eq_of_lt (by omega)]
    rw [if_neg (sourceAddr_ne hidx (by omega) (by omega) hle), Nat.succ_eq_add_one, hnext]

theorem copyByteByByte_eq {s : State} {d : Nat} (hidx : s.histIdx < s.cfg.histCap) (hd : 1 ≤ d)
    (hle : d ≤ s.cfg.histCap) (l : Nat) :
    State.copyByteByByte d l s = (s.matchBytes d l, s.ringWrite (s.matchBytes d l)) := by
  induction l generalizing s with
  | zero => rfl
  | succ l ih =>
    have hidx' : (s.ringWriteByte (s.histByte (s.sourceAddr d 0))).histIdx <
        (s.ringWriteByte (s.histByte (s.sourceAddr d 0))).cfg.histCap := Nat.mod_lt _ (by omega)
    rw [State.copyByteByByte, ih hidx' hle, ← matchBytes_ringWriteByte hidx hd hle, State.ringWrite_cons]

/-- A ring of two bytes that differ. -/
def twoBytes : State := State.resetWith { Config.reference with histCap := 2, histInit := { fill := 0, cells := [(0, 0x41)] } }

/-- Settles O17: within the ring by induction on the length. With two bytes in the ring and distance 3 the read-first
match takes `HIST[1], HIST[0], HIST[1]`, while the byte by byte copy overwrites `HIST[0]` before it reads it. -/
theorem byteByByteCopyAgreesWithinTheRing : Obligations.ByteByByteCopyAgreesWithinTheRing :=
  ⟨fun _ _ l hidx hd hle => copyByteByByte_eq hidx hd hle l,
    twoBytes, 3, 3, resetWith_inv (by decide) (by decide), by decide, le_rfl, by decide⟩

end Sys2Proof.Machine

/-! PROOFS. What each token does (rules R143, R226 to R233): the state in which its bytes are emitted or its error raised
differs from the one before in the BitReader, the working registers and `STATE` only. -/

namespace Sys2Proof.Machine

/-! ### The registers a token works in -/

/-- `u` is `s` but for the BitReader, the working registers and `STATE` (rules R24, R25). -/
def Worked (s u : State) : Prop :=
  u = { s with byteCur := u.byteCur, acc := u.acc, accCnt := u.accCnt, bitsRem := u.bitsRem, state := u.state,
               tblSel := u.tblSel, pfx := u.pfx, pfxLen := u.pfxLen, dist := u.dist, len := u.len, extra := u.extra,
               count := u.count }

theorem Worked.trans {s u v : State} (h : Worked s u) (h' : Worked u v) : Worked s v := by
  unfold Worked at h h' ⊢
  rw [h', h]

/-- Entry to `Failed` after such work (rules R287, R288). -/
theorem Worked.failedWith {s u : State} (h : Worked s u) (k : ErrKind) : FailedWith k s (u.enterFailed k) := by
  rw [h]
  exact ⟨rfl, rfl, ⟨rfl, rfl, fun _ => rfl, fun _ => rfl⟩, ⟨rfl, rfl⟩,
    ⟨rfl, rfl, rfl, rfl, rfl, rfl, rfl, rfl, rfl, rfl, rfl, rfl, rfl, rfl⟩⟩

/-- What is emitted after such work is emitted to the memory as it was before (rule R208). -/
theorem Worked.emitted {s u : State} {bs : List Byte} (h : Worked s u) (hidx : bs = [] → s.histIdx < s.cfg.histCap) :
    Emitted bs s (u.append bs).loopTest := by
  have hu : Emitted bs u (u.append bs).loopTest := (State.append_emitted (by rw [h]; exact hidx)).loopTest
  have hcnt : u.outCnt = s.outCnt := by rw [h]
  have hidx : u.histIdx = s.histIdx := by rw [h]
  have hcfg : u.cfg = s.cfg := by rw [h]
  have hout : u.out = s.out := by rw [h]
  have hbyte (a : Nat) : u.histByte a = s.histByte a := by rw [h]; rfl
  exact ⟨by rw [hu.outCnt, hcnt], by rw [hu.histIdx, hidx, hcfg], hcnt ▸ hu.outNew, by rw [← hcnt, ← hout]; exact hu.outOld,
    by rw [← hidx, ← hcfg]; exact hu.histNew, fun a ha => (hu.histOld a (by rw [hidx, hcfg]; exact ha)).trans (hbyte a)⟩

theorem worked_walked (s : State) (t : TableSel) (e : Token) : Worked s (s.walked t e) := rfl
theorem worked_walkedOff (s : State) (t : TableSel) (p n : Nat) : Worked s (s.walkedOff t p n) := rfl
theorem worked_matchOperands (s : State) (e : Token) (x : Nat) (len : LengthCode) :
    Worked s (s.matchOperands e x len) := rfl
theorem worked_runOperands (s : State) (e : Token) (n : Nat) : Worked s (s.runOperands e n) := rfl
theorem worked_realign (s : State) : Worked s s.realign := rfl

/-! ### Literals -/

/-- The rest of the state after `emit` and the loop test (rules R208, R224). -/
theorem sameAround_append_loopTest {s u : State} (bs : List Byte) (h : SameAroundToken s u) :
    SameAroundToken s (u.append bs).loopTest := by
  obtain ⟨⟨r1, r2, r3, r4, r5, r6⟩, ⟨c, p⟩, ⟨h1, h2, h3, h4, h5, h6, h7, h8, h9, h10, h11, h12, h13, h14⟩, e⟩ := h
  rw [State.append_eq]
  exact ⟨⟨r1, r2, r3, r4, r5, r6⟩, ⟨c, p⟩, ⟨h1, h2, h3, h4, h5, h6, h7, h8, h9, h10, h11, h12, h13, h14⟩, e⟩

theorem sameAround_walked (s : State) (t : TableSel) (e : Token) : SameAroundToken s (s.walked t e) :=
  ⟨⟨rfl, rfl, rfl, rfl, rfl, rfl⟩, ⟨rfl, rfl⟩,
    ⟨rfl, rfl, rfl, rfl, rfl, rfl, rfl, rfl, rfl, rfl, rfl, rfl, rfl, rfl⟩, rfl⟩

theorem sameAround_matchOperands (s : State) (e : Token) (x : Nat) (len : LengthCode) :
    SameAroundToken s (s.matchOperands e x len) :=
  ⟨⟨rfl, rfl, rfl, rfl, rfl, rfl⟩, ⟨rfl, rfl⟩,
    ⟨rfl, rfl, rfl, rfl, rfl, rfl, rfl, rfl, rfl, rfl, rfl, rfl, rfl, rfl⟩, rfl⟩

theorem appended_state (u : State) (bs : List Byte) : (u.append bs).loopTest.state = afterToken u.bitsRem := by
  rw [State.loopTest_state_eq, State.append_bitsRem]

/-- Settles O18. -/
theorem lit8EmitsItsByte : Obligations.Lit8EmitsItsByte := by
  intro v s hroom
  rcases emitAndLoop_cases [v] { s with state := .literal } with ⟨hfull, _⟩ | ⟨_, e⟩
  · simp only [List.length_singleton] at hfull
    omega
  · have hwork : Worked s { s with state := .literal } := rfl
    have hworking := State.append_loopTest_sameWorking { s with state := .literal } [v]
    exact ⟨_, e, hwork.emitted (fun h => by cases h),
      sameAround_append_loopTest _ ⟨⟨rfl, rfl, rfl, rfl, rfl, rfl⟩, ⟨rfl, rfl⟩,
        ⟨rfl, rfl, rfl, rfl, rfl, rfl, rfl, rfl, rfl, rfl, rfl, rfl, rfl, rfl⟩, rfl⟩,
      ⟨hworking.tblSel, hworking.pfx, hworking.pfxLen, hworking.dist, hworking.len, hworking.extra, hworking.count⟩,
      appended_state _ _⟩

/-- A literal token with room for its byte (rule R228). -/
theorem literalToken_done (e : Token) {s : State} (hroom : s.outCnt < outCap) :
    ∃ t, literalToken e s = .next t ∧ LiteralDone (BitVec.ofNat 8 e.base) e.prefixCode e.prefixLen s t := by
  rcases literalToken_cases e s with ⟨hfull, _⟩ | ⟨_, h⟩
  · omega
  · have hworking := State.append_loopTest_sameWorking (s.walked .literalTable e) [BitVec.ofNat 8 e.base]
    exact ⟨_, h, {
      emitted := (worked_walked s .literalTable e).emitted fun h => by cases h
      around := sameAround_append_loopTest _ (sameAround_walked s .literalTable e)
      state := appended_state _ _
      walked := ⟨hworking.tblSel, hworking.pfx, hworking.pfxLen⟩
      operands := ⟨hworking.dist, hworking.len, hworking.extra, hworking.count⟩ }⟩

/-- A literal token with no room (rule R208). -/
theorem literalToken_full (e : Token) {s : State} (hfull : outCap ≤ s.outCnt) :
    ∃ t, literalToken e s = .next t ∧ FailedWith .outputCapacityExceeded s t ∧ SameReader s t ∧ SameOperands s t := by
  rcases literalToken_cases e s with ⟨_, h⟩ | ⟨hroom, _⟩
  · exact ⟨_, h, (worked_walked s .literalTable e).failedWith _, ⟨rfl, rfl, rfl, rfl, rfl, rfl⟩, ⟨rfl, rfl, rfl, rfl⟩⟩
  · omega

/-- A literal row runs the literal token of its entry (rules R150 to R174). -/
theorem exec_litRow {e : Token} {i : Instr} (h : (e, i) ∈ litRows) (s : State) : exec i s = literalToken e s := by
  have hall : ∀ r ∈ litRows, exec r.2 s = literalToken r.1 s := by
    simp only [litRows, refLitTable, litInstrs, List.zip_cons_cons, List.zip_nil_left, List.forall_mem_cons,
      List.not_mem_nil, false_imp_iff, implies_true, and_true]
    and_intros <;> rfl
  exact hall _ h

theorem prefix_litRow {e : Token} {i : Instr} (h : (e, i) ∈ litRows) :
    prefixOf i = e.prefixCode ∧ prefixLength i = e.prefixLen := by
  have hall : ∀ r ∈ litRows, prefixOf r.2 = r.1.prefixCode ∧ prefixLength r.2 = r.1.prefixLen := by decide
  exact hall _ h

/-- The instructions with a byte are the literal rows. -/
theorem litRow_of_byte {i : Instr} {b : Byte} (h : literalByteOf i = some b) :
    ∃ e, (e, i) ∈ litRows ∧ b = BitVec.ofNat 8 e.base := by
  have hlayer : i.layer = .token := by
    cases i with
    | segRaw | segComp | frameSingle | frameMulti => cases h
    | _ => rfl
  cases tokenRow_of_layer hlayer with
  | literal hrow => exact ⟨_, hrow, Option.some.inj (h.symm.trans (literalByteOf_litRow hrow))⟩
  | copy hr x len hx hi =>
    have hall : ∀ r ∈ matchRows, literalByteOf (r.2 x len) = none := by
      simp only [matchRows, refMatchTable, matchInstrs, List.zip_cons_cons, List.zip_nil_left, List.forall_mem_cons,
        List.not_mem_nil, false_imp_iff, implies_true, literalByteOf, and_self]
    rw [hi, hall _ hr] at h
    cases h
  | lit8 | unenc | illegal10000 | illegal101111111 => cases h

/-- Settles O19. -/
theorem codedLiteralsEmitTheirByte : Obligations.CodedLiteralsEmitTheirByte := by
  refine ⟨fun i b hb s hroom => ?_, fun e s hroom => literalToken_done e hroom⟩
  obtain ⟨e, hrow, rfl⟩ := litRow_of_byte hb
  obtain ⟨hcode, hlen⟩ := prefix_litRow hrow
  rw [exec_litRow hrow, hcode, hlen]
  exact literalToken_done e hroom

/-- Settles O20. -/
theorem literalsFailOnAFullBuffer : Obligations.LiteralsFailOnAFullBuffer := by
  refine ⟨fun i s hi hfull => ?_, fun e s hfull => literalToken_full e hfull⟩
  rcases hi with ⟨v, rfl⟩ | ⟨b, hb⟩
  · rcases emitAndLoop_cases [v] { s with state := .literal } with ⟨_, e⟩ | ⟨hroom, _⟩
    · have hwork : Worked s { s with state := .literal } := rfl
      exact ⟨_, e, hwork.failedWith _, ⟨rfl, rfl, rfl, rfl, rfl, rfl⟩, ⟨rfl, rfl, rfl, rfl⟩⟩
    · simp only [List.length_singleton] at hroom
      omega
  · obtain ⟨e, hrow, _⟩ := litRow_of_byte hb
    rw [exec_litRow hrow]
    exact literalToken_full e hfull

/-! ### Matches -/

theorem lengthOf_of_lengthValue {len : LengthCode} {l : Nat} (h : lengthValue len = some l) (extra : Nat) :
    (lengthOf len extra).1 = l := by
  cases len with
  | overrun => cases h
  | three | ext => exact Option.some.inj h

/-- A match token that fits copies its length from its distance (rules R204, R229 to R232). -/
theorem matchToken_done {e : Token} {x l : Nat} {len : LengthCode} {s : State} (hlen : lengthValue len = some l)
    (hdist : e.base + x ≠ 0) (hidx : s.histIdx < s.cfg.histCap) (hfits : l ≤ outCap - s.outCnt) :
    ∃ t, matchToken e x len s = .next t ∧ MatchDone (e.base + x) l len e.prefixCode e.prefixLen s t := by
  have hl := lengthOf_of_lengthValue hlen s.extra
  rcases matchToken_cases e x len s with ⟨hzero, _⟩ | ⟨_, hover | hlong, _⟩ | ⟨_, _, _, h⟩
  · exact absurd hzero hdist
  · rw [hover] at hlen
    cases hlen
  · omega
  · have hworking := State.append_loopTest_sameWorking (s.matchOperands e x len)
      ((s.matchOperands e x len).matchBytes (distanceOf e x) (lengthOf len s.extra).1)
    refine ⟨_, h, {
      copied := ⟨_, hl ▸ s.matchBytes_isMatchOutput (distanceOf e x) (lengthOf len s.extra).1,
        (worked_matchOperands s e x len).emitted fun _ => hidx⟩
      around := sameAround_append_loopTest _ (sameAround_matchOperands s e x len)
      state := appended_state _ _
      walked := ⟨hworking.tblSel, hworking.pfx, hworking.pfxLen⟩
      dist := hworking.dist
      len := hworking.len.trans hl
      extra := hworking.extra.trans ?_
      count := hworking.count }⟩
    cases len <;> first | rfl | cases hlen

theorem matchToken_fails {e : Token} {x : Nat} {len : LengthCode} {s : State} (hdist : e.base + x ≠ 0)
    (hlen : len = .overrun ∨ ∃ l, lengthValue len = some l ∧ outCap - s.outCnt < l) :
    ∃ t, matchToken e x len s = .next t ∧ FailedWith .outputCapacityExceeded s t ∧ SameReader s t ∧
      t.dist = e.base + x ∧ t.count = s.count := by
  rcases matchToken_cases e x len s with ⟨hzero, _⟩ | ⟨_, _, h⟩ | ⟨_, hno, hfits, _⟩
  · exact absurd hzero hdist
  · exact ⟨_, h, (worked_matchOperands s e x len).failedWith _, ⟨rfl, rfl, rfl, rfl, rfl, rfl⟩, rfl, rfl⟩
  · rcases hlen with hover | ⟨l, hl, hlong⟩
    · exact absurd hover hno
    · rw [lengthOf_of_lengthValue hl] at hfits
      omega

/-- A match row runs the match token of its entry (rules R180 to R193). -/
theorem exec_matchRow {r : Token × (Nat → LengthCode → Instr)} (h : r ∈ matchRows) {x : Nat}
    (hx : x < 2 ^ r.1.valueBits) (len : LengthCode) (s : State) : exec (r.2 x len) s = matchToken r.1 x len s := by
  have hall : ∀ r ∈ matchRows, x < 2 ^ r.1.valueBits → exec (r.2 x len) s = matchToken r.1 x len s := by
    simp only [matchRows, refMatchTable, matchInstrs, List.zip_cons_cons, List.zip_nil_left, List.forall_mem_cons,
      List.not_mem_nil, false_imp_iff, implies_true, and_true]
    and_intros <;> exact fun hx => congrArg (fun x => matchToken _ x len s)
      ((BitVec.toNat_ofNat _ _).trans (Nat.mod_eq_of_lt hx))
  exact hall r h hx

theorem prefix_matchRow {r : Token × (Nat → LengthCode → Instr)} (h : r ∈ matchRows) (x : Nat) (len : LengthCode) :
    prefixOf (r.2 x len) = r.1.prefixCode ∧ prefixLength (r.2 x len) = r.1.prefixLen := by
  have hall : ∀ r ∈ matchRows, prefixLength (r.2 x len) = r.1.prefixLen := by
    simp only [matchRows, refMatchTable, matchInstrs, List.zip_cons_cons, List.zip_nil_left, List.forall_mem_cons,
      List.not_mem_nil, false_imp_iff, implies_true, prefixLength, and_self]
  have hfit := (matchTable_legal reference_tablesLegal).fit r.1 (refMatchTable_of_row h)
  rw [prefixOf, hall r h, encode_matchRow h, List.append_assoc, List.take_left' (prefixBits_length r.1),
    bitsToNat_prefixBits hfit]
  exact ⟨rfl, rfl⟩

/-- Settles O21. -/
theorem matchesCopyFromTheHistory : Obligations.MatchesCopyFromTheHistory := by
  refine ⟨fun i d l len hops hlen hdist s hidx hfits => ?_,
    fun e x l len hlen hdist s hidx hfits => matchToken_done hlen hdist hidx hfits⟩
  obtain ⟨r, hr, x, hx, rfl, rfl⟩ := matchRow_of_operands hops
  obtain ⟨hcode, hplen⟩ := prefix_matchRow hr x len
  rw [exec_matchRow hr hx, hcode, hplen]
  exact matchToken_done hlen hdist hidx hfits

/-- Settles O22. -/
theorem matchesThatDoNotFitFail : Obligations.MatchesThatDoNotFitFail := by
  refine ⟨fun i d len hops hdist s hlen => ?_, fun e x len hdist s hlen => matchToken_fails hdist hlen⟩
  obtain ⟨r, hr, x, hx, rfl, rfl⟩ := matchRow_of_operands hops
  rw [exec_matchRow hr hx]
  exact matchToken_fails hdist hlen

/-! ### Unencoded runs -/

/-- The BitReader after the raw bytes of a run (rules R125, R126). -/
def State.passRun (s : State) (n : Nat) : State :=
  { s.realign with byteCur := s.byteCur + n, bitsRem := s.realign.bitsRem - 8 * n }

theorem worked_passRun (s : State) (n : Nat) : Worked s (s.passRun n) := rfl

/-- A run that fits output, slice and budget finds its bytes (rule R233). -/
theorem runToken_ok {e : Token} {n : Nat} {s : State} (hlen : s.inLen = s.inBytes.length)
    (hroom : n ≤ outCap - s.outCnt) (hslice : n ≤ s.inLen - s.byteCur) (hbudget : 8 * n ≤ s.realign.bitsRem) :
    runToken e n s =
      .next (((s.runOperands e n).passRun n).append ((s.inBytes.drop s.byteCur).take n)).loopTest := by
  have hread : readInput s.byteCur n (s.runOperands e n).realign =
      .ok ((s.inBytes.drop s.byteCur).take n) (s.runOperands e n).realign := readInput_of_le (hlen ▸ hslice)
  rcases copyRun_cases n (s.runOperands e n) with ⟨hfull, _⟩ | ⟨_, hshort, _⟩ | ⟨_, _, _, ⟨bytes, hb, _, h⟩ | ⟨f, hf, _⟩⟩
  · exact absurd hfull (Nat.not_lt.mpr hroom)
  · exact absurd hshort (not_or.mpr ⟨Nat.not_lt.mpr hslice, Nat.not_lt.mpr hbudget⟩)
  · cases hread.symm.trans hb
    exact h
  · cases hread.symm.trans hf

/-- A run that fits copies the bytes at the next byte boundary (rule R233). -/
theorem runToken_done {e : Token} {n : Nat} {s : State} (hidx : s.histIdx < s.cfg.histCap)
    (hlen : s.inLen = s.inBytes.length) (hroom : n ≤ outCap - s.outCnt) (hslice : n ≤ s.inLen - s.byteCur)
    (hbudget : 8 * n ≤ s.bitsRem - min s.accCnt s.bitsRem) :
    ∃ t, runToken e n s = .next t ∧ RunDone n e.prefixCode e.prefixLen s t := by
  have hwork : Worked s ((s.runOperands e n).passRun n) := rfl
  have hemitted := hwork.emitted (bs := (s.inBytes.drop s.byteCur).take n) fun _ => hidx
  refine ⟨_, runToken_ok hlen hroom hslice hbudget, ?_⟩
  rw [State.append_eq] at hemitted ⊢
  exact {
    emitted := hemitted
    inBytes := rfl, inLen := rfl, byteCur := rfl, acc := rfl, accCnt := rfl, bitsRem := rfl
    state := State.loopTest_state_eq _
    err := rfl
    header := ⟨rfl, rfl⟩
    host := ⟨rfl, rfl, rfl, rfl, rfl, rfl, rfl, rfl, rfl, rfl, rfl, rfl, rfl, rfl⟩
    walked := ⟨rfl, rfl, rfl⟩
    dist := rfl, len := rfl, extra := rfl, count := rfl }

theorem prefix_unenc (count : BitVec 15) :
    prefixOf (.unenc count) = (matchEntry 0).prefixCode ∧ prefixLength (.unenc count) = (matchEntry 0).prefixLen :=
  ⟨rfl, rfl⟩

/-- Settles O23. -/
theorem unencodedRunsCopyRawBytes : Obligations.UnencodedRunsCopyRawBytes := by
  refine ⟨fun count s hidx hlen hroom hslice hbudget => ?_,
    fun e count s hidx hlen hroom hslice hbudget => runToken_done hidx hlen hroom hslice hbudget⟩
  obtain ⟨hcode, hplen⟩ := prefix_unenc count
  rw [hcode, hplen]
  exact runToken_done hidx hlen hroom hslice hbudget

/-- A run, by the row or by another entry, is the run token of an entry (rule R233). -/
theorem execForm_of_run {f : Form} {count : BitVec 15} (h : f = .row (.unenc count) ∨ ∃ e, f = .run e count) :
    ∃ e, ∀ s, execForm f s = runToken e count.toNat s := by
  rcases h with rfl | ⟨e, rfl⟩
  · exact ⟨matchEntry 0, fun _ => rfl⟩
  · exact ⟨e, fun _ => rfl⟩

/-- Settles O24: the checks of `copyRun` in their order. -/
theorem unencodedRunFailureOrder : Obligations.UnencodedRunFailureOrder := by
  intro f count hf s
  obtain ⟨e, he⟩ := execForm_of_run hf
  have hwork : Worked s (s.runOperands e count.toNat).realign := rfl
  have hreader (k : ErrKind) : SameReader s.realign ((s.runOperands e count.toNat).realign.enterFailed k) :=
    ⟨rfl, rfl, rfl, rfl, rfl, rfl⟩
  rw [he, runToken]
  rcases copyRun_cases count.toNat (s.runOperands e count.toNat) with ⟨hfull, h⟩ | ⟨hroom, hshort, h⟩ | ⟨hroom, hs, hb, _⟩
  · exact ⟨fun _ => ⟨_, h, hwork.failedWith _, hreader _⟩, fun hroom => absurd hfull (Nat.not_lt.mpr hroom)⟩
  · exact ⟨fun hfull => absurd hfull (Nat.not_lt.mpr hroom), fun _ _ => ⟨_, h, hwork.failedWith _, hreader _⟩⟩
  · exact ⟨fun hfull => absurd hfull (Nat.not_lt.mpr hroom), fun _ hshort =>
      absurd hshort (not_or.mpr ⟨Nat.not_lt.mpr hs, Nat.not_lt.mpr hb⟩)⟩

/-! ### Unmatched prefixes -/

theorem unmatchedToken_fails (t : TableSel) (p n : Nat) (s : State) :
    ∃ u, unmatchedToken t p n s = .next u ∧ FailedWith .unmatchedCode s u ∧ SameReader s u ∧ HoldsPrefix t p n u ∧
      SameOperands s u :=
  ⟨_, unmatchedToken_eq t p n s, (worked_walkedOff s t p n).failedWith _, ⟨rfl, rfl, rfl, rfl, rfl, rfl⟩,
    ⟨rfl, rfl, rfl⟩, ⟨rfl, rfl, rfl, rfl⟩⟩

/-- Settles O25: the row's nine bits are the prefix that the walk has read. -/
theorem unmatchedPrefixesRaiseUnmatchedCode : Obligations.UnmatchedPrefixesRaiseUnmatchedCode := by
  refine ⟨fun i s hi => ?_, fun t p n s => unmatchedToken_fails t p n s⟩
  rcases hi with ⟨rest, rfl⟩ | rfl
  · rw [bitsToNat_encode_illegal10000]
    exact unmatchedToken_fails _ _ _ s
  · exact unmatchedToken_fails _ _ _ s

end Sys2Proof.Machine

/-! PROOFS. Segments (rules R220 to R223), each from its start on. -/

namespace Sys2Proof.Machine

/-- The core at the start of a segment with control byte `c`: the segment is taken, `OUT_CNT` and `ERR` are reset, the
byte is latched (rules R220 to R223). -/
def State.started (s : State) (c : Byte) : State := { s with presented := none, outCnt := 0, err := none, ctrl := c }

/-! ### Raw segments -/

/-- `SEG_RAW` on an idle core (rule R222). -/
theorem exec_segRaw {s : State} {ctrl c : Byte} {body : List Byte} (hbusy : s.busy = false)
    (hseg : s.presented = some (c :: body)) (hlen : body.length + 1 < 2 ^ 32) :
    exec (.segRaw ctrl) s =
      if body.length ≤ outCap then .next { (s.started ctrl).append body with state := .done }
      else .next ((s.started ctrl).enterFailed .outputCapacityExceeded) := by
  have hstart := startSegment_of_presented hbusy hseg (List.cons_ne_nil c body) hlen
  rcases rawSegment_cases ctrl s with ⟨e, t, he, _⟩ | ⟨seg, t, ht, ⟨hfull, h⟩ | ⟨hfits, h⟩⟩
  · cases hstart.symm.trans he
  · cases hstart.symm.trans ht
    rw [if_neg (show ¬body.length ≤ outCap from Nat.not_le.mpr hfull)]
    exact h
  · cases hstart.symm.trans ht
    rw [if_pos (show body.length ≤ outCap from hfits)]
    exact h

theorem started_append_emitted {s : State} (c : Byte) {body : List Byte} (hidx : s.histIdx < s.cfg.histCap) :
    Emitted body { s with outCnt := 0 } { (s.started c).append body with state := .done } := by
  obtain ⟨hcnt, hi, hnew, hold, hhist, hhold⟩ : Emitted body (s.started c) ((s.started c).append body) :=
    State.append_emitted fun _ => hidx
  exact ⟨hcnt, hi, hnew, hold, hhist, hhold⟩

/-- Settles O27. -/
theorem rawSegmentsCopyTheirBody : Obligations.RawSegmentsCopyTheirBody := by
  intro s ctrl body hidx hbusy hseg hfits
  have hlen : body.length + 1 < 2 ^ 32 := by simp only [outCap] at hfits; omega
  have hemitted := started_append_emitted (s := s) ctrl (body := body) hidx
  rw [exec_segRaw hbusy hseg hlen, if_pos hfits]
  refine ⟨_, rfl, hemitted, rfl, ?_⟩
  rw [State.append_eq]
  exact ⟨rfl, rfl, rfl, ⟨rfl, rfl, rfl, rfl, rfl, rfl⟩, ⟨rfl, rfl, rfl, rfl, rfl, rfl, rfl⟩,
    ⟨rfl, rfl, rfl, rfl, rfl, rfl, rfl, rfl, rfl, rfl, rfl, rfl, rfl, rfl⟩⟩

/-- Settles O28. -/
theorem rawSegmentsTooLongFail : Obligations.RawSegmentsTooLongFail := by
  intro s ctrl body hbusy hseg hlong hlen
  rw [exec_segRaw hbusy hseg hlen, if_neg (Nat.not_le.mpr hlong)]
  exact ⟨_, rfl, failedWith_enterFailed { s with presented := none, outCnt := 0, ctrl := ctrl } none _,
    ⟨rfl, rfl, rfl, rfl, rfl, rfl⟩, ⟨rfl, rfl, rfl, rfl, rfl, rfl, rfl⟩⟩

/-! ### Compressed segments -/

/-- `SEG_COMP` on an idle core runs the header checks (rule R223). -/
theorem exec_segComp {s : State} {ctrl c : Byte} {body : List Byte} (hbusy : s.busy = false)
    (hseg : s.presented = some (c :: body)) (hlen : body.length + 1 < 2 ^ 32) :
    exec (.segComp ctrl) s =
      outcomeOf ((openBitstream (c :: body) (s.started ctrl)).bind fun _ s => .ok () s.loopTest) := by
  have hstart := startSegment_of_presented hbusy hseg (List.cons_ne_nil c body) hlen
  change outcomeOf ((startSegment s).bind _) = _
  rw [hstart]
  rfl

/-- The core after the header of a compressed segment with these bitstream bytes and this pad indicator (rule R223). -/
def State.opened (s : State) (ctrl pad : Byte) (bytes : List Byte) : State :=
  (State.initReader { s.started ctrl with pad := pad } bytes (8 * bytes.length - pad.toNat)).loopTest

/-- `SEG_COMP` with a legal header sets up the BitReader (rules R95, R223, R224). -/
theorem exec_segComp_opened {s : State} {ctrl c pad : Byte} {bytes : List Byte} (hbusy : s.busy = false)
    (hseg : s.presented = some (c :: (bytes ++ [pad]))) (hlen : bytes.length + 2 < 2 ^ 32) (hpad : pad.toNat ≤ 7)
    (hfits : pad.toNat ≤ 8 * bytes.length) : exec (.segComp ctrl) s = .next (s.opened ctrl pad bytes) := by
  have hlast : (c :: (bytes ++ [pad])).getLastD 0 = pad := by
    rw [← List.cons_append, List.getLastD_eq_getLast?, List.getLast?_concat, Option.getD_some]
  have hcount : (c :: (bytes ++ [pad])).length - 2 = bytes.length := by simp
  have hbytes : bitstreamBytes (c :: (bytes ++ [pad])) = bytes := by
    rw [bitstreamBytes, hcount, List.drop_one, List.tail_cons, List.take_left]
  rw [exec_segComp hbusy hseg (by simp; omega)]
  rcases openBitstream_cases (c :: (bytes ++ [pad])) (s.started ctrl) with ⟨hshort, _⟩ | ⟨_, hbad, _⟩ | ⟨_, _, _, e⟩
  · simp at hshort
  · rw [hlast, hcount] at hbad
    omega
  · rw [e, hlast, hbytes, bitBudget, hcount]
    rfl

/-- Settles O29. -/
theorem compressedSegmentsOpenTheBitstream : Obligations.CompressedSegmentsOpenTheBitstream := by
  intro s c ctrl pad bytes hbusy hseg hlen hpad hfits
  exact ⟨_, exec_segComp_opened hbusy hseg hlen hpad hfits, rfl, rfl, rfl, rfl, rfl, rfl, rfl, State.loopTest_state_eq _,
    rfl, rfl, rfl, rfl, ⟨rfl, rfl, fun _ => rfl, fun _ => rfl⟩, ⟨rfl, rfl, rfl, rfl, rfl, rfl, rfl⟩,
    ⟨rfl, rfl, rfl, rfl, rfl, rfl, rfl, rfl, rfl, rfl, rfl, rfl, rfl, rfl⟩⟩

/-- A compressed segment with no pad indicator (rule R223, decision D17). -/
theorem step_of_presented_control {s : State} {ctrl : Byte} (hbusy : s.busy = false) (hseg : s.presented = some [ctrl])
    (hc : compressed ctrl = true) : step s = .next ((s.started ctrl).enterFailed .bitstreamExhausted) := by
  rw [step_of_compressed hbusy hseg hc, exec_segComp hbusy hseg (by decide)]
  rfl

/-- Settles O31. -/
theorem segmentsCutShortFail : Obligations.SegmentsCutShortFail := by
  refine ⟨fun s hbusy hseg => ?_, fun s ctrl hbusy hseg hc => ?_⟩
  · exact ⟨_, step_of_presented_nil hbusy hseg, failedWith_enterFailed { s with presented := none, outCnt := 0 } none _,
      ⟨rfl, rfl, rfl, rfl, rfl, rfl⟩, ⟨rfl, rfl, rfl, rfl, rfl, rfl, rfl⟩⟩
  · exact ⟨_, step_of_presented_control hbusy hseg hc,
      failedWith_enterFailed { s with presented := none, outCnt := 0, ctrl := ctrl } none _,
      ⟨rfl, rfl, rfl, rfl, rfl, rfl⟩, ⟨rfl, rfl, rfl, rfl, rfl, rfl, rfl⟩⟩

/-! ### Refusals -/

theorem startSegment_busy {s : State} (h : s.busy = true) : startSegment s = .stop (.refuse .startWhileBusy) s := by
  rw [startSegment, if_pos h]

theorem startSegment_tooLong {s : State} {seg : List Byte} (hbusy : s.busy = false) (hseg : s.presented = some seg)
    (hlong : 2 ^ 32 ≤ seg.length) : startSegment s = .stop (.refuse .segmentTooLong) s := by
  have hget : s.presented.getD [] = seg := by rw [hseg, Option.getD_some]
  rw [startSegment, hbusy, hget, if_neg (by decide), if_pos hlong]

/-- A segment form whose start is refused is refused (rule R313). -/
theorem exec_segment_refused {s : State} {r : Refusal} (h : startSegment s = .stop (.refuse r) s) (ctrl : Byte) :
    exec (.segRaw ctrl) s = .refused r ∧ exec (.segComp ctrl) s = .refused r := by
  constructor
  · change outcomeOf ((startSegment s).bind _) = _
    rw [h]
    rfl
  · change outcomeOf ((startSegment s).bind _) = _
    rw [h]
    rfl

theorem getBits_tooWide {n : Nat} (h : nMax < n) (s : State) : getBits n s = .stop (.refuse (.getBitsTooWide n)) s := by
  rw [getBits, if_pos h]

/-- No step begins inside a token (rule R5, assumption 11). -/
theorem step_insideToken {s : State} (hbusy : s.busy = true) (hstate : s.state ≠ .readSelector) :
    step s = .refused .insideToken := by
  refine step_of_fetch_done ?_
  unfold fetch
  unfold State.busy at hbusy
  cases hs : s.state with
  | readSelector => exact absurd hs hstate
  | done => rw [hs] at hbusy; cases hbusy
  | failed => rw [hs] at hbusy; cases hbusy
  | literal | matchOrLiteral | decodeToken | matchBody | unencoded => rfl

/-- Settles O32. -/
theorem requestsWithoutMeaningAreRefused : Obligations.RequestsWithoutMeaningAreRefused := by
  refine ⟨fun s ctrl hbusy => ?busy, fun s ctrl seg hbusy hseg hlong => ?long, fun s n h => getBits_tooWide h s,
    fun _ _ => rfl, fun s hstate hlegal => ?tables, fun s => step_insideToken⟩
  case busy =>
    obtain ⟨hraw, hcomp⟩ := exec_segment_refused (startSegment_busy hbusy) ctrl
    exact ⟨hraw, hcomp, if_pos hbusy, if_pos hbusy, if_pos hbusy⟩
  case long => exact exec_segment_refused (startSegment_tooLong hbusy hseg hlong) ctrl
  case tables =>
    rcases step_token_cases hstate with ⟨_, e⟩ | ⟨h, _⟩
    · exact e
    · rw [hlegal] at h
      cases h

end Sys2Proof.Machine

/-! PROOFS. The host (rules R260 to R270, R310 to R314): what its next act is, and what each act leaves. -/

namespace Sys2Proof.Machine

/-! ### What an idle machine does next -/

/-- With nothing presented the host's phase says what it does (rules R263 to R266). -/
theorem step_host {s : State} (hbusy : s.busy = false) (hnone : s.presented = none) :
    step s =
      match s.phase with
      | .idle => (fetchCommand s).outcome
      | .single => collectSingle s
      | .multiNext => (fetchLoop s).outcome
      | .multiWait => collectMulti s := by
  rw [step_eq_fetch_outcome, fetch_idle hbusy, fetchHost, hnone]
  cases s.phase <;> rfl

theorem step_single {s : State} (hbusy : s.busy = false) (hnone : s.presented = none) (hphase : s.phase = .single) :
    step s = collectSingle s := by
  rw [step_host hbusy hnone, hphase]

theorem step_multiWait {s : State} (hbusy : s.busy = false) (hnone : s.presented = none) (hphase : s.phase = .multiWait) :
    step s = collectMulti s := by
  rw [step_host hbusy hnone, hphase]

theorem step_command {s : State} (hbusy : s.busy = false) (hnone : s.presented = none) (hphase : s.phase = .idle) :
    step s = (fetchCommand s).outcome := by
  rw [step_host hbusy hnone, hphase]

/-- The head of the multipart loop where no session reset is due (rule R265). -/
theorem step_multiNext {s : State} (hbusy : s.busy = false) (hnone : s.presented = none) (hphase : s.phase = .multiNext)
    (hdue : ¬s.resetDue) : step s = .next s.nextSegment := by
  rw [step_host hbusy hnone, hphase]
  rcases fetchLoop_cases s with ⟨rest, hcalls, _⟩ | ⟨_, h⟩
  · exact absurd ⟨hbusy, hnone, .inr ⟨hphase, rest, hcalls⟩⟩ hdue
  · simp only [h, Fetched.outcome]

theorem step_decompress {s : State} {input : List Byte} {offset : Nat} {rest : List Command} (hbusy : s.busy = false)
    (hnone : s.presented = none) (hphase : s.phase = .idle) (hcalls : s.calls = .decompress input offset :: rest) :
    step s = (fetchFrame (State.enterCall { s with calls := rest } input offset)).outcome := by
  rw [step_command hbusy hnone hphase, fetchCommand, hcalls]

/-- A call whose descriptor is a frame's runs the frame form (rule R261). -/
theorem step_frame {s : State} {input : List Byte} {offset : Nat} {rest : List Command} {d : Byte} {i : Instr}
    (hbusy : s.busy = false) (hnone : s.presented = none) (hphase : s.phase = .idle)
    (hcalls : s.calls = .decompress input offset :: rest) (hd : input[offset]? = some d) (hi : decodeFrame d = some i) :
    step s = exec i { s with calls := rest, input := input, offset := offset, ret := none } := by
  rw [step_decompress hbusy hnone hphase hcalls, fetchFrame]
  simp only [State.enterCall, hd, hi]
  rfl

/-- Settles O4. -/
theorem stepRunsTheFetchedInstruction : Obligations.StepRunsTheFetchedInstruction :=
  ⟨fun _ _ _ hstate hlegal h => step_of_fetch_ok hstate hlegal h, fun _ _ _ hstate hlegal h => step_of_fetch_ok hstate hlegal h,
    fun _ _ _ hbusy hseg => step_of_presented hbusy hseg,
    fun _ _ _ _ _ _ hbusy hnone hphase hcalls hd hi => step_frame hbusy hnone hphase hcalls hd hi⟩

/-- Settles O39. -/
theorem hostCommandsAreTakenInOrder : Obligations.HostCommandsAreTakenInOrder := by
  intro s hbusy hnone hphase
  rw [step_command hbusy hnone hphase, fetchCommand]
  refine ⟨fun h => ?_, fun seg rest h => ?_⟩
  · rw [h]; rfl
  · rw [h]; rfl

/-- Settles O38: the descriptor byte is looked up in the whole input. -/
theorem unrecognisedInputIsPassedThrough : Obligations.UnrecognisedInputIsPassedThrough := by
  intro s input offset rest hbusy hnone hphase hcalls
  have hidle : State.enterCall { s with calls := rest } input offset =
      { s with calls := rest, input := input, offset := offset, ret := none, phase := .idle } := by
    rw [State.enterCall, ← hphase]
  rw [step_decompress hbusy hnone hphase hcalls, fetchFrame]
  simp only [State.enterCall]
  refine ⟨fun d hd h0 h1 => ?_, fun hend => ?_⟩
  · have hno : decodeFrame d = none := by rw [decodeFrame, if_neg h0, if_neg h1]
    simp only [hd, hno, Fetched.outcome, State.hostReturn, ← hphase]
  · simp only [List.getElem?_eq_none hend, Fetched.outcome, State.hostRaise, State.hostReturn, ← hphase]

/-! ### Frames -/

theorem drop_length_succ (before : List Byte) (d : Byte) (rest : List Byte) :
    (before ++ d :: rest).drop (before.length + 1) = rest := by
  rw [← List.drop_drop, List.drop_left]
  rfl

theorem exec_frameSingle {s : State} (hbusy : s.busy = false) :
    exec .frameSingle s =
      .next { s with presented := some (s.input.drop (s.offset + 1)), phase := .single, ret := none } :=
  if_neg (by rw [hbusy]; decide)

/-- Settles O33. -/
theorem singleFramesPresentTheRest : Obligations.SingleFramesPresentTheRest := by
  intro s before rest d hbusy hinput hoffset
  rw [exec_frameSingle hbusy, hinput, hoffset, drop_length_succ, ← hinput, ← hoffset]

/-- A little-endian number of two bytes. -/
theorem leNat_two (a b : Byte) : leNat [a, b] = a.toNat + 256 * b.toNat := by simp [leNat]

/-- A little-endian number of four bytes. -/
theorem leNat_four (a b c d : Byte) :
    leNat [a, b, c, d] = a.toNat + 2 ^ 8 * b.toNat + 2 ^ 16 * c.toNat + 2 ^ 24 * d.toNat := by
  simp only [leNat]
  omega

theorem exec_frameMulti {s : State} (hbusy : s.busy = false) :
    exec .frameMulti s =
      if s.input.length < s.offset + 7 then .next (s.hostRaise .bitstreamExhausted)
      else .next (s.openFrame (s.offset + 1)) :=
  if_neg (by rw [hbusy]; decide)

/-- Settles O34. -/
theorem multipartFramesReadTheirHeader : Obligations.MultipartFramesReadTheirHeader := by
  refine ⟨fun s hbusy hshort => ?_, fun s before rest d c0 c1 u0 u1 u2 u3 hbusy hinput hoffset => ?_⟩
  · rw [exec_frameMulti hbusy, if_pos hshort]
    rfl
  · have hdrop : s.input.drop (s.offset + 1) = c0 :: c1 :: u0 :: u1 :: u2 :: u3 :: rest := by
      rw [hinput, hoffset, drop_length_succ]
    have hlen := congrArg List.length hdrop
    simp only [List.length_drop, List.length_cons] at hlen
    have hcount : inputField s.input (s.offset + 1) 2 = c0.toNat + 256 * c1.toNat := by
      rw [inputField, hdrop]
      exact leNat_two c0 c1
    have hsize : inputField s.input (s.offset + 1 + 2) 4 =
        u0.toNat + 2 ^ 8 * u1.toNat + 2 ^ 16 * u2.toNat + 2 ^ 24 * u3.toNat := by
      rw [inputField, ← List.drop_drop, hdrop]
      exact leNat_four u0 u1 u2 u3
    rw [exec_frameMulti hbusy, if_neg (by omega), State.openFrame, hcount, hsize]

/-- Settles O35: the size field is the next four bytes, and what follows them is enough or not. -/
theorem multipartLoopPresentsEachSegment : Obligations.MultipartLoopPresentsEachSegment := by
  intro s hbusy hnone hphase hdue hleft
  rw [step_multiNext hbusy hnone hphase hdue]
  refine ⟨fun hshort => ?_, fun z0 z1 z2 z3 rest size hdrop hsize => ?_⟩
  · rw [State.nextSegment, if_pos hleft, if_pos hshort]
    rfl
  · have hlen := congrArg List.length hdrop
    simp only [List.length_drop, List.length_cons] at hlen
    have hfield : inputField s.input s.cursor 4 = size := by
      rw [inputField, hdrop, hsize]
      exact leNat_four z0 z1 z2 z3
    have hrest : s.input.drop (s.cursor + 4) = rest := by rw [← List.drop_drop, hdrop]; rfl
    rw [State.nextSegment, if_pos hleft, if_neg (by omega), hfield]
    dsimp only
    refine ⟨fun hshort => ?_, fun hfits => ?_⟩
    · rw [if_pos (by omega)]
      rfl
    · rw [if_neg (by omega), hrest]

/-- Settles O37. -/
theorem multipartFramesEndByTheirTotal : Obligations.MultipartFramesEndByTheirTotal := by
  intro s hbusy hnone hphase hdue hend
  rw [step_multiNext hbusy hnone hphase hdue, State.nextSegment, if_neg (by omega)]
  rcases closeFrame_cases s with ⟨h, hwhy⟩ | ⟨h, hne, hfail⟩
  · rw [h]
    refine ⟨fun _ => rfl, fun _ _ => rfl, fun hne hfail => ?_⟩
    rcases hwhy with htotal | hshort
    · exact absurd htotal hne
    · cases hfail.symm.trans hshort
  · rw [h]
    refine ⟨fun htotal => absurd htotal hne, fun _ hshort => ?_, fun _ _ => rfl⟩
    cases hfail.symm.trans hshort

/-! ### The bytes the host reads (rule R62) -/

theorem mapM_eq_some_map {α β : Type} {f : α → Option β} {g : α → β} {l : List α} (h : ∀ x ∈ l, f x = some (g x)) :
    l.mapM f = some (l.map g) := by
  induction l with
  | nil => rfl
  | cons x xs ih =>
    rw [List.mapM_cons, h x List.mem_cons_self, ih fun y hy => h y (List.mem_cons_of_mem x hy)]
    rfl

/-- The bytes of a memory from `a` on, where all of them are listed. -/
def Memory.bytesFrom (m : Memory) (a n : Nat) : List Byte := (List.range n).map fun i => (m.get? (a + i)).getD 0

@[simp] theorem Memory.bytesFrom_length (m : Memory) (a n : Nat) : (m.bytesFrom a n).length = n := by
  simp [Memory.bytesFrom]

/-- Addresses that all hold a byte read as the list of these bytes. -/
theorem Memory.readList_of_filled {m : Memory} {a n : Nat} (h : ∀ i, i < n → (m.get? (a + i)).isSome = true) :
    m.readList a n = some (m.bytesFrom a n) ∧ ∀ i, i < n → (m.bytesFrom a n)[i]? = m.get? (a + i) := by
  have hget (i : Nat) (hi : i < n) : m.get? (a + i) = some ((m.get? (a + i)).getD 0) := by
    obtain ⟨b, hb⟩ := Option.isSome_iff_exists.mp (h i hi)
    rw [hb, Option.getD_some]
  refine ⟨mapM_eq_some_map fun i hi => hget i (List.mem_range.mp hi), fun i hi => ?_⟩
  rw [Memory.bytesFrom, List.getElem?_map, List.getElem?_range hi, Option.map_some, ← hget i hi]

/-- The output of a sound core reads whole (rules R35 (b), R62). -/
theorem State.OutInv.outBytes_eq {s : State} (h : s.OutInv) : s.outBytes = .ok (s.out.bytesFrom 0 s.outCnt) := by
  have hread := (Memory.readList_of_filled (m := s.out) (a := 0) (n := s.outCnt) fun i hi => by
    rw [Nat.zero_add]
    exact h.filled i hi).1
  rw [State.outBytes, hread]

theorem State.OutInv.bytesFrom_getElem? {s : State} (h : s.OutInv) {i : Nat} (hi : i < s.outCnt) :
    (s.out.bytesFrom 0 s.outCnt)[i]? = s.out.get? i := by
  have hread := (Memory.readList_of_filled (m := s.out) (a := 0) (n := s.outCnt) fun i hi => by
    rw [Nat.zero_add]
    exact h.filled i hi).2 i hi
  rwa [Nat.zero_add] at hread

/-- Settles O36: a sound output reads whole, so what is left is the case analysis of rules R263 and R265. -/
theorem segmentResultsAreCollected : Obligations.SegmentResultsAreCollected := by
  intro s hbusy hnone hout
  have hbytes := hout.outBytes_eq
  refine ⟨_, s.out.bytesFrom_length 0 s.outCnt, fun i hi => hout.bytesFrom_getElem? hi, fun hphase => ?single,
    fun hphase => ?multi⟩
  case single =>
    rw [step_single hbusy hnone hphase]
    rcases collectSingle_cases s with ⟨hf, e⟩ | ⟨hf, bytes, hb, e⟩ | ⟨_, f, hb, _⟩
    · exact ⟨fun _ => e, fun hd => by cases hf.symm.trans hd⟩
    · cases hbytes.symm.trans hb
      exact ⟨fun h => absurd h hf, fun _ => e⟩
    · cases hbytes.symm.trans hb
  case multi =>
    rw [step_multiWait hbusy hnone hphase]
    rcases collectMulti_cases s with ⟨hf, e⟩ | ⟨hf, hlong, e⟩ | ⟨hf, hfits, bytes, hb, e⟩ | ⟨_, _, f, hb, _⟩
    · exact ⟨fun _ => e, fun hd => (by cases hf.symm.trans hd), fun hd => by cases hf.symm.trans hd⟩
    · exact ⟨fun h => absurd h hf, fun _ _ => e, fun _ h => absurd hlong (Nat.not_lt.mpr h)⟩
    · cases hbytes.symm.trans hb
      exact ⟨fun h => absurd h hf, fun _ h => absurd h (Nat.not_lt.mpr hfits), fun _ _ => e⟩
    · cases hbytes.symm.trans hb

/-! ### Session resets -/

/-- Where a session reset is due the step is the reset, after the command is taken (rules R310, R314). -/
theorem step_of_resetDue {s : State} (h : s.resetDue) :
    step s = .next (State.resetContext { s with calls := s.calls.tail }) := by
  obtain ⟨hbusy, hnone, hwhere⟩ := h
  have hreset : sessionReset { s with calls := s.calls.tail } =
      .next (State.resetContext { s with calls := s.calls.tail }) := by
    rcases sessionReset_cases { s with calls := s.calls.tail } with ⟨hb, _⟩ | ⟨_, e⟩
    · cases hb.symm.trans hbusy
    · exact e
  rw [step_host hbusy hnone, ← hreset]
  rcases hwhere with ⟨hphase, rest, hcalls | ⟨n, hcalls⟩⟩ | ⟨hphase, rest, hcalls⟩
  · simp only [hphase, fetchCommand, hcalls, Fetched.outcome, List.tail_cons]
  · simp only [hphase, fetchCommand, hcalls, Fetched.outcome, List.tail_cons]
  · simp only [hphase, fetchLoop, hcalls, if_pos, Fetched.outcome, List.tail_cons]

theorem resetContext_histByte (s : State) (a : Nat) :
    s.resetContext.histByte a = initByte s.cfg.histInit (a % s.cfg.histCap) := rfl

/-- Settles O40. -/
theorem sessionResetsRenewTheContext : Obligations.SessionResetsRenewTheContext := fun _ h =>
  ⟨_, step_of_resetDue h, ⟨rfl, rfl, rfl, rfl, rfl, rfl, rfl, rfl, rfl, rfl, rfl, rfl, rfl, rfl⟩,
    fun a => resetContext_histByte _ a, rfl, rfl, rfl, rfl⟩

end Sys2Proof.Machine

/-! PROOFS. What a step can do, said once (rules R220 to R233, R260 to R266, R287, R310): a token, the start of a
segment, a session reset, or an act of the host. -/

namespace Sys2Proof.Machine

/-! ### Tokens -/

/-- What a step at a token boundary can end in: some work in the registers, and then either a failure, or bytes emitted
and the loop test (rules R224, R287). -/
inductive TokenStep (s : State) : State → Prop
  | failed {u : State} (hwork : Worked s u) (k : ErrKind) : TokenStep s (u.enterFailed k)
  | completed {u : State} (hwork : Worked s u) (bytes : List Byte) (hroom : bytes.length ≤ outCap - s.outCnt) :
      TokenStep s (u.append bytes).loopTest

/-- A fault or refusal, or a next state of a token step. -/
def TokenOutcome (s : State) (o : Outcome) : Prop := ∀ t, o = .next t → TokenStep s t

theorem tokenOutcome_stop {s u : State} (hwork : Worked s u) (e : Stop) : TokenOutcome s (stopOutcome e u) := by
  intro t ht
  cases e with
  | raise k => cases ht; exact .failed hwork k
  | fault f => cases ht
  | refuse r => cases ht

theorem tokenOutcome_emit {s u : State} (hwork : Worked s u) (bytes : List Byte) :
    TokenOutcome s (outcomeOf (emitAndLoop bytes u)) := by
  have hcnt : u.outCnt = s.outCnt := by rw [hwork]
  intro t ht
  rcases emitAndLoop_cases bytes u with ⟨_, e⟩ | ⟨hroom, e⟩
  · cases e.symm.trans ht
    exact .failed hwork _
  · cases e.symm.trans ht
    exact .completed hwork bytes (hcnt ▸ hroom)

theorem TokenMeaning.tokenOutcome {s u : State} {o : Outcome} (hwork : Worked s u) (h : TokenMeaning u o) :
    TokenOutcome s o := by
  have hcnt : u.outCnt = s.outCnt := by rw [hwork]
  cases h with
  | lit8 v => exact tokenOutcome_emit (hwork.trans (v := { u with state := .literal }) rfl) [v]
  | literal e => exact tokenOutcome_emit (hwork.trans (worked_walked u .literalTable e)) _
  | copy e x len =>
    have hwork' := hwork.trans (worked_matchOperands u e x len)
    intro t ht
    rcases matchToken_cases e x len u with ⟨_, h⟩ | ⟨_, _, h⟩ | ⟨_, _, hroom, h⟩
    · cases h.symm.trans ht
    · cases h.symm.trans ht
      exact .failed hwork' _
    · cases h.symm.trans ht
      exact .completed hwork' _ (by rw [matchBytes_length, ← hcnt]; exact hroom)
  | run e n =>
    have hwork' := hwork.trans (worked_runOperands u e n)
    intro t ht
    rcases copyRun_cases n (u.runOperands e n) with ⟨_, h⟩ | ⟨_, _, h⟩ | ⟨hroom, _, _, ⟨bytes, _, hlen, h⟩ | ⟨f, _, h⟩⟩
    · cases h.symm.trans ht
      exact .failed (hwork'.trans (worked_realign _)) _
    · cases h.symm.trans ht
      exact .failed (hwork'.trans (worked_realign _)) _
    · cases h.symm.trans ht
      exact .completed (hwork'.trans (worked_passRun _ n)) bytes (by rw [hlen, ← hcnt]; exact hroom)
    · cases h.symm.trans ht
  | unmatched t p n => exact tokenOutcome_stop (hwork.trans (worked_walkedOff u t p n)) (.raise .unmatchedCode)

theorem refill_keeps_worked {s : State} (n fuel : Nat) {u : State} (h : Worked s u) :
    Res.Keeps (Worked s) (refill n fuel u) := by
  induction fuel generalizing u with
  | zero => exact h
  | succ fuel ih =>
    rw [refill]
    split
    · cases u.inBytes[u.byteCur]? with
      | some b => exact ih (h.trans (v := u.pushByte b) rfl)
      | none => exact h
    · exact h

/-- `get_bits` works in the BitReader only, whether it fails or not (rules R121, R122, R130). -/
theorem getBits_keeps_worked {s : State} (n : Nat) {u : State} (h : Worked s u) :
    Res.Keeps (Worked s) (getBits n u) := by
  have hrefill := refill_keeps_worked n 3 h
  rcases getBits_cases n u with ⟨_, hg⟩ | ⟨_, _, hg⟩ | ⟨_, _, _, ⟨t, hr, hg⟩ | ⟨k, t, hr, hg⟩⟩
  · rw [hg]
    exact h
  · rw [hg]
    exact h
  · rw [hr] at hrefill
    rw [hg]
    exact Worked.trans hrefill rfl
  · rw [hr] at hrefill
    rw [hg]
    exact hrefill

theorem fetch_keeps_worked (s : State) : Res.Keeps (Worked s) (decodeTokenWith bitReader s.cfg s) :=
  decodeTokenWith_keeps (rd := bitReader) (fun n _ hu => getBits_keeps_worked n hu) s.cfg rfl

/-- What a step at a token boundary can do, sound or not. -/
theorem step_token_next {s t : State} (hstate : s.state = .readSelector) (h : step s = .next t) : TokenStep s t := by
  have hkeeps := fetch_keeps_worked s
  rcases step_token_cases hstate with ⟨_, e⟩ | ⟨_, ⟨f, u, hd, e⟩ | ⟨k, u, hd, e⟩⟩
  · cases e.symm.trans h
  · rw [hd] at hkeeps
    exact (execForm_tokenMeaning (decodeTokenWith_layer hd) u).tokenOutcome hkeeps t (e.symm.trans h)
  · rw [hd] at hkeeps
    exact tokenOutcome_stop hkeeps k t (e.symm.trans h)

theorem loopTest_ne_failed (s : State) : s.loopTest.state ≠ .failed := by
  rw [State.loopTest_state_eq, afterToken]
  split <;> decide

/-- Settles O53: a completed token is at a boundary or done, and a failing one has worked in its registers only. -/
theorem failingTokensWriteNoMemory : Obligations.FailingTokensWriteNoMemory := by
  intro s t hstate h hfailed
  cases step_token_next hstate h with
  | failed hwork k => exact ⟨k, hwork.failedWith k, by rw [hwork]; rfl, by rw [hwork]; rfl⟩
  | completed hwork bytes hroom => exact absurd hfailed (loopTest_ne_failed _)

/-! ### Segments -/

/-- `u` is `s` at the start of a segment, with whatever header bytes have been latched (rules R220, R223). -/
def Headed (s u : State) : Prop :=
  u = { s with presented := none, outCnt := 0, err := none, ctrl := u.ctrl, pad := u.pad }

/-- What the start of a presented segment can end in: a failure, a raw segment's body emitted, or a bitstream opened
(rules R220 to R224). -/
inductive SegmentStep (s : State) (seg : List Byte) : State → Prop
  | failed {u : State} (hhead : Headed s u) (k : ErrKind) : SegmentStep s seg (u.enterFailed k)
  | raw {u : State} {c : Byte} {body : List Byte} (hhead : Headed s u) (hseg : seg = c :: body)
      (hc : compressed c = false) (hfits : body.length ≤ outCap) :
      SegmentStep s seg { u.append body with state := .done }
  | opened {u : State} (hhead : Headed s u) (bytes : List Byte) (n : Nat) (hbytes : bytes.length < 2 ^ 32)
      (hn : n ≤ 8 * bytes.length) : SegmentStep s seg (u.initReader bytes n).loopTest

theorem headed_started (s : State) (c : Byte) : Headed s (s.started c) := rfl
theorem headed_pad (s : State) (c pad : Byte) : Headed s { s.started c with pad := pad } := rfl

/-- The header checks of a compressed segment end in a failure or in an open bitstream. -/
theorem segComp_segmentStep {s : State} {c : Byte} {body : List Byte} (hbusy : s.busy = false)
    (hseg : s.presented = some (c :: body)) (hlen : body.length + 1 < 2 ^ 32) :
    ∃ t, exec (.segComp c) s = .next t ∧ SegmentStep s (c :: body) t := by
  rw [exec_segComp hbusy hseg hlen]
  rcases openBitstream_cases (c :: body) (s.started c) with ⟨_, e⟩ | ⟨_, _, e⟩ | ⟨_, _, _, e⟩
  · rw [e]
    exact ⟨_, rfl, .failed (headed_started s c) _⟩
  · rw [e]
    exact ⟨_, rfl, .failed (headed_pad s c _) _⟩
  · rw [e]
    refine ⟨_, rfl, .opened (headed_pad s c _) _ _ ?_ ?_⟩
    · rw [bitstreamBytes_length, List.length_cons]
      omega
    · rw [bitstreamBytes_length, bitBudget]
      exact Nat.sub_le _ _

/-- A presented segment inside the operand range starts; a longer one is refused (rule R220, assumption 9). -/
theorem step_segment_cases {s : State} {seg : List Byte} (hbusy : s.busy = false) (hseg : s.presented = some seg) :
    (2 ^ 32 ≤ seg.length ∧ step s = .refused .segmentTooLong) ∨
      (seg.length < 2 ^ 32 ∧ ∃ t, step s = .next t ∧ SegmentStep s seg t) := by
  cases seg with
  | nil =>
    exact .inr ⟨by decide, _, step_of_presented_nil hbusy hseg,
      .failed (u := { s with presented := none, outCnt := 0, err := none }) rfl _⟩
  | cons c body =>
    rw [step_of_presented hbusy hseg]
    by_cases hlong : 2 ^ 32 ≤ (c :: body).length
    · obtain ⟨hraw, hcomp⟩ := exec_segment_refused (startSegment_tooLong hbusy hseg hlong) c
      refine .inl ⟨hlong, ?_⟩
      unfold decodeSegment
      split
      · exact hcomp
      · exact hraw
    · have hlen : body.length + 1 < 2 ^ 32 := Nat.not_le.mp hlong
      refine .inr ⟨hlen, ?_⟩
      cases hc : compressed c with
      | true =>
        rw [decodeSegment_of_compressed hc]
        exact segComp_segmentStep hbusy hseg hlen
      | false =>
        rw [decodeSegment_of_not_compressed hc, exec_segRaw hbusy hseg hlen]
        split
        · exact ⟨_, rfl, .raw (headed_started s c) rfl hc ‹_›⟩
        · exact ⟨_, rfl, .failed (headed_started s c) _⟩

/-! ### The host -/

/-- `t` is `s` but for the host's registers (rule R26). -/
def HostOnly (s t : State) : Prop :=
  t = { s with calls := t.calls, presented := t.presented, phase := t.phase, input := t.input, offset := t.offset,
               cursor := t.cursor, segmentCount := t.segmentCount, segIndex := t.segIndex,
               uncompressedSize := t.uncompressedSize, segmentSize := t.segmentSize, total := t.total,
               result := t.result, ret := t.ret }

theorem HostOnly.refl (s : State) : HostOnly s s := rfl

theorem HostOnly.trans {s u v : State} (h : HostOnly s u) (h' : HostOnly u v) : HostOnly s v := by
  unfold HostOnly at h h' ⊢
  rw [h', h]

/-- The widths of the host's registers (rules R26, R264, R265). -/
structure State.HostWidths (s : State) : Prop where
  segmentCount : s.segmentCount < 2 ^ 16
  uncompressedSize : s.uncompressedSize < 2 ^ 32
  segmentSize : s.segmentSize < 2 ^ 32
  total : s.total < 2 ^ 33

/-- What the host can do between segments where no session reset is due: nothing, present a bare segment, answer a call,
begin a single or a multipart frame, present the next segment of a multipart frame, or collect one (rules R260 to
R266). -/
inductive HostAct (s : State) : State → Prop
  | stay (hphase : s.phase = .idle) : HostAct s s
  | bare (hphase : s.phase = .idle) (seg : List Byte) (rest : List Command) :
      HostAct s { s with calls := rest, presented := some seg }
  | answer {u : State} (hhost : HostOnly s u) (hnone : u.presented = none) (hwidths : s.HostWidths → u.HostWidths)
      (r : CallResult) : HostAct s (u.hostReturn r)
  | single {u : State} (hphase : s.phase = .idle) (hhost : HostOnly s u) (hwidths : s.HostWidths → u.HostWidths)
      (seg : List Byte) : HostAct s { u with presented := some seg, phase := .single, ret := none }
  | multi {u : State} (hphase : s.phase = .idle) (hhost : HostOnly s u) (hnone : u.presented = none)
      (hwidths : s.HostWidths → u.HostWidths) (p : Nat) (hp : p + 6 ≤ u.input.length) : HostAct s (u.openFrame p)
  | next (hphase : s.phase = .multiNext) (hleft : s.segIndex < s.segmentCount)
      (hfits : s.cursor + 4 + inputField s.input s.cursor 4 ≤ s.input.length) :
      HostAct s { s with
        segmentSize := inputField s.input s.cursor 4, cursor := s.cursor + 4, phase := .multiWait,
        presented := some ((s.input.drop (s.cursor + 4)).take (inputField s.input s.cursor 4)) }
  | collected (hphase : s.phase = .multiWait) (hfits : s.total + s.outCnt ≤ s.uncompressedSize) (bytes : List Byte)
      (hbytes : s.outBytes = .ok bytes) :
      HostAct s { s with cursor := s.cursor + s.segmentSize, result := s.result ++ bytes,
                         total := s.total + s.outCnt, segIndex := s.segIndex + 1, phase := .multiNext }

theorem leNat_lt (bytes : List Byte) : leNat bytes < 2 ^ (8 * bytes.length) := by
  induction bytes with
  | nil => decide
  | cons b bs ih =>
    have hb := b.isLt
    rw [leNat, List.length_cons, Nat.mul_add, Nat.pow_add]
    omega

/-- A field of `n` bytes is a number of `8 * n` bits (rule R66). -/
theorem inputField_lt (input : List Byte) (p n : Nat) : inputField input p n < 2 ^ (8 * n) :=
  (leNat_lt _).trans_le (Nat.pow_le_pow_right (by decide)
    (Nat.mul_le_mul_left 8 (List.length_take_le n (input.drop p))))

/-- The acts of a host with no frame open, but for a session reset. -/
theorem fetchFrame_act {s u : State} (hphase : s.phase = .idle) (hhost : HostOnly s u) (hnone : u.presented = none)
    (hbusy : u.busy = false) (hwidths : s.HostWidths → u.HostWidths) :
    ∃ t, (fetchFrame u).outcome = .next t ∧ HostAct s t := by
  unfold fetchFrame
  cases u.input[u.offset]? with
  | none => exact ⟨_, rfl, .answer hhost hnone hwidths _⟩
  | some d =>
    dsimp only
    cases hd : decodeFrame d with
    | none => exact ⟨_, rfl, .answer hhost hnone hwidths _⟩
    | some i =>
      rcases decodeFrame_eq_some hd with rfl | rfl
      · exact ⟨_, exec_frameSingle hbusy, .single hphase hhost hwidths _⟩
      · simp only [Fetched.outcome, execForm_row, exec_frameMulti hbusy]
        split
        · exact ⟨_, rfl, .answer hhost hnone hwidths _⟩
        · exact ⟨_, rfl, .multi hphase hhost hnone hwidths _ (by omega)⟩

theorem nextSegment_act {s : State} (hnone : s.presented = none) (hphase : s.phase = .multiNext) :
    HostAct s s.nextSegment := by
  rcases nextSegment_cases s with ⟨hleft, ⟨_, e⟩ | ⟨_, _, e⟩ | ⟨hfits, e⟩⟩ | ⟨_, e⟩
  · rw [e]
    exact .answer (.refl s) hnone id _
  · rw [e]
    exact .answer (u := { s with segmentSize := inputField s.input s.cursor 4, cursor := s.cursor + 4 }) rfl hnone
      (fun h => ⟨h.segmentCount, h.uncompressedSize, inputField_lt _ _ _, h.total⟩) _
  · rw [e]
    exact .next hphase hleft hfits
  · rw [e]
    rcases closeFrame_cases s with ⟨e', _⟩ | ⟨e', _⟩
    · rw [e']
      exact .answer (.refl s) hnone id _
    · rw [e']
      exact .answer (.refl s) hnone id _

/-- What an idle machine with nothing presented does: a session reset, an act of the host, or a fault where the host
would read a byte of `OUT` that nothing has written. -/
theorem step_host_cases {s : State} (hbusy : s.busy = false) (hnone : s.presented = none) :
    (s.resetDue ∧ step s = .next (State.resetContext { s with calls := s.calls.tail })) ∨
      (¬s.resetDue ∧ ∃ t, step s = .next t ∧ HostAct s t) ∨ ∃ f, s.outBytes = .error f ∧ step s = .fault f := by
  by_cases hdue : s.resetDue
  · exact .inl ⟨hdue, step_of_resetDue hdue⟩
  right
  cases hphase : s.phase with
  | single =>
    rw [step_single hbusy hnone hphase]
    rcases collectSingle_cases s with ⟨_, e⟩ | ⟨_, bytes, _, e⟩ | ⟨_, f, hf, e⟩
    · exact .inl ⟨hdue, _, e, .answer (.refl s) hnone id _⟩
    · exact .inl ⟨hdue, _, e, .answer (.refl s) hnone id _⟩
    · exact .inr ⟨f, hf, e⟩
  | multiNext => exact .inl ⟨hdue, _, step_multiNext hbusy hnone hphase hdue, nextSegment_act hnone hphase⟩
  | multiWait =>
    rw [step_multiWait hbusy hnone hphase]
    rcases collectMulti_cases s with ⟨_, e⟩ | ⟨_, _, e⟩ | ⟨_, hfits, bytes, hb, e⟩ | ⟨_, _, f, hf, e⟩
    · exact .inl ⟨hdue, _, e, .answer (.refl s) hnone id _⟩
    · exact .inl ⟨hdue, _, e, .answer (u := { s with cursor := s.cursor + s.segmentSize }) rfl hnone
        (fun h => ⟨h.segmentCount, h.uncompressedSize, h.segmentSize, h.total⟩) _⟩
    · exact .inl ⟨hdue, _, e, .collected hphase hfits bytes hb⟩
    · exact .inr ⟨f, hf, e⟩
  | idle =>
    rw [step_command hbusy hnone hphase, fetchCommand]
    refine .inl ⟨hdue, ?_⟩
    cases hcalls : s.calls with
    | nil => exact ⟨_, rfl, .stay hphase⟩
    | cons c rest =>
      cases c with
      | decompress input offset =>
        exact fetchFrame_act (u := State.enterCall { s with calls := rest } input offset) hphase rfl hnone hbusy
          fun h => ⟨h.segmentCount, h.uncompressedSize, h.segmentSize, h.total⟩
      | segment seg => exact ⟨_, rfl, .bare hphase seg rest⟩
      | sessionReset => exact absurd ⟨hbusy, hnone, .inl ⟨hphase, rest, .inl hcalls⟩⟩ hdue
      | resetInFrame n => exact absurd ⟨hbusy, hnone, .inl ⟨hphase, rest, .inr ⟨n, hcalls⟩⟩⟩ hdue

/-- The host's acts leave the core (rules R26, R268, R294). -/
theorem HostAct.hostOnly {s t : State} (h : HostAct s t) : HostOnly s t := by
  cases h with
  | stay _ => rfl
  | bare _ seg rest => rfl
  | answer hhost _ _ r => exact hhost.trans rfl
  | single _ hhost _ seg => exact hhost.trans rfl
  | multi _ hhost _ _ p _ => exact hhost.trans rfl
  | next _ _ _ => rfl
  | collected _ _ bytes _ => rfl

/-! ### All steps -/

/-- What a step to a next state can be. -/
inductive StepKind (s : State) : State → Prop
  | token {t : State} (hstate : s.state = .readSelector) (h : TokenStep s t) : StepKind s t
  | segment {t : State} {seg : List Byte} (hbusy : s.busy = false) (hseg : s.presented = some seg)
      (h : SegmentStep s seg t) : StepKind s t
  | reset (hdue : s.resetDue) : StepKind s (State.resetContext { s with calls := s.calls.tail })
  | host {t : State} (hbusy : s.busy = false) (hnone : s.presented = none) (hdue : ¬s.resetDue) (h : HostAct s t) :
      StepKind s t

theorem readSelector_of_busy {s t : State} (hbusy : s.busy = true) (h : step s = .next t) : s.state = .readSelector := by
  by_contra hne
  cases (step_insideToken hbusy hne).symm.trans h

theorem step_kind {s t : State} (h : step s = .next t) : StepKind s t := by
  cases hbusy : s.busy with
  | true =>
    have hstate := readSelector_of_busy hbusy h
    exact .token hstate (step_token_next hstate h)
  | false =>
    cases hseg : s.presented with
    | some seg =>
      rcases step_segment_cases hbusy hseg with ⟨_, e⟩ | ⟨_, u, e, hu⟩
      · cases e.symm.trans h
      · cases e.symm.trans h
        exact .segment hbusy hseg hu
    | none =>
      rcases step_host_cases hbusy hseg with ⟨hdue, e⟩ | ⟨hdue, u, e, hu⟩ | ⟨f, _, e⟩
      · cases e.symm.trans h
        exact .reset hdue
      · cases e.symm.trans h
        exact .host hbusy hseg hdue hu
      · cases e.symm.trans h

/-! ### The history and the idle core -/

/-- `ring_write` reads the ring, its index and the parameters only (rules R200, R201). -/
theorem ringWrite_congr {s u : State} (hcfg : u.cfg = s.cfg) (hhist : u.hist = s.hist) (hidx : u.histIdx = s.histIdx)
    (bytes : List Byte) :
    (u.ringWrite bytes).hist = (s.ringWrite bytes).hist ∧ (u.ringWrite bytes).histIdx = (s.ringWrite bytes).histIdx := by
  induction bytes generalizing s u with
  | nil => exact ⟨hhist, hidx⟩
  | cons b bs ih =>
    rw [State.ringWrite_cons, State.ringWrite_cons]
    exact ih (s := s.ringWriteByte b) (u := u.ringWriteByte b) hcfg (by simp [hcfg, hhist, hidx]) (by simp [hcfg, hidx])

/-- What `append` gains over an earlier state with the same memories (rules R61, R201, R208). -/
theorem gained_append {s u : State} (hcfg : u.cfg = s.cfg) (hhist : u.hist = s.hist) (hidx : u.histIdx = s.histIdx)
    (hout : u.out = s.out) (bytes : List Byte) : Gained u.outCnt bytes s (u.append bytes) := by
  obtain ⟨hring, hringIdx⟩ := ringWrite_congr hcfg hhist hidx bytes
  exact {
    outCnt := u.append_outCnt bytes
    outNew := fun i hi => by rw [State.append_out, Memory.get?_writeList, if_pos (by omega), Nat.add_sub_cancel_left]
    outOld := fun a ha => by rw [State.append_out, Memory.get?_writeList, if_neg (by omega), hout]
    hist := (u.append_hist bytes).trans hring
    histIdx := (u.append_histIdx bytes).trans hringIdx }

/-- A token gains the bytes it emits, and a failing one none. -/
theorem TokenStep.gained {s t : State} (h : TokenStep s t) : ∃ bytes, Gained s.outCnt bytes s t := by
  cases h with
  | @failed u hwork k =>
    have hsame : FailedWith k s (u.enterFailed k) := hwork.failedWith k
    have hhist : (u.enterFailed k).hist = s.hist := by rw [hwork]; rfl
    exact ⟨[], hsame.memory.outCnt, fun i hi => absurd hi (Nat.not_lt_zero i), fun a _ => hsame.memory.outByte a, hhist,
      hsame.memory.histIdx⟩
  | @completed u hwork bytes hroom =>
    have hcnt : u.outCnt = s.outCnt := by rw [hwork]
    obtain ⟨h1, h2, h3, h4, h5⟩ := gained_append (s := s) (u := u) (by rw [hwork]) (by rw [hwork]) (by rw [hwork])
      (by rw [hwork]) bytes
    rw [hcnt] at h1 h2 h3
    exact ⟨bytes, h1, h2, h3, h4, h5⟩

/-- A raw segment gains its body from address 0 on, or nothing where it does not fit (rule R222). -/
theorem raw_gained {s t : State} {c : Byte} {body : List Byte} (hbusy : s.busy = false)
    (hseg : s.presented = some (c :: body)) (hc : compressed c = false) (h : step s = .next t) :
    Gained 0 (if body.length ≤ outCap then body else []) s t := by
  rcases step_segment_cases hbusy hseg with ⟨_, e⟩ | ⟨hlen, _⟩
  · cases e.symm.trans h
  · rw [step_of_not_compressed hbusy hseg hc, exec_segRaw hbusy hseg hlen] at h
    split at h
    · cases h
      rw [if_pos ‹_›]
      obtain ⟨h1, h2, h3, h4, h5⟩ := gained_append (s := s) (u := s.started c) rfl rfl rfl rfl body
      exact ⟨h1, h2, h3, h4, h5⟩
    · cases h
      rw [if_neg ‹_›]
      exact ⟨rfl, fun i hi => absurd hi (Nat.not_lt_zero i), fun _ _ => rfl, rfl, rfl⟩

theorem not_busy_ne_readSelector {s : State} (h : s.busy = false) : s.state ≠ .readSelector := by
  intro hstate
  rw [State.busy, hstate] at h
  cases h

/-- No step changes the parameters (rule R6). -/
theorem step_cfg {s t : State} (h : step s = .next t) : t.cfg = s.cfg := by
  cases step_kind h with
  | token _ h =>
    cases h with
    | failed hwork k => rw [hwork]; rfl
    | completed hwork bytes _ => rw [State.append_eq, hwork]; rfl
  | segment _ _ h =>
    cases h with
    | failed hhead k => rw [hhead]; rfl
    | raw hhead _ _ _ => rw [State.append_eq, hhead]
    | opened hhead bytes n _ _ => rw [hhead]; rfl
  | reset _ => rfl
  | host _ _ _ h => rw [h.hostOnly]

/-- Settles O51. -/
theorem historyOnlyGrowsOrIsReset : Obligations.HistoryOnlyGrowsOrIsReset := by
  intro s t h
  refine ⟨step_cfg h, fun hstate => (step_token_next hstate h).gained,
    fun c body hbusy hseg hc => raw_gained hbusy hseg hc h, fun hdue => ?reset, fun hbusy hdue hcomp => ?same⟩
  case reset =>
    cases (step_of_resetDue hdue).symm.trans h
    exact ⟨fun a => resetContext_histByte _ a, rfl⟩
  case same =>
    cases step_kind h with
    | token hstate _ => exact absurd hstate (not_busy_ne_readSelector hbusy)
    | segment _ hseg h =>
      cases h with
      | failed hhead k => rw [hhead]; exact ⟨rfl, rfl⟩
      | @raw u c body hhead hseg' hc _ => cases (hcomp c body (hseg' ▸ hseg)).symm.trans hc
      | opened hhead bytes n _ _ => rw [hhead]; exact ⟨rfl, rfl⟩
    | reset hdue' => exact absurd hdue' hdue
    | host _ _ _ h => rw [h.hostOnly]; exact ⟨rfl, rfl⟩

/-- Settles O52: only an act of the host is left. -/
theorem idleCoreHoldsItsState : Obligations.IdleCoreHoldsItsState := by
  intro s t hbusy hnone hdue h
  cases step_kind h with
  | token hstate _ => exact absurd hstate (not_busy_ne_readSelector hbusy)
  | segment _ hseg _ => cases hnone.symm.trans hseg
  | reset hdue' => exact absurd hdue' hdue
  | host _ _ _ h =>
    rw [h.hostOnly]
    exact ⟨rfl, rfl, ⟨rfl, rfl, fun _ => rfl, fun _ => rfl⟩, ⟨rfl, rfl, rfl, rfl, rfl, rfl⟩,
      ⟨rfl, rfl, rfl, rfl, rfl, rfl, rfl⟩, ⟨rfl, rfl⟩⟩

end Sys2Proof.Machine

/-! PROOFS. Tokens from a sound BitReader (rules R27, R103, R126, R129, R224): every one ends in a next state, and what it
leaves in the BitReader and in the working registers. -/

namespace Sys2Proof.Machine

/-! ### A form runs its entry's operation, row or not (rule R110, assumption 20) -/

theorem execForm_literalForm (e : Token) (s : State) : execForm (literalForm e) s = literalToken e s := by
  rcases literalForm_cases e with ⟨i, hi, hform⟩ | ⟨_, hform⟩
  · rw [hform, execForm_row, exec_litRow hi]
  · rw [hform, execForm_literal]

theorem execForm_matchForm {e : Token} {x : Nat} (hx : x < 2 ^ e.valueBits) (len : LengthCode) (s : State) :
    execForm (matchForm e x len) s = matchToken e x len s := by
  rcases matchForm_cases e x len with ⟨build, hbuild, hform⟩ | ⟨_, hform⟩
  · rw [hform, execForm_row, exec_matchRow hbuild hx]
  · rw [hform, execForm_copy]

theorem execForm_runForm (e : Token) {n : Nat} (hn : n < 2 ^ 15) (s : State) :
    execForm (runForm e n) s = runToken e n s := by
  have hnat : (BitVec.ofNat 15 n).toNat = n := by rw [BitVec.toNat_ofNat, Nat.mod_eq_of_lt hn]
  rcases runForm_cases e n with ⟨hhead, hform⟩ | ⟨_, hform⟩
  · rw [hform, execForm_row, exec, execUnenc, hnat, head_refMatchTable hhead]
    rfl
  · rw [hform, execForm_run, hnat]

theorem execForm_unmatchedForm (t : TableSel) (p n : Nat) (s : State) :
    execForm (unmatchedForm t p n) s = unmatchedToken t p n s := by
  rcases unmatchedForm_cases t p n with ⟨rfl, rfl, rfl, hform⟩ | ⟨rfl, rfl, hp, hform⟩ | hform
  · rw [hform]
    rfl
  · have hbits : 0b100000000 + (BitVec.ofNat 4 p).toNat = p := by
      rw [BitVec.toNat_ofNat]
      omega
    rw [hform, execForm_row, exec, execIllegal10000, hbits]
  · rw [hform, execForm_unmatched]

theorem rawBytes_literalForm (e : Token) : rawBytes (literalForm e) = none := by
  have hall : ∀ r ∈ litRows, rawBytes (.row r.2) = none := by decide
  rcases literalForm_cases e with ⟨i, hi, hform⟩ | ⟨_, hform⟩
  · rw [hform]; exact hall _ hi
  · rw [hform]; rfl

theorem rawBytes_matchForm (e : Token) (x : Nat) (len : LengthCode) : rawBytes (matchForm e x len) = none := by
  have hall : ∀ r ∈ matchRows, rawBytes (.row (r.2 x len)) = none := by
    simp only [matchRows, refMatchTable, matchInstrs, List.zip_cons_cons, List.zip_nil_left, List.forall_mem_cons,
      List.not_mem_nil, false_imp_iff, implies_true, rawBytes, and_self]
  rcases matchForm_cases e x len with ⟨build, hbuild, hform⟩ | ⟨_, hform⟩
  · rw [hform]; exact hall _ hbuild
  · rw [hform]; rfl

theorem rawBytes_runForm (e : Token) {n : Nat} (hn : n < 2 ^ 15) : rawBytes (runForm e n) = some n := by
  have hnat : (BitVec.ofNat 15 n).toNat = n := by rw [BitVec.toNat_ofNat, Nat.mod_eq_of_lt hn]
  rcases runForm_cases e n with ⟨_, hform⟩ | ⟨_, hform⟩
  · rw [hform, rawBytes, hnat]
  · rw [hform, rawBytes, hnat]

/-! ### The widths of the working registers (rules R25, R236) -/

/-- The working registers that hold operands fit their widths. -/
structure State.TokenWidths (s : State) : Prop where
  pfx : s.pfx < 2 ^ s.cfg.prefixWidth
  pfxLen : s.pfxLen ≤ s.cfg.prefixWidth
  dist : s.dist ≤ s.cfg.maxDistance
  len : s.len < 2 ^ 17
  extra : s.extra < 2 ^ 5
  count : s.count < 2 ^ 15

theorem prefixWidth_eq (cfg : Config) : cfg.prefixWidth = longestPrefix (longestPrefix 2 cfg.litTable) cfg.matchTable := by
  rw [Config.prefixWidth, List.foldl_append]
  rfl

theorem longestPrefix_mono {m n : Nat} (h : m ≤ n) (table : List Token) : longestPrefix m table ≤ longestPrefix n table := by
  induction table generalizing m n with
  | nil => exact h
  | cons e es ih => exact ih (max_le_max h le_rfl)

theorem prefixLen_le_longestPrefix {e : Token} {table : List Token} (he : e ∈ table) (n : Nat) :
    e.prefixLen ≤ longestPrefix n table := by
  induction table generalizing n with
  | nil => cases he
  | cons e' es ih =>
    rcases List.mem_cons.mp he with rfl | he
    · exact (le_max_right _ _).trans (le_longestPrefix _ es)
    · exact ih he _

theorem longestPrefix_le_prefixWidth (cfg : Config) (t : TableSel) : longestPrefix 2 (cfg.table t) ≤ cfg.prefixWidth := by
  rw [prefixWidth_eq]
  cases t with
  | literalTable => exact le_longestPrefix _ _
  | matchTable => exact longestPrefix_mono (le_longestPrefix 2 cfg.litTable) _

theorem le_foldl_max {α : Type} (f : α → Nat) {a : α} {l : List α} (h : a ∈ l) (n : Nat) :
    f a ≤ l.foldl (fun d e => max d (f e)) n := by
  induction l generalizing n with
  | nil => cases h
  | cons b bs ih =>
    have hmono : ∀ (bs : List α) (n : Nat), n ≤ bs.foldl (fun d e => max d (f e)) n := by
      intro bs
      induction bs with
      | nil => exact fun n => le_rfl
      | cons c cs ih => exact fun n => (le_max_left _ _).trans (ih _)
    rcases List.mem_cons.mp h with rfl | h
    · exact (le_max_right _ _).trans (hmono bs _)
    · exact ih h _

theorem distance_le_maxDistance {cfg : Config} {e : Token} (he : e ∈ cfg.matchTable) {x : Nat} (hx : x < 2 ^ e.valueBits) :
    e.base + x ≤ cfg.maxDistance := by
  have := le_foldl_max (fun e : Token => e.base + 2 ^ e.valueBits - 1) he 0
  rw [Config.maxDistance]
  omega

theorem tokenWidths_walked {s : State} (h : s.TokenWidths) {t : TableSel} {e : Token} (he : e ∈ s.cfg.table t)
    (hfit : CodesFit (s.cfg.table t)) : (s.walked t e).TokenWidths := by
  have hlen : e.prefixLen ≤ s.cfg.prefixWidth :=
    (prefixLen_le_longestPrefix he 2).trans (longestPrefix_le_prefixWidth s.cfg t)
  exact ⟨(hfit e he).trans_le (Nat.pow_le_pow_right (by decide) hlen), hlen, h.dist, h.len, h.extra, h.count⟩

theorem lengthOf_lt {len : LengthCode} {extra : Nat} (hlen : len.wellFormed = true) (hextra : extra < 2 ^ 5) :
    (lengthOf len extra).1 < 2 ^ 17 ∧ (lengthOf len extra).2 < 2 ^ 5 := by
  cases len with
  | three => exact ⟨show 3 < 2 ^ 17 by decide, hextra⟩
  | ext k w =>
    have hk := (wellFormed_ext hlen).2.1
    exact ⟨(log2_of_ext hlen).2.1, by simp only [lengthOf]; omega⟩
  | overrun => exact ⟨show 2 ^ 16 < 2 ^ 17 by decide, show 16 < 2 ^ 5 by decide⟩

theorem tokenWidths_matchOperands {s : State} (h : s.TokenWidths) {e : Token} {x : Nat} {len : LengthCode}
    (he : e ∈ s.cfg.matchTable) (hfit : CodesFit s.cfg.matchTable) (hx : x < 2 ^ e.valueBits)
    (hlen : len.wellFormed = true) : (s.matchOperands e x len).TokenWidths := by
  obtain ⟨hpfx, hpfxLen, _, _, _, hcount⟩ := tokenWidths_walked h (t := .matchTable) he hfit
  obtain ⟨hl, hextra⟩ := lengthOf_lt hlen h.extra
  exact ⟨hpfx, hpfxLen, distance_le_maxDistance he hx, hl, hextra, hcount⟩

theorem tokenWidths_runOperands {s : State} (h : s.TokenWidths) {e : Token} {n : Nat} (he : e ∈ s.cfg.matchTable)
    (hfit : CodesFit s.cfg.matchTable) (hn : n < 2 ^ 15) : (s.runOperands e n).TokenWidths := by
  obtain ⟨hpfx, hpfxLen, _, hl, hextra, _⟩ := tokenWidths_walked h (t := .matchTable) he hfit
  exact ⟨hpfx, hpfxLen, Nat.zero_le _, hl, hextra, hn⟩

theorem tokenWidths_walkedOff {s : State} (h : s.TokenWidths) {t : TableSel} {c : List Bool}
    (hlen : c.length = longestPrefix 2 (s.cfg.table t)) : (s.walkedOff t (bitsToNat c) c.length).TokenWidths := by
  have hwidth : c.length ≤ s.cfg.prefixWidth := hlen ▸ longestPrefix_le_prefixWidth s.cfg t
  exact ⟨(bitsToNat_lt c).trans_le (Nat.pow_le_pow_right (by decide) hwidth), hwidth, h.dist, h.len, h.extra, h.count⟩

/-! ### A token after a sound fetch -/

/-- `v` is what a token has made of `u` before it emits or fails: the BitReader is sound and has not moved back, and the
operands fit their registers. -/
structure SoundWork (u v : State) : Prop where
  work : Worked u v
  reader : v.ReaderInv
  position : u.bitPos ≤ v.bitPos
  budget : v.bitsRem ≤ u.bitsRem
  widths : u.TokenWidths → v.TokenWidths

/-- What the token `f` can do after a fetch that left a sound BitReader in `u`. -/
inductive SoundToken (f : Form) (u : State) : Outcome → Prop
  | failed {v : State} (hwork : SoundWork u v) (k : ErrKind) : SoundToken f u (.next (v.enterFailed k))
  | completed {v : State} (hwork : SoundWork u v) (bytes : List Byte) (hroom : bytes.length ≤ outCap - u.outCnt)
      (hend : v.bitPos = (rawBytes f).elim u.bitPos fun n => (u.bitPos + 7) / 8 * 8 + 8 * n)
      (hsum : v.bitPos + v.bitsRem = u.bitPos + u.bitsRem ∨ v.bitsRem = 0) :
      SoundToken f u (.next (v.append bytes).loopTest)

theorem State.ReaderInv.congr {s t : State} (h : s.ReaderInv) (hsame : SameReader s t) : t.ReaderInv := by
  obtain ⟨hbytes, hlen, hcur, hacc, hcnt, hrem⟩ := hsame
  obtain ⟨r1, r2, r3, r4, r5⟩ := h
  rw [← hlen] at r1 r2 r5
  rw [← hbytes] at r1 r4
  rw [← hcur] at r2 r4 r5
  rw [← hcnt] at r3 r4 r5
  rw [← hacc] at r4
  rw [← hrem] at r5
  exact ⟨r1, r2, r3, r4, r5⟩

/-- Work that leaves the BitReader alone. -/
theorem soundWork_of_sameReader {u v : State} (hu : u.ReaderInv) (hwork : Worked u v) (hsame : SameReader u v)
    (hwidths : u.TokenWidths → v.TokenWidths) : SoundWork u v where
  work := hwork
  reader := hu.congr hsame
  position := by rw [State.bitPos, State.bitPos, hsame.byteCur, hsame.accCnt]
  budget := by rw [hsame.bitsRem]
  widths := hwidths

theorem bitPos_of_sameReader {u v : State} (h : SameReader u v) : v.bitPos = u.bitPos := by
  rw [State.bitPos, State.bitPos, h.byteCur, h.accCnt]

/-- A token that leaves the BitReader alone ends at its last bit. -/
theorem soundToken_completed {f : Form} {u v : State} (hu : u.ReaderInv) (hraw : rawBytes f = none) (hwork : Worked u v)
    (hsame : SameReader u v) (hwidths : u.TokenWidths → v.TokenWidths) {bytes : List Byte}
    (hroom : bytes.length ≤ outCap - u.outCnt) : SoundToken f u (.next (v.append bytes).loopTest) :=
  .completed (soundWork_of_sameReader hu hwork hsame hwidths) bytes hroom
    (by rw [hraw]; exact bitPos_of_sameReader hsame) (.inl (by rw [bitPos_of_sameReader hsame, hsame.bitsRem]))

theorem soundToken_literal {u : State} (hu : u.ReaderInv) (hlegal : u.cfg.tablesLegal = true) {e : Token}
    (he : e ∈ u.cfg.litTable) : SoundToken (literalForm e) u (literalToken e u) := by
  have hsame : SameReader u (u.walked .literalTable e) := ⟨rfl, rfl, rfl, rfl, rfl, rfl⟩
  have hwidths : u.TokenWidths → (u.walked .literalTable e).TokenWidths := fun h =>
    tokenWidths_walked h (t := .literalTable) he (litTable_legal hlegal).fit
  rcases literalToken_cases e u with ⟨_, h⟩ | ⟨hroom, h⟩
  · rw [h]
    exact .failed (soundWork_of_sameReader hu (worked_walked _ _ _) hsame hwidths) _
  · rw [h]
    refine soundToken_completed hu (rawBytes_literalForm e) (worked_walked _ _ _) hsame hwidths ?_
    rw [List.length_singleton]
    omega

theorem soundToken_lit8 {u : State} (hu : u.ReaderInv) (v : Byte) : SoundToken (.row (.lit8 v)) u (execLit8 v u) := by
  have hsame : SameReader u { u with state := .literal } := ⟨rfl, rfl, rfl, rfl, rfl, rfl⟩
  have hwork : Worked u { u with state := .literal } := rfl
  have hwidths : u.TokenWidths → State.TokenWidths { u with state := .literal } := fun ⟨a, b, c, d, e, f⟩ =>
    ⟨a, b, c, d, e, f⟩
  rcases emitAndLoop_cases [v] { u with state := .literal } with ⟨_, h⟩ | ⟨hroom, h⟩
  · rw [execLit8, h]
    exact .failed (soundWork_of_sameReader hu hwork hsame hwidths) _
  · rw [execLit8, h]
    exact soundToken_completed hu rfl hwork hsame hwidths hroom

theorem soundToken_match {u : State} (hu : u.ReaderInv) (hlegal : u.cfg.tablesLegal = true) {e : Token} {x : Nat}
    {len : LengthCode} (he : e ∈ u.cfg.matchTable) (hx : x < 2 ^ e.valueBits) (hdist : e.base + x ≠ 0)
    (hlen : len.wellFormed = true) : SoundToken (matchForm e x len) u (matchToken e x len u) := by
  have hsame : SameReader u (u.matchOperands e x len) := ⟨rfl, rfl, rfl, rfl, rfl, rfl⟩
  have hwidths : u.TokenWidths → (u.matchOperands e x len).TokenWidths := fun h =>
    tokenWidths_matchOperands h he (matchTable_legal hlegal).fit hx hlen
  rcases matchToken_cases e x len u with ⟨hzero, _⟩ | ⟨_, _, h⟩ | ⟨_, _, hroom, h⟩
  · exact absurd hzero hdist
  · rw [h]
    exact .failed (soundWork_of_sameReader hu (worked_matchOperands _ _ _ _) hsame hwidths) _
  · rw [h]
    exact soundToken_completed hu (rawBytes_matchForm e x len) (worked_matchOperands _ _ _ _) hsame hwidths
      (by rw [matchBytes_length]; exact hroom)

theorem soundToken_unmatched {u : State} (hu : u.ReaderInv) {t : TableSel} {c : List Bool}
    (hlen : c.length = longestPrefix 2 (u.cfg.table t)) (f : Form) :
    SoundToken f u (unmatchedToken t (bitsToNat c) c.length u) := by
  rw [unmatchedToken_eq]
  exact .failed (soundWork_of_sameReader hu (worked_walkedOff _ _ _ _) ⟨rfl, rfl, rfl, rfl, rfl, rfl⟩ fun h =>
    tokenWidths_walkedOff h hlen) _

/-- `realign` of a sound BitReader: no byte is passed (rules R126, R127). -/
theorem soundWork_realign {u : State} (hu : u.ReaderInv) : SoundWork u u.realign where
  work := worked_realign u
  reader := hu.realign
  position := by
    rw [State.realign_bitPos, State.bitPos]
    omega
  budget := Nat.sub_le _ _
  widths := fun ⟨a, b, c, d, e, f⟩ => ⟨a, b, c, d, e, f⟩

/-- The raw bytes of a run after `realign` (rules R125, R126). -/
theorem soundWork_passRun {u : State} {n : Nat} (hu : u.ReaderInv) (hslice : n ≤ u.inLen - u.byteCur)
    (hbudget : 8 * n ≤ u.realign.bitsRem) : SoundWork u (u.passRun n) where
  work := worked_passRun u n
  reader := by
    have hcur := hu.cur_le
    have hle := hu.realign.budget_le
    simp only [State.realign_inLen, State.realign_byteCur, State.realign_accCnt] at hle
    refine ⟨hu.len_eq, ?_, Nat.zero_le _, .inl ⟨rfl, rfl⟩, ?_⟩
    · simp only [State.passRun, State.realign_inLen]
      omega
    · simp only [State.passRun, State.realign_inLen, State.realign_accCnt]
      omega
  position := by
    simp only [State.bitPos, State.passRun, State.realign_accCnt]
    omega
  budget := by
    simp only [State.passRun, State.realign_bitsRem]
    omega
  widths := fun ⟨a, b, c, d, e, f⟩ => ⟨a, b, c, d, e, f⟩

theorem SoundWork.trans {u v w : State} (h : SoundWork u v) (h' : SoundWork v w) : SoundWork u w :=
  ⟨h.work.trans h'.work, h'.reader, h.position.trans h'.position, h'.budget.trans h.budget, h'.widths ∘ h.widths⟩

theorem soundToken_run {u : State} (hu : u.ReaderInv) (hlegal : u.cfg.tablesLegal = true) {e : Token} {n : Nat}
    (he : e ∈ u.cfg.matchTable) (hn : n < 2 ^ 15) : SoundToken (runForm e n) u (runToken e n u) := by
  have hwork : SoundWork u (u.runOperands e n) :=
    soundWork_of_sameReader hu (worked_runOperands u e n) ⟨rfl, rfl, rfl, rfl, rfl, rfl⟩ fun h =>
      tokenWidths_runOperands h he (matchTable_legal hlegal).fit hn
  have hread : n ≤ u.inLen - u.byteCur →
      readInput u.byteCur n (u.runOperands e n).realign =
        .ok ((u.inBytes.drop u.byteCur).take n) (u.runOperands e n).realign := fun h =>
    readInput_of_le (hu.len_eq ▸ h)
  rcases copyRun_cases n (u.runOperands e n) with
    ⟨_, h⟩ | ⟨_, _, h⟩ | ⟨hroom, hslice, hbudget, ⟨bytes, _, hlen, h⟩ | ⟨f, hf, _⟩⟩
  · rw [runToken, h]
    exact .failed (hwork.trans (soundWork_realign hwork.reader)) _
  · rw [runToken, h]
    exact .failed (hwork.trans (soundWork_realign hwork.reader)) _
  · rw [runToken, h]
    refine .completed (v := (u.runOperands e n).passRun n) (hwork.trans (soundWork_passRun hwork.reader hslice hbudget))
      bytes (by rw [hlen]; exact hroom) ?_ ?_
    · rw [rawBytes_runForm e hn, Option.elim_some, hu.boundary_eq]
      show 8 * (u.byteCur + n) - 0 = 8 * u.byteCur + 8 * n
      omega
    · have hpos := hu.accCnt_le
      simp only [State.realign_bitsRem, State.runOperands_bitsRem, State.runOperands_accCnt] at hbudget
      simp only [State.bitPos, State.passRun, State.realign_accCnt, State.realign_bitsRem, State.runOperands_byteCur,
        State.runOperands_bitsRem, State.runOperands_accCnt]
      omega
  · cases (hread hslice).symm.trans hf

/-- Every decoded token goes on from a sound BitReader: it fails or it completes. -/
theorem soundToken_of_decoded {u : State} {c : List Bool} {f : Form} (hu : u.ReaderInv)
    (hlegal : u.cfg.tablesLegal = true) (h : Decoded u.cfg c f) : SoundToken f u (execForm f u) := by
  cases h with
  | lit8 v => exact soundToken_lit8 hu v
  | literal he =>
    rw [execForm_literalForm]
    exact soundToken_literal hu hlegal he
  | copy he hx hdist hlen =>
    rw [execForm_matchForm hx]
    exact soundToken_match hu hlegal he hx hdist hlen
  | run he _ hn =>
    rw [execForm_runForm _ hn]
    exact soundToken_run hu hlegal he hn
  | unmatched _ hlen _ =>
    rw [execForm_unmatchedForm]
    exact soundToken_unmatched hu hlen _

/-! ### A step from a sound BitReader -/

/-- The reads of a fetch are sound work. -/
theorem ReadTo.soundWork {s u : State} {bits : List Bool} (h : ReadTo s u bits) : SoundWork s u where
  work := by
    unfold Worked
    rw [h.frame]
  reader := h.sound
  position := by
    have hpos := h.position
    have hle := h.budget
    omega
  budget := h.budget
  widths := fun ⟨a, b, c, d, e, f⟩ => by
    rw [h.frame]
    exact ⟨a, b, c, d, e, f⟩

/-- What a step at a token boundary can end in when the BitReader is sound: sound work, and then either a failure, or the
completion of the token that its bits decode to. -/
inductive SoundStep (s : State) : Outcome → Prop
  | failed {v : State} (hwork : SoundWork s v) (k : ErrKind) : SoundStep s (.next (v.enterFailed k))
  | completed {v : State} {f : Form} {rest : List Bool} (hwork : SoundWork s v)
      (hdec : decode s.cfg .token s.tokenBits = .ok f rest) (bytes : List Byte)
      (hroom : bytes.length ≤ outCap - s.outCnt) (hend : v.bitPos = tokenEnd s.bitPos f)
      (hbits : v.bitsRem + formLength f ≤ s.bitsRem)
      (hsum : v.bitPos + v.bitsRem = s.bitPos + s.bitsRem ∨ v.bitsRem = 0) :
      SoundStep s (.next (v.append bytes).loopTest)

/-- A step from a sound BitReader always goes on. -/
theorem step_sound {s : State} (hs : s.ReaderInv) (hlegal : s.cfg.tablesLegal = true) (hstate : s.state = .readSelector) :
    SoundStep s (step s) := by
  cases hdec : decode s.cfg .token s.tokenBits with
  | stop e rest =>
    obtain ⟨u, hfetch, hu⟩ := fetch_of_decode_stop hs hlegal hdec
    rw [step_of_fetch_stop hstate hlegal hfetch]
    exact .failed hu.soundWork _
  | ok f rest =>
    obtain ⟨u, hfetch, hu⟩ := fetch_of_decode_ok hs hlegal hdec
    obtain ⟨c, _, htoken⟩ := decode_token_ok hdec
    obtain ⟨hpos, hrem⟩ := hu.after_token hs hdec
    have hcfg : u.cfg = s.cfg := by rw [hu.frame]
    have hcnt : u.outCnt = s.outCnt := by rw [hu.frame]
    rw [step_of_fetch_ok hstate hlegal hfetch]
    have hsound := soundToken_of_decoded hu.sound (hcfg ▸ hlegal) (hcfg ▸ htoken)
    generalize execForm f u = o at hsound
    cases hsound with
    | failed hwork k => exact .failed (hu.soundWork.trans hwork) k
    | completed hwork bytes hroom hend hsum =>
      have hbudget := hwork.budget
      refine .completed (hu.soundWork.trans hwork) hdec bytes (hcnt ▸ hroom) ?_ (by omega) ?_
      · rw [hend, tokenEnd, hpos]
        cases rawBytes f <;> rfl
      · rw [hu.position] at hsum
        exact hsum

theorem bitPos_append_loopTest (v : State) (bytes : List Byte) : (v.append bytes).loopTest.bitPos = v.bitPos := by
  rw [State.append_eq]
  rfl

theorem bitsRem_append_loopTest (v : State) (bytes : List Byte) : (v.append bytes).loopTest.bitsRem = v.bitsRem :=
  v.append_bitsRem bytes

/-- A token step to a next state had legal tables (rule R7). -/
theorem tablesLegal_of_step {s t : State} (hstate : s.state = .readSelector) (h : step s = .next t) :
    s.cfg.tablesLegal = true := by
  rcases step_token_cases hstate with ⟨_, e⟩ | ⟨hlegal, _⟩
  · cases e.symm.trans h
  · exact hlegal

theorem step_next_sound {s t : State} (hs : s.ReaderInv) (hstate : s.state = .readSelector) (h : step s = .next t) :
    SoundStep s (.next t) :=
  h ▸ step_sound hs (tablesLegal_of_step hstate h) hstate

/-- Settles O55. -/
theorem completedTokensAdvanceByTheirLength : Obligations.CompletedTokensAdvanceByTheirLength := by
  intro s t f rest hs hstate hdec h hdone
  cases step_next_sound hs hstate h with
  | failed hwork k => exact absurd rfl hdone
  | @completed v g _ hwork hdec' bytes hroom hend hbits hsum =>
    cases hdec.symm.trans hdec'
    rw [bitPos_append_loopTest, bitsRem_append_loopTest]
    exact ⟨hend, hsum⟩

/-! ### How many bits a token has at least (rules R7, R225) -/

theorem le_tokenEnd (p : Nat) (f : Form) : p + formLength f ≤ tokenEnd p f := by
  unfold tokenEnd
  split <;> omega

/-- No token is shorter than every prefix of its tables and every literal byte. -/
theorem le_length_of_decoded {cfg : Config} {c : List Bool} {f : Form} {n : Nat}
    (hentries : ∀ t, ∀ e ∈ cfg.table t, n ≤ e.prefixLen) (hlong : ∀ t, n ≤ longestPrefix 2 (cfg.table t)) (hn : n ≤ 9)
    (h : Decoded cfg c f) : n ≤ formLength f := by
  cases h with
  | lit8 v => exact hn
  | literal he =>
    rw [formLength_literalForm]
    exact hentries .literalTable _ he
  | copy he _ _ _ =>
    have := hentries .matchTable _ he
    rw [formLength_matchForm]
    omega
  | run he _ _ =>
    have := hentries .matchTable _ he
    rw [formLength_runForm]
    omega
  | @unmatched t _ _ hlen _ =>
    rw [formLength_unmatchedForm, hlen]
    exact hlong t

theorem two_le_formLength {cfg : Config} {c : List Bool} {f : Form} (hlegal : cfg.tablesLegal = true)
    (h : Decoded cfg c f) : 2 ≤ formLength f := by
  refine le_length_of_decoded (fun t e he => ?_) (fun t => le_longestPrefix 2 _) (by decide) h
  cases t with
  | literalTable => exact (litTable_legal hlegal).len_ge e he
  | matchTable => exact (matchTable_legal hlegal).len_ge e he

theorem five_le_formLength {cfg : Config} {c : List Bool} {f : Form} (href : ReferenceTables cfg) (h : Decoded cfg c f) :
    5 ≤ formLength f := by
  have hlit : ∀ e ∈ refLitTable, 5 ≤ e.prefixLen := by decide
  have hmatch : ∀ e ∈ refMatchTable, 5 ≤ e.prefixLen := by decide
  refine le_length_of_decoded (fun t => ?_) (fun t => ?_) (by decide) h
  · cases t with
    | literalTable => rwa [Config.table, href.1]
    | matchTable => rwa [Config.table, href.2]
  · cases t with
    | literalTable =>
      rw [Config.table, href.1]
      decide
    | matchTable =>
      rw [Config.table, href.2]
      decide

/-- A token that completes takes at least as many bits as every token has. -/
theorem consumed_of_completed {s t : State} {n : Nat} (hs : s.ReaderInv) (hstate : s.state = .readSelector)
    (h : step s = .next t) (hdone : t.state ≠ .failed) (hn : ∀ c f, Decoded s.cfg c f → n ≤ formLength f) :
    Consumed n s t := by
  cases step_next_sound hs hstate h with
  | failed hwork k => exact absurd rfl hdone
  | @completed v f _ hwork hdec bytes hroom hend hbits hsum =>
    obtain ⟨c, _, htoken⟩ := decode_token_ok hdec
    have hlen := hn c f htoken
    have htoken := le_tokenEnd s.bitPos f
    constructor
    · rw [bitPos_append_loopTest]
      omega
    · rw [bitsRem_append_loopTest]
      omega

/-- A token step moves no bit back. -/
theorem consumed_zero {s t : State} (hs : s.ReaderInv) (hstate : s.state = .readSelector) (h : step s = .next t) :
    Consumed 0 s t := by
  cases step_next_sound hs hstate h with
  | failed hwork k => exact ⟨hwork.position, hwork.budget⟩
  | @completed v f _ hwork hdec bytes hroom hend hbits hsum =>
    rw [Consumed, bitPos_append_loopTest, bitsRem_append_loopTest]
    exact ⟨hwork.position, hwork.budget⟩

/-- Settles O54. -/
theorem tokensConsumeBits : Obligations.TokensConsumeBits := fun _ _ hs hstate h =>
  ⟨consumed_zero hs hstate h,
    fun hdone => consumed_of_completed hs hstate h hdone fun _ _ =>
      two_le_formLength (tablesLegal_of_step hstate h),
    fun href hdone => consumed_of_completed hs hstate h hdone fun _ _ => five_le_formLength href⟩

end Sys2Proof.Machine

/-! PROOFS. The invariant (rules R35, R122, R128, R208, R270): what each part of it depends on, and that every kind of step
keeps it. -/

namespace Sys2Proof.Machine

/-! ### The registers that each part of the invariant reads -/

section
variable {s t : State}

theorem State.RingInv.congr (h : s.RingInv) (hcfg : t.cfg = s.cfg) (hhist : t.hist = s.hist)
    (hidx : t.histIdx = s.histIdx) : t.RingInv := by
  obtain ⟨h1, h2, h3, h4⟩ := h
  rw [← hcfg] at h1 h2 h3 h4
  rw [← hhist] at h3 h4
  rw [← hidx] at h2
  exact ⟨h1, h2, h3, h4⟩

theorem State.OutInv.congr (h : s.OutInv) (hout : t.out = s.out) (hcnt : t.outCnt = s.outCnt) : t.OutInv := by
  obtain ⟨h1, h2, h3, h4⟩ := h
  rw [← hout] at h2 h3 h4
  rw [← hcnt] at h1 h4
  exact ⟨h1, h2, h3, h4⟩

/-- No byte of an empty output need be written. -/
theorem State.OutInv.restarted (h : s.OutInv) (hout : t.out = s.out) (hcnt : t.outCnt = 0) : t.OutInv :=
  ⟨hcnt ▸ Nat.zero_le _, hout ▸ h.canonical, hout ▸ h.addr_lt, fun a ha => absurd (hcnt ▸ ha) (Nat.not_lt_zero a)⟩

theorem State.TokenWidths.congr (h : s.TokenWidths) (hcfg : t.cfg = s.cfg) (hsame : SameWorking s t) : t.TokenWidths := by
  obtain ⟨h1, h2, h3, h4, h5, h6⟩ := h
  obtain ⟨_, w1, w2, w3, w4, w5, w6⟩ := hsame
  exact ⟨by rw [hcfg, w1]; exact h1, by rw [hcfg, w2]; exact h2, by rw [hcfg, w3]; exact h3, by rw [w4]; exact h4,
    by rw [w5]; exact h5, by rw [w6]; exact h6⟩

theorem State.HostWidths.of_core (h : s.HostWidths) (hsame : SameHost { s with presented := none } t) : t.HostWidths :=
  ⟨hsame.segmentCount ▸ h.segmentCount, hsame.uncompressedSize ▸ h.uncompressedSize, hsame.segmentSize ▸ h.segmentSize,
    hsame.total ▸ h.total⟩

theorem State.Widths.token (h : s.Widths) : s.TokenWidths := ⟨h.pfx, h.pfxLen, h.dist, h.len, h.extra, h.count⟩

theorem State.Widths.host (h : s.Widths) : s.HostWidths :=
  ⟨h.segmentCount, h.uncompressedSize, h.segmentSize, h.total⟩

/-- The widths of the accumulator count, the budget and the output count follow from the rest (rules R21, R23). -/
theorem widths_of_parts (hlen : s.inLen < 2 ^ 32) (hreader : s.ReaderInv) (hout : s.OutInv) (htoken : s.TokenWidths)
    (hhost : s.HostWidths) : s.Widths := by
  have hcnt := hreader.cnt_le
  have hbudget := hreader.budget_le
  have hle := hout.cnt_le
  simp only [outCap] at hle
  exact ⟨hlen, by omega, by omega, by omega, htoken.pfx, htoken.pfxLen, htoken.dist, htoken.len, htoken.extra,
    htoken.count, hhost.segmentCount, hhost.uncompressedSize, hhost.segmentSize, hhost.total⟩

/-- The core has taken what was presented, and left the host's other registers (rules R26, R270). -/
theorem State.HostInv.of_core (h : s.HostInv) (hsame : SameHost { s with presented := none } t)
    (hbusy : t.busy = true → s.phase ≠ .multiNext) : t.HostInv := by
  obtain ⟨_, _, hnone, hphase, hinput, _, hcursor, hcount, hindex, hsize, hseg, htotal, hresult, _⟩ := hsame
  dsimp only at hnone hphase hinput hcursor hcount hindex hsize hseg htotal hresult
  obtain ⟨_, _, _, h1, h2, h3, h4, h5, h6⟩ := h
  rw [← hphase] at h1 h2 h3 h4 h5 h6 hbusy
  rw [← htotal] at h1 h2
  rw [← hresult] at h1
  rw [← hsize] at h2
  rw [← hindex, ← hcount] at h3 h4
  rw [← hcursor, ← hinput] at h5 h6
  rw [← hseg] at h6
  exact ⟨fun hp => (by rw [hnone] at hp; cases hp), fun hp => (by rw [hnone] at hp; cases hp), hbusy, h1, h2, h3, h4, h5, h6⟩

/-! ### `emit` keeps the invariant of both memories (rules R35, R208) -/

/-- The cells listed after a byte string has been written. -/
theorem Memory.mem_writeList {m : Memory} {u : Unlisted} {a : Nat} {bs : List Byte} {c : Host.Cell}
    (h : c ∈ (m.writeList u a bs).cells) : c.1 < a + bs.length ∨ c ∈ m.cells := by
  induction bs generalizing m a with
  | nil => exact .inr h
  | cons b bs ih =>
    rw [List.length_cons]
    rcases ih h with hlt | hc
    · exact .inl (by omega)
    · exact (Memory.mem_write hc).imp_left fun hc => by rw [hc]; omega

theorem ringWrite_addr_lt (hcap : 0 < s.cfg.histCap) (h : ∀ c ∈ s.hist.cells, c.1 < s.cfg.histCap) (bs : List Byte) :
    ∀ c ∈ (s.ringWrite bs).hist.cells, c.1 < s.cfg.histCap := by
  induction bs generalizing s with
  | nil => exact h
  | cons b bs ih =>
    refine ih (s := s.ringWriteByte b) hcap fun c hc => ?_
    rcases Memory.mem_write hc with rfl | hc
    · exact Nat.mod_lt _ hcap
    · exact h c hc

theorem append_ringInv (h : s.RingInv) (bs : List Byte) : (s.append bs).RingInv where
  cap_pos := by
    rw [State.append_cfg]
    exact h.cap_pos
  idx_lt := by
    rw [State.append_cfg, State.append_histIdx, State.histIdx_ringWrite fun _ => h.idx_lt]
    exact Nat.mod_lt _ h.cap_pos
  canonical := by
    rw [State.append_cfg, State.append_hist]
    exact State.ringWrite_wf bs h.canonical
  addr_lt := by
    rw [State.append_cfg, State.append_hist]
    exact ringWrite_addr_lt h.cap_pos h.addr_lt bs

theorem append_outInv (h : s.OutInv) {bs : List Byte} (hroom : bs.length ≤ outCap - s.outCnt) : (s.append bs).OutInv where
  cnt_le := by
    have hle := h.cnt_le
    rw [State.append_outCnt]
    omega
  canonical := by
    rw [State.append_out]
    exact State.writeOut_wf bs h.canonical
  addr_lt := by
    have hle := h.cnt_le
    rw [State.append_out]
    intro c hc
    rcases Memory.mem_writeList hc with hlt | hc
    · omega
    · exact h.addr_lt c hc
  filled := by
    rw [State.append_outCnt, State.append_out]
    intro a ha
    rw [Memory.get?_writeList]
    split
    · rw [List.getElem?_eq_getElem (by omega)]
      rfl
    · exact h.filled a (by omega)

/-! ### Tokens keep the invariant -/

theorem controlInv_loopTest (herr : s.err = none) : s.loopTest.ControlInv := by
  have herr' : ¬s.loopTest.err.isSome = true := by
    rw [State.loopTest_err, herr]
    decide
  have hfailed := iff_of_false herr' (loopTest_ne_failed s)
  by_cases h : 0 < s.bitsRem
  · have hstate : s.loopTest.state = .readSelector := if_pos h
    exact ⟨.inl hstate, fun _ => h, hfailed⟩
  · have hstate : s.loopTest.state = .done := if_neg h
    exact ⟨.inr (.inl hstate), fun hs => absurd (hstate.symm.trans hs) (by decide), hfailed⟩

theorem controlInv_enterFailed (k : ErrKind) : (s.enterFailed k).ControlInv :=
  ⟨.inr (.inr rfl), fun h => (by cases h), iff_of_true rfl rfl⟩

theorem busy_of_readSelector (h : s.state = .readSelector) : s.busy = true := by
  rw [State.busy, h]
  rfl

/-- At a token boundary nothing is presented (rule R270). -/
theorem State.HostInv.presented_none (h : s.HostInv) (hbusy : s.busy = true) : s.presented = none := by
  cases hp : s.presented with
  | none => rfl
  | some seg => cases (h.presented_idle (by rw [hp]; rfl)).symm.trans hbusy

theorem State.ControlInv.err_none (h : s.ControlInv) (hstate : s.state ≠ .failed) : s.err = none := by
  cases he : s.err with
  | none => rfl
  | some k => exact absurd (h.err_failed.mp (by rw [he]; rfl)) hstate

/-- What a token's work keeps of the host. -/
theorem sameHost_of_worked (h : s.HostInv) (hbusy : s.busy = true) {v : State} (hwork : Worked s v) :
    SameHost { s with presented := none } v := by
  have hnone := h.presented_none hbusy
  rw [hwork]
  exact ⟨rfl, rfl, hnone, rfl, rfl, rfl, rfl, rfl, rfl, rfl, rfl, rfl, rfl, rfl⟩

theorem sameHost_append {u v : State} (h : SameHost u v) (bs : List Byte) : SameHost u (v.append bs).loopTest := by
  rw [State.append_eq]
  exact ⟨h.cfg, h.calls, h.presented, h.phase, h.input, h.offset, h.cursor, h.segmentCount, h.segIndex,
    h.uncompressedSize, h.segmentSize, h.total, h.result, h.ret⟩

theorem sameHost_enterFailed {u v : State} (h : SameHost u v) (k : ErrKind) : SameHost u (v.enterFailed k) :=
  ⟨h.cfg, h.calls, h.presented, h.phase, h.input, h.offset, h.cursor, h.segmentCount, h.segIndex,
    h.uncompressedSize, h.segmentSize, h.total, h.result, h.ret⟩

/-- The parts of the invariant that a token's work keeps. -/
theorem SoundWork.parts {v : State} (h : SoundWork s v) (hs : s.Inv) :
    v.RingInv ∧ v.OutInv ∧ v.inLen < 2 ^ 32 ∧ v.TokenWidths ∧ v.err = s.err ∧ v.outCnt = s.outCnt := by
  have hlen := hs.widths.inLen
  have hwork := h.work
  exact ⟨hs.ring.congr (by rw [hwork]) (by rw [hwork]) (by rw [hwork]), hs.out.congr (by rw [hwork]) (by rw [hwork]),
    by rw [hwork]; exact hlen, h.widths hs.widths.token, by rw [hwork], by rw [hwork]⟩

/-- The invariant of a core that has moved on while the host has not (rules R26, R270). -/
theorem inv_of_core (hs : s.Inv) (hhost : SameHost { s with presented := none } t)
    (hphase : t.busy = true → s.phase ≠ .multiNext) (ring : t.RingInv) (out : t.OutInv) (reader : t.ReaderInv)
    (control : t.ControlInv) (hlen : t.inLen < 2 ^ 32) (hwidths : t.TokenWidths) : t.Inv where
  tables := by
    rw [hhost.cfg]
    exact hs.tables
  ring := ring
  out := out
  reader := reader
  control := control
  host := hs.host.of_core hhost hphase
  widths := widths_of_parts hlen reader out hwidths (hs.widths.host.of_core hhost)

theorem enterFailed_inv {v : State} (hs : s.Inv) (hstate : s.state = .readSelector) (h : SoundWork s v) (k : ErrKind) :
    (v.enterFailed k).Inv := by
  obtain ⟨hring, hout, hlen, hwidths, _, _⟩ := h.parts hs
  have hbusy := busy_of_readSelector hstate
  exact inv_of_core hs (sameHost_enterFailed (sameHost_of_worked hs.host hbusy h.work) k)
    (fun _ => hs.host.busy_phase hbusy) (hring.congr rfl rfl rfl) (hout.congr rfl rfl) (enterFailed_readerInv h.reader)
    (controlInv_enterFailed k) hlen (hwidths.congr rfl ⟨rfl, rfl, rfl, rfl, rfl, rfl, rfl⟩)

theorem append_loopTest_inv {v : State} (hs : s.Inv) (hstate : s.state = .readSelector) (h : SoundWork s v)
    {bytes : List Byte} (hroom : bytes.length ≤ outCap - s.outCnt) : (v.append bytes).loopTest.Inv := by
  obtain ⟨hring, hout, hlen, hwidths, herr, hcnt⟩ := h.parts hs
  have hbusy := busy_of_readSelector hstate
  have herr' : (v.append bytes).err = none := by
    rw [State.append_err, herr]
    exact hs.control.err_none (by rw [hstate]; decide)
  exact inv_of_core hs (sameHost_append (sameHost_of_worked hs.host hbusy h.work) bytes)
    (fun _ => hs.host.busy_phase hbusy) ((append_ringInv hring bytes).congr rfl rfl rfl)
    ((append_outInv hout (hcnt ▸ hroom)).congr rfl rfl) (h.reader.congr (State.append_loopTest_sameAround v bytes).reader)
    (controlInv_loopTest herr') (by rw [State.loopTest_inLen, State.append_inLen]; exact hlen)
    (hwidths.congr (v.append_cfg bytes) (State.append_loopTest_sameWorking v bytes))

theorem token_step_inv (hs : s.Inv) (hstate : s.state = .readSelector) (h : step s = .next t) : t.Inv := by
  cases step_next_sound hs.reader hstate h with
  | failed hwork k => exact enterFailed_inv hs hstate hwork k
  | completed hwork _ bytes hroom _ _ _ => exact append_loopTest_inv hs hstate hwork hroom

/-! ### Segments keep the invariant -/

theorem Headed.sameHost {u : State} (h : Headed s u) : SameHost { s with presented := none } u := by
  rw [h]
  exact ⟨rfl, rfl, rfl, rfl, rfl, rfl, rfl, rfl, rfl, rfl, rfl, rfl, rfl, rfl⟩

/-- The parts of the invariant at the start of a segment (rules R220, R290). -/
theorem Headed.parts {u : State} (h : Headed s u) (hs : s.Inv) :
    u.RingInv ∧ u.OutInv ∧ u.ReaderInv ∧ u.inLen < 2 ^ 32 ∧ u.TokenWidths := by
  have hlen := hs.widths.inLen
  rw [h]
  exact ⟨hs.ring.congr rfl rfl rfl, hs.out.restarted rfl rfl, hs.reader.congr ⟨rfl, rfl, rfl, rfl, rfl, rfl⟩, hlen,
    hs.widths.token.congr rfl ⟨rfl, rfl, rfl, rfl, rfl, rfl, rfl⟩⟩

theorem controlInv_done (hstate : s.state = .done) (herr : s.err = none) : s.ControlInv :=
  ⟨.inr (.inl hstate), fun h => absurd (hstate.symm.trans h) (by decide), by simp [hstate, herr]⟩

theorem readerInv_initReader (s : State) {bytes : List Byte} {n : Nat} (hn : n ≤ 8 * bytes.length) :
    (s.initReader bytes n).ReaderInv :=
  ⟨rfl, Nat.zero_le _, Nat.zero_le _, .inl ⟨rfl, rfl⟩, hn⟩

theorem segment_step_inv {seg : List Byte} (hs : s.Inv) (hseg : s.presented = some seg) (h : SegmentStep s seg t) :
    t.Inv := by
  have hphase : s.phase ≠ .multiNext := hs.host.presented_phase (by rw [hseg]; rfl)
  cases h with
  | failed hhead k =>
    obtain ⟨hring, hout, hreader, hlen, hwidths⟩ := hhead.parts hs
    exact inv_of_core hs (sameHost_enterFailed hhead.sameHost k) (fun _ => hphase) (hring.congr rfl rfl rfl)
      (hout.congr rfl rfl) (enterFailed_readerInv hreader) (controlInv_enterFailed k) hlen
      (hwidths.congr rfl ⟨rfl, rfl, rfl, rfl, rfl, rfl, rfl⟩)
  | @raw u c body hhead _ _ hfits =>
    obtain ⟨hring, hout, hreader, hlen, hwidths⟩ := hhead.parts hs
    have hroom : body.length ≤ outCap - u.outCnt := by
      rw [hhead]
      exact hfits
    have herr : (u.append body).err = none := by rw [State.append_err, hhead]
    obtain ⟨r1, r2, r3, r4, r5, r6⟩ := (State.append_loopTest_sameAround u body).reader
    obtain ⟨h1, h2, h3, h4, h5, h6, h7, h8, h9, h10, h11, h12, h13, h14⟩ := sameHost_append hhead.sameHost body
    obtain ⟨w1, w2, w3, w4, w5, w6, w7⟩ := State.append_loopTest_sameWorking u body
    exact inv_of_core hs ⟨h1, h2, h3, h4, h5, h6, h7, h8, h9, h10, h11, h12, h13, h14⟩ (fun _ => hphase)
      ((append_ringInv hring body).congr rfl rfl rfl) ((append_outInv hout hroom).congr rfl rfl)
      (hreader.congr ⟨r1, r2, r3, r4, r5, r6⟩) (controlInv_done rfl herr)
      (by rw [← u.append_inLen body] at hlen; exact hlen)
      (hwidths.congr (u.append_cfg body) ⟨w1, w2, w3, w4, w5, w6, w7⟩)
  | @opened u hhead bytes n hbytes hn =>
    obtain ⟨hring, hout, _, _, hwidths⟩ := hhead.parts hs
    obtain ⟨h1, h2, h3, h4, h5, h6, h7, h8, h9, h10, h11, h12, h13, h14⟩ := hhead.sameHost
    have herr : (u.initReader bytes n).err = none := by rw [hhead]; rfl
    exact inv_of_core hs ⟨h1, h2, h3, h4, h5, h6, h7, h8, h9, h10, h11, h12, h13, h14⟩ (fun _ => hphase)
      (hring.congr rfl rfl rfl) (hout.congr rfl rfl)
      ((readerInv_initReader u hn).congr ⟨rfl, rfl, rfl, rfl, rfl, rfl⟩) (controlInv_loopTest herr) hbytes
      (hwidths.congr rfl ⟨rfl, rfl, rfl, rfl, rfl, rfl, rfl⟩)

/-! ### Session resets keep the invariant -/

theorem resetContext_inv (hs : s.Inv) (hnone : s.presented = none) :
    (State.resetContext { s with calls := s.calls.tail }).Inv := by
  have hreset := resetWith_inv hs.ring.cap_pos hs.tables
  exact {
    tables := hs.tables
    ring := hreset.ring.congr rfl rfl rfl
    out := hreset.out.congr rfl rfl
    reader := hreset.reader.congr ⟨rfl, rfl, rfl, rfl, rfl, rfl⟩
    control := controlInv_done rfl rfl
    host := ⟨fun _ => rfl, fun hp => absurd (show s.presented.isSome = true from hp) (by rw [hnone]; decide),
      fun hb => (by cases hb), hs.host.total_eq, hs.host.total_le, hs.host.index_le, hs.host.index_lt, hs.host.cursor_le,
      hs.host.segment_le⟩
    widths := widths_of_parts (Nat.two_pow_pos _) (hreset.reader.congr ⟨rfl, rfl, rfl, rfl, rfl, rfl⟩)
      (hreset.out.congr rfl rfl) (hreset.widths.token.congr rfl ⟨rfl, rfl, rfl, rfl, rfl, rfl, rfl⟩)
      ⟨hs.widths.segmentCount, hs.widths.uncompressedSize, hs.widths.segmentSize, hs.widths.total⟩ }

/-! ### The host keeps the invariant -/

theorem HostOnly.busy_eq (h : HostOnly s t) : t.busy = s.busy := by
  rw [h]
  rfl

/-- An act of the host leaves the core's part of the invariant (rules R26, R294). -/
theorem inv_of_hostOnly (hs : s.Inv) (h : HostOnly s t) (host : t.HostInv) (hwidths : t.HostWidths) : t.Inv := by
  have hlen := hs.widths.inLen
  have hcontrol := hs.control
  have hreader : t.ReaderInv := hs.reader.congr (by rw [h]; exact ⟨rfl, rfl, rfl, rfl, rfl, rfl⟩)
  have hout : t.OutInv := hs.out.congr (by rw [h]) (by rw [h])
  exact {
    tables := by
      rw [h]
      exact hs.tables
    ring := hs.ring.congr (by rw [h]) (by rw [h]) (by rw [h])
    out := hout
    reader := hreader
    control := by
      rw [h]
      exact ⟨hcontrol.boundary, hcontrol.budget_pos, hcontrol.err_failed⟩
    host := host
    widths := widths_of_parts (by rw [h]; exact hlen) hreader hout
      (hs.widths.token.congr (by rw [h]) (by rw [h]; exact ⟨rfl, rfl, rfl, rfl, rfl, rfl, rfl⟩)) hwidths }

/-- With no frame open there is nothing to say of a frame's registers. -/
theorem hostInv_of_no_frame (hbusy : s.busy = false) (h1 : s.phase ≠ .multiNext) (h2 : s.phase ≠ .multiWait) :
    s.HostInv :=
  ⟨fun _ => hbusy, fun _ => h1, fun _ => h1, fun h => absurd h (not_or_intro h1 h2),
    fun h => absurd h (not_or_intro h1 h2), fun h => absurd h h1, fun h => absurd h h2, fun h => absurd h h1,
    fun h => absurd h h2⟩

theorem host_act_inv (hs : s.Inv) (hbusy : s.busy = false) (hnone : s.presented = none) (h : HostAct s t) : t.Inv := by
  have honly := h.hostOnly
  have hbusy' : t.busy = false := honly.busy_eq.trans hbusy
  have hw := hs.widths.host
  cases h with
  | stay _ => exact hs
  | bare hphase seg rest =>
    exact inv_of_hostOnly hs honly (hostInv_of_no_frame hbusy' (fun h => by cases hphase.symm.trans h)
      fun h => by cases hphase.symm.trans h) ⟨hw.segmentCount, hw.uncompressedSize, hw.segmentSize, hw.total⟩
  | answer hhost _ hwidths r =>
    obtain ⟨w1, w2, w3, w4⟩ := hwidths hw
    exact inv_of_hostOnly hs honly (hostInv_of_no_frame hbusy' (by rintro ⟨⟩) (by rintro ⟨⟩)) ⟨w1, w2, w3, w4⟩
  | single hphase hhost hwidths seg =>
    obtain ⟨w1, w2, w3, w4⟩ := hwidths hw
    exact inv_of_hostOnly hs honly (hostInv_of_no_frame hbusy' (by rintro ⟨⟩) (by rintro ⟨⟩)) ⟨w1, w2, w3, w4⟩
  | @multi u hphase hhost hnone' hwidths p hp =>
    refine inv_of_hostOnly hs honly ⟨fun _ => hbusy', fun h => ?_, fun h => ?_, fun _ => rfl, fun _ => Nat.zero_le _,
      fun _ => Nat.zero_le _, (by rintro ⟨⟩), fun _ => hp, (by rintro ⟨⟩)⟩
      ⟨inputField_lt _ _ _, inputField_lt _ _ _, (hwidths hw).segmentSize, Nat.two_pow_pos _⟩
    · exact absurd (show u.presented.isSome = true from h) (by rw [hnone']; decide)
    · cases hbusy'.symm.trans h
  | next hphase hleft hfits =>
    exact inv_of_hostOnly hs honly ⟨fun _ => hbusy', fun _ => (by rintro ⟨⟩), fun _ => (by rintro ⟨⟩),
      fun _ => hs.host.total_eq (.inl hphase), fun _ => hs.host.total_le (.inl hphase), (by rintro ⟨⟩), fun _ => hleft,
      (by rintro ⟨⟩), fun _ => hfits⟩ ⟨hw.segmentCount, hw.uncompressedSize, inputField_lt _ _ _, hw.total⟩
  | collected hphase hfits bytes hbytes =>
    have hcount : bytes.length = s.outCnt := by
      cases hbytes.symm.trans hs.out.outBytes_eq
      exact Memory.bytesFrom_length _ _ _
    have htotal := hs.host.total_eq (.inr hphase)
    have hsize := hw.uncompressedSize
    refine inv_of_hostOnly hs honly ⟨fun _ => hbusy', fun h => ?_, fun h => ?_, fun _ => ?_, fun _ => hfits,
      fun _ => hs.host.index_lt hphase, (by rintro ⟨⟩), fun _ => hs.host.segment_le hphase, (by rintro ⟨⟩)⟩
      ⟨hw.segmentCount, hw.uncompressedSize, hw.segmentSize, ?_⟩
    · exact absurd (show s.presented.isSome = true from h) (by rw [hnone]; decide)
    · cases hbusy'.symm.trans h
    · dsimp only
      rw [List.length_append, htotal, hcount]
    · dsimp only
      omega
end

/-- Settles O48: each kind of step keeps it. -/
theorem stepKeepsTheInvariant : Obligations.StepKeepsTheInvariant := by
  intro s t hs h
  cases step_kind h with
  | token hstate _ => exact token_step_inv hs hstate h
  | segment _ hseg h => exact segment_step_inv hs hseg h
  | reset hdue =>
    obtain ⟨_, hnone, _⟩ := hdue
    exact resetContext_inv hs hnone
  | host hbusy hnone _ h => exact host_act_inv hs hbusy hnone h

/-! ### Progress (rules R73, R322) -/

theorem SoundStep.exists_next {s : State} {o : Outcome} (h : SoundStep s o) : ∃ t, o = .next t := by
  cases h with
  | failed _ k => exact ⟨_, rfl⟩
  | completed _ _ bytes _ _ _ _ => exact ⟨_, rfl⟩

theorem not_busy_of_ne_readSelector {s : State} (h : s.ControlInv) (hstate : s.state ≠ .readSelector) :
    s.busy = false := by
  rcases h.boundary with hs | hs | hs
  · exact absurd hs hstate
  · rw [State.busy, hs]
    rfl
  · rw [State.busy, hs]
    rfl

/-- Settles O50: a token goes on, a segment starts unless it is too long, and the host's read of `OUT` succeeds. -/
theorem soundStatesGoOn : Obligations.SoundStatesGoOn := by
  intro s hs
  by_cases hstate : s.state = .readSelector
  · exact .inl (step_sound hs.reader hs.tables hstate).exists_next
  have hbusy := not_busy_of_ne_readSelector hs.control hstate
  cases hseg : s.presented with
  | some seg =>
    rcases step_segment_cases hbusy hseg with ⟨hlong, h⟩ | ⟨_, t, h, _⟩
    · exact .inr ⟨h, seg, rfl, hlong⟩
    · exact .inl ⟨t, h⟩
  | none =>
    rcases step_host_cases hbusy hseg with ⟨_, h⟩ | ⟨_, t, h, _⟩ | ⟨f, hf, _⟩
    · exact .inl ⟨_, h⟩
    · exact .inl ⟨t, h⟩
    · cases hf.symm.trans hs.out.outBytes_eq

end Sys2Proof.Machine

/-! PROOFS. The tail of the ring is the tail of the output (rule R208). -/

namespace Sys2Proof.Machine

theorem State.TailAgrees.congr {s t : State} (h : s.TailAgrees) (hcfg : t.cfg = s.cfg) (hhist : t.hist = s.hist)
    (hidx : t.histIdx = s.histIdx) (hout : t.out = s.out) (hcnt : t.outCnt = s.outCnt) : t.TailAgrees := by
  intro k hk
  rw [hcnt, hcfg] at hk
  rw [hout, hcnt, hidx, hcfg, State.histByte, hhist, hcfg]
  exact h k hk

/-- The ring address `k + 1` bytes before the index, after `n` bytes have been written, for a `k` among them. -/
theorem tail_addr_new {idx cap n k : Nat} (hk : k < n) (hcap : k < cap) :
    ((idx + n) % cap + cap - 1 - k) % cap = (idx + (n - 1 - k)) % cap := by
  rw [show (idx + n) % cap + cap - 1 - k = (idx + n) % cap + (cap - 1 - k) by omega, Nat.mod_add_mod,
    show idx + n + (cap - 1 - k) = idx + (n - 1 - k) + cap by omega, Nat.add_mod_right]

/-- The same address for a `k` before them. -/
theorem tail_addr_old {idx cap n k : Nat} (hk : n ≤ k) (hcap : k < cap) :
    ((idx + n) % cap + cap - 1 - k) % cap = (idx + cap - 1 - (k - n)) % cap := by
  rw [show (idx + n) % cap + cap - 1 - k = (idx + n) % cap + (cap - 1 - k) by omega, Nat.mod_add_mod]
  congr 1
  omega

/-- An address before the written bytes is none of theirs while the ring has not come round to it. -/
theorem tail_addr_ne {idx cap n k i : Nat} (hk : n ≤ k) (hcap : k < cap) (hi : i < n) :
    (idx + cap - 1 - (k - n)) % cap ≠ (idx + i) % cap := by
  have h := add_mod_ne_mod (h := idx + i) (k := cap - 1 - (k - n) - i) (n := cap) (by omega) (by omega)
  rwa [show idx + i + (cap - 1 - (k - n) - i) = idx + cap - 1 - (k - n) by omega] at h

/-- `emit` appends the same bytes to both tails. -/
theorem append_tailAgrees {s : State} (hs : s.RingInv) (h : s.TailAgrees) (bytes : List Byte) :
    (s.append bytes).TailAgrees := by
  obtain ⟨hcnt, hidx, hnew, hold, hhist, hhold⟩ := State.append_emitted (s := s) (bs := bytes) fun _ => hs.idx_lt
  intro k hk
  rw [hcnt, State.append_cfg] at hk
  rw [hcnt, hidx, State.append_cfg]
  by_cases hin : k < bytes.length
  · rw [show s.outCnt + bytes.length - 1 - k = s.outCnt + (bytes.length - 1 - k) by omega, hnew _ (by omega),
      ← hhist _ (by omega) (by omega)]
    exact congrArg some (State.histByte_congr (by
      rw [State.append_cfg]
      exact (tail_addr_new hin (by omega)).symm))
  · have haddr : (s.append bytes).histByte ((s.histIdx + bytes.length) % s.cfg.histCap + s.cfg.histCap - 1 - k) =
        (s.append bytes).histByte (s.histIdx + s.cfg.histCap - 1 - (k - bytes.length)) :=
      State.histByte_congr (by
        rw [State.append_cfg]
        exact tail_addr_old (by omega) (by omega))
    rw [haddr, hhold _ fun i hi => tail_addr_ne (by omega) (by omega) hi, hold _ (.inl (by omega)),
      show s.outCnt + bytes.length - 1 - k = s.outCnt - 1 - (k - bytes.length) by omega]
    exact h _ (by omega)

/-- Settles O49: only what is emitted changes either tail, and a segment start or a session reset empties the output. -/
theorem stepKeepsTheTailsEqual : Obligations.StepKeepsTheTailsEqual := by
  intro s t hs htail h
  cases step_kind h with
  | token _ h =>
    cases h with
    | failed hwork k =>
      exact htail.congr (by rw [hwork]; rfl) (by rw [hwork]; rfl) (by rw [hwork]; rfl) (by rw [hwork]; rfl)
        (by rw [hwork]; rfl)
    | @completed u hwork bytes _ =>
      have hring : u.RingInv := hs.ring.congr (by rw [hwork]) (by rw [hwork]) (by rw [hwork])
      have hu : u.TailAgrees := htail.congr (by rw [hwork]) (by rw [hwork]) (by rw [hwork]) (by rw [hwork]) (by rw [hwork])
      exact (append_tailAgrees hring hu bytes).congr rfl rfl rfl rfl rfl
  | segment _ _ h =>
    cases h with
    | failed hhead k => exact tailAgrees_of_outCnt (by rw [hhead]; rfl)
    | @raw u c body hhead _ _ _ =>
      have hu : u.TailAgrees := tailAgrees_of_outCnt (by rw [hhead])
      exact (append_tailAgrees (hhead.parts hs).1 hu body).congr rfl rfl rfl rfl rfl
    | opened hhead bytes n _ _ => exact tailAgrees_of_outCnt (by rw [hhead]; rfl)
  | reset _ => exact tailAgrees_of_outCnt rfl
  | host _ _ _ h =>
    rw [h.hostOnly]
    exact htail.congr rfl rfl rfl rfl rfl

end Sys2Proof.Machine

/-! PROOFS. Every segment decode ends and every call returns (rules R224, R260, R322). -/

namespace Sys2Proof.Machine

/-! ### Runs -/

theorem run_succ {s t : State} (h : step s = .next t) (k : Nat) :
    Host.Core.run core (k + 1) s = Host.Core.run core k t := by
  have hstep : core.step s = .next t := h
  simp only [Host.Core.run, hstep]

theorem run_one {s t : State} (h : step s = .next t) : Host.Core.run core 1 s = .next t := run_succ h 0

theorem run_add {k m : Nat} {s t u : State} (h : Host.Core.run core k s = .next t) (h' : Host.Core.run core m t = .next u) :
    Host.Core.run core (k + m) s = .next u := by
  induction k generalizing s with
  | zero =>
    cases h
    rwa [Nat.zero_add]
  | succ k ih =>
    cases hstep : step s with
    | next v =>
      rw [run_succ hstep] at h
      rw [Nat.succ_add, run_succ hstep]
      exact ih h
    | fault f =>
      have hstep : core.step s = .fault f := hstep
      simp only [Host.Core.run, hstep] at h
      cases h
    | refused r =>
      have hstep : core.step s = .refused r := hstep
      simp only [Host.Core.run, hstep] at h
      cases h

/-! ### A segment decode ends (rule R224) -/

theorem TokenStep.sameHost {s t : State} (h : TokenStep s t) : SameHost s t := by
  cases h with
  | failed hwork k => exact (hwork.failedWith k).host
  | completed hwork bytes _ =>
    refine sameHost_append ?_ bytes
    rw [hwork]
    exact ⟨rfl, rfl, rfl, rfl, rfl, rfl, rfl, rfl, rfl, rfl, rfl, rfl, rfl, rfl⟩

theorem SameHost.trans {s t u : State} (h : SameHost s t) (h' : SameHost t u) : SameHost s u :=
  ⟨h'.cfg.trans h.cfg, h'.calls.trans h.calls, h'.presented.trans h.presented, h'.phase.trans h.phase,
    h'.input.trans h.input, h'.offset.trans h.offset, h'.cursor.trans h.cursor, h'.segmentCount.trans h.segmentCount,
    h'.segIndex.trans h.segIndex, h'.uncompressedSize.trans h.uncompressedSize, h'.segmentSize.trans h.segmentSize,
    h'.total.trans h.total, h'.result.trans h.result, h'.ret.trans h.ret⟩

/-- The machine at a token boundary is idle after one token for every `n` bits of its budget, where no token is shorter
than `n` bits; the host has not moved. -/
theorem decode_ends {n : Nat} {s : State} (hs : s.Inv) (hstate : s.state = .readSelector)
    (hn : ∀ c f, Decoded s.cfg c f → n ≤ formLength f) :
    ∃ k t, k * n < s.bitsRem + n ∧ Host.Core.run core k s = .next t ∧ t.busy = false ∧ t.Inv ∧ SameHost s t := by
  induction hm : s.bitsRem using Nat.strong_induction_on generalizing s with
  | _ m ih =>
    subst hm
    have hpos := hs.control.budget_pos hstate
    obtain ⟨t, hstep⟩ := (step_sound hs.reader hs.tables hstate).exists_next
    have ht := stepKeepsTheInvariant s t hs hstep
    have hhost := (step_token_next hstate hstep).sameHost
    by_cases hmore : t.state = .readSelector
    · obtain ⟨_, hrem⟩ := consumed_of_completed hs.reader hstate hstep (by rw [hmore]; decide) hn
      obtain ⟨_, hless⟩ := consumed_of_completed hs.reader hstate hstep (by rw [hmore]; decide)
        fun _ _ => two_le_formLength hs.tables
      obtain ⟨k, u, hk, hrun, hu⟩ := ih t.bitsRem (by omega) ht hmore (by rw [hhost.cfg]; exact hn) rfl
      refine ⟨k + 1, u, ?_, (run_succ hstep k).trans hrun, hu.1, hu.2.1, hhost.trans hu.2.2⟩
      rw [Nat.succ_mul]
      omega
    · exact ⟨1, t, by omega, run_one hstep, not_busy_of_ne_readSelector ht.control hmore, ht, hhost⟩

/-- Settles O56. -/
theorem segmentDecodesEnd : Obligations.SegmentDecodesEnd := by
  intro s hs hstate
  constructor
  · obtain ⟨k, t, hk, hrun, hidle, _⟩ := decode_ends hs hstate fun _ _ => two_le_formLength hs.tables
    exact ⟨k, t, by omega, hrun, hidle⟩
  · intro href
    obtain ⟨k, t, hk, hrun, hidle, _⟩ := decode_ends hs hstate fun _ _ => five_le_formLength href
    exact ⟨k, t, by omega, hrun, hidle⟩

/-! ### The machine waits for its host -/

/-- A sound idle machine with nothing presented: the host is next. -/
structure Waiting (s : State) : Prop where
  sound : s.Inv
  idle : s.busy = false
  taken : s.presented = none

theorem Waiting.of_sameHost {s t : State} (hs : SameHost { s with presented := none } t) (ht : t.Inv)
    (hidle : t.busy = false) : Waiting t :=
  ⟨ht, hidle, hs.presented⟩

/-- A token boundary is left for an idle core, with the host where it was. -/
theorem settles_busy {s : State} (hs : s.Inv) (hstate : s.state = .readSelector) :
    ∃ k t, Host.Core.run core k s = .next t ∧ Waiting t ∧ SameHost { s with presented := none } t := by
  obtain ⟨k, t, _, hrun, hidle, ht, hhost⟩ := decode_ends hs hstate fun _ _ => two_le_formLength hs.tables
  have hnone := hs.host.presented_none (busy_of_readSelector hstate)
  have hsame : SameHost { s with presented := none } t :=
    ⟨hhost.cfg, hhost.calls, hhost.presented.trans hnone, hhost.phase, hhost.input, hhost.offset, hhost.cursor,
      hhost.segmentCount, hhost.segIndex, hhost.uncompressedSize, hhost.segmentSize, hhost.total, hhost.result, hhost.ret⟩
  exact ⟨k, t, hrun, .of_sameHost hsame ht hidle, hsame⟩

theorem SegmentStep.sameHost {s t : State} {seg : List Byte} (h : SegmentStep s seg t) :
    SameHost { s with presented := none } t := by
  cases h with
  | failed hhead k => exact sameHost_enterFailed hhead.sameHost k
  | @raw u _ body hhead _ _ _ =>
    obtain ⟨h1, h2, h3, h4, h5, h6, h7, h8, h9, h10, h11, h12, h13, h14⟩ := sameHost_append hhead.sameHost body
    exact ⟨h1, h2, h3, h4, h5, h6, h7, h8, h9, h10, h11, h12, h13, h14⟩
  | opened hhead bytes n _ _ =>
    obtain ⟨h1, h2, h3, h4, h5, h6, h7, h8, h9, h10, h11, h12, h13, h14⟩ := hhead.sameHost
    exact ⟨h1, h2, h3, h4, h5, h6, h7, h8, h9, h10, h11, h12, h13, h14⟩

/-- A sound machine finishes the segment in progress or presented, with the host where it was. -/
theorem settles {s : State} (hs : s.Inv) (hshort : ∀ seg, s.presented = some seg → seg.length < 2 ^ 32) :
    ∃ k t, Host.Core.run core k s = .next t ∧ Waiting t ∧ SameHost { s with presented := none } t := by
  by_cases hstate : s.state = .readSelector
  · exact settles_busy hs hstate
  have hbusy := not_busy_of_ne_readSelector hs.control hstate
  cases hseg : s.presented with
  | none =>
    exact ⟨0, s, rfl, ⟨hs, hbusy, hseg⟩, rfl, rfl, hseg, rfl, rfl, rfl, rfl, rfl, rfl, rfl, rfl, rfl, rfl, rfl⟩
  | some seg =>
    rcases step_segment_cases hbusy hseg with ⟨hlong, _⟩ | ⟨_, t, hstep, h⟩
    · exact absurd (hshort seg hseg) (Nat.not_lt.mpr hlong)
    · have ht := stepKeepsTheInvariant s t hs hstep
      by_cases hmore : t.state = .readSelector
      · obtain ⟨k, u, hrun, hu, hhost⟩ := settles_busy ht hmore
        have hsame : SameHost t u := ⟨hhost.cfg, hhost.calls, hhost.presented.trans h.sameHost.presented.symm, hhost.phase,
          hhost.input, hhost.offset, hhost.cursor, hhost.segmentCount, hhost.segIndex, hhost.uncompressedSize,
          hhost.segmentSize, hhost.total, hhost.result, hhost.ret⟩
        exact ⟨k + 1, u, (run_succ hstep k).trans hrun, hu, h.sameHost.trans hsame⟩
      · exact ⟨1, t, run_one hstep,
          .of_sameHost h.sameHost ht (not_busy_of_ne_readSelector ht.control hmore), h.sameHost⟩

/-! ### The call returns (rules R263 to R266) -/

/-- The machine reaches the end of the call. -/
def Returns (s : State) : Prop :=
  ∃ (k : Nat) (t : State), Host.Core.run core k s = .next t ∧ t.phase = .idle ∧ t.ret.isSome = true

theorem Returns.of_run {s t : State} {k : Nat} (h : Host.Core.run core k s = .next t) (ht : Returns t) : Returns s := by
  obtain ⟨m, u, hrun, hu⟩ := ht
  exact ⟨k + m, u, run_add h hrun, hu⟩

theorem Returns.of_step {s t : State} (h : step s = .next t) (ht : Returns t) : Returns s := .of_run (run_one h) ht

theorem returns_answer {s u : State} {r : CallResult} (h : step s = .next (u.hostReturn r)) : Returns s :=
  ⟨1, _, run_one h, rfl, rfl⟩

/-- What a waiting machine does next, with a frame open. -/
theorem Waiting.step {s : State} (hs : Waiting s) :
    (s.resetDue ∧ step s = .next (State.resetContext { s with calls := s.calls.tail })) ∨
      ∃ t, step s = .next t ∧ HostAct s t := by
  rcases step_host_cases hs.idle hs.taken with h | ⟨_, h⟩ | ⟨f, hf, _⟩
  · exact .inl h
  · exact .inr h
  · cases hf.symm.trans hs.sound.out.outBytes_eq

theorem returns_single {s : State} (hs : Waiting s) (hphase : s.phase = .single) : Returns s := by
  rcases hs.step with ⟨⟨_, _, ⟨hidle, _⟩ | ⟨hnext, _⟩⟩, _⟩ | ⟨t, hstep, h⟩
  · cases hphase.symm.trans hidle
  · cases hphase.symm.trans hnext
  · cases h with
    | answer _ _ _ r => exact returns_answer hstep
    | _ => simp_all only [reduceCtorEq]

/-- After a segment of a multipart frame the call returns or the loop goes on with the next one. -/
theorem returns_multiWait {s : State} (hs : Waiting s) (hphase : s.phase = .multiWait)
    (hloop : ∀ t, Waiting t → t.phase = .multiNext → t.segmentCount = s.segmentCount → t.segIndex = s.segIndex + 1 →
      Returns t) : Returns s := by
  rcases hs.step with ⟨⟨_, _, ⟨hidle, _⟩ | ⟨hnext, _⟩⟩, _⟩ | ⟨t, hstep, h⟩
  · cases hphase.symm.trans hidle
  · cases hphase.symm.trans hnext
  · have ht := stepKeepsTheInvariant s t hs.sound hstep
    cases h with
    | answer _ _ _ r => exact returns_answer hstep
    | collected _ _ bytes _ => exact .of_step hstep (hloop _ ⟨ht, hs.idle, hs.taken⟩ rfl rfl rfl)
    | _ => simp_all only [reduceCtorEq]

/-- At the head of the loop the call returns, or a segment is presented, or a session reset takes a command: one of the
two numbers falls. -/
theorem returns_multiNext {s : State} (hs : Waiting s) (hphase : s.phase = .multiNext) : Returns s := by
  rcases hs.step with ⟨⟨_, _, hwhere⟩, hstep⟩ | ⟨t, hstep, h⟩
  · have ht := stepKeepsTheInvariant _ _ hs.sound hstep
    have hshorter : s.calls.tail.length < s.calls.length := by
      rcases hwhere with ⟨hidle, _⟩ | ⟨_, rest, hcalls⟩
      · cases hphase.symm.trans hidle
      · rw [hcalls]
        exact Nat.lt_succ_self _
    exact .of_step hstep (returns_multiNext ⟨ht, rfl, hs.taken⟩ hphase)
  · have ht := stepKeepsTheInvariant s t hs.sound hstep
    cases h with
    | answer _ _ _ r => exact returns_answer hstep
    | next _ hleft hfits =>
      obtain ⟨k, u, hrun, hu, hhost⟩ := settles ht fun seg hseg => by
        cases hseg
        exact (List.length_take_le _ _).trans_lt (inputField_lt s.input s.cursor 4)
      refine .of_step hstep (.of_run hrun (returns_multiWait hu hhost.phase fun v hv hvphase hcount hindex => ?_))
      have hcount' : v.segmentCount = s.segmentCount := hcount.trans hhost.segmentCount
      have hindex' : v.segIndex = s.segIndex + 1 := hindex.trans (congrArg (· + 1) hhost.segIndex)
      exact returns_multiNext hv hvphase
    | _ => simp_all only [reduceCtorEq]
termination_by (s.segmentCount - s.segIndex, s.calls.length)
decreasing_by
  · exact Prod.Lex.right _ hshorter
  · exact Prod.Lex.left _ _ (by omega)

/-- Settles O57: the segment in progress ends, and then the frame's phase says what is left. -/
theorem everyCallReturns : Obligations.EveryCallReturns := by
  intro s hs hphase hshort
  obtain ⟨k, u, hrun, hu, hhost⟩ := settles hs hshort
  refine Returns.of_run hrun ?_
  cases hu' : u.phase with
  | idle => exact absurd (hhost.phase.symm.trans hu') hphase
  | single => exact returns_single hu hu'
  | multiNext => exact returns_multiNext hu hu'
  | multiWait =>
    exact returns_multiWait hu hu' fun t ht htphase _ _ => returns_multiNext ht htphase

end Sys2Proof.Machine

/-! PROOFS. The end-to-end properties S1, S2 and S3 (95_test_vectors.md): a raw frame, and compressed segments of one
token. -/

namespace Sys2Proof.Machine

/-- What is emitted depends on both memories, their registers and the parameters only. -/
theorem Emitted.congr_left {bs : List Byte} {s u t : State} (h : Emitted bs u t) (hcfg : u.cfg = s.cfg)
    (hhist : u.hist = s.hist) (hidx : u.histIdx = s.histIdx) (hout : u.out = s.out) (hcnt : u.outCnt = s.outCnt) :
    Emitted bs s t := by
  have hbyte (a : Nat) : u.histByte a = s.histByte a := by rw [State.histByte, State.histByte, hhist, hcfg]
  obtain ⟨h1, h2, h3, h4, h5, h6⟩ := h
  rw [hcnt] at h1 h3 h4
  rw [hidx] at h2 h5 h6
  rw [hcfg] at h2 h5 h6
  rw [hout] at h4
  exact ⟨h1, h2, h3, h4, h5, fun a ha => (h6 a ha).trans (hbyte a)⟩

/-! ### A raw frame (property S1) -/

/-- The output after a raw segment is its body (rules R62, R222). -/
theorem outBytes_of_emitted {s t : State} {body : List Byte} (ht : t.OutInv) (h : Emitted body s t)
    (hcnt : s.outCnt = 0) : t.outBytes = .ok body := by
  have hlen : t.outCnt = body.length := by rw [h.outCnt, hcnt, Nat.zero_add]
  rw [ht.outBytes_eq]
  congr 1
  refine List.ext_getElem? fun i => ?_
  by_cases hi : i < body.length
  · have hnew := h.outNew i hi
    rw [hcnt, Nat.zero_add] at hnew
    rw [ht.bytesFrom_getElem? (hlen ▸ hi), hnew]
  · rw [List.getElem?_eq_none (by rw [Memory.bytesFrom_length, hlen]; omega), List.getElem?_eq_none (by omega)]

/-- The host's registers once a single frame has been read (rule R263). -/
def State.singleFrame (s : State) (input : List Byte) (offset : Nat) (rest : List Command) (seg : List Byte) : State :=
  { s with calls := rest, input := input, offset := offset, presented := some seg, phase := .single, ret := none }

/-- A call on a single frame presents everything after the descriptor (rules R260, R263). -/
theorem step_singleFrame {s : State} {before seg : List Byte} {rest : List Command} (hbusy : s.busy = false)
    (hnone : s.presented = none) (hphase : s.phase = .idle)
    (hcalls : s.calls = .decompress (before ++ 0xE0 :: seg) before.length :: rest) :
    step s = .next (s.singleFrame (before ++ 0xE0 :: seg) before.length rest seg) := by
  have hdesc : (before ++ 0xE0 :: seg)[before.length]? = some 0xE0 := by simp
  rw [step_frame hbusy hnone hphase hcalls hdesc (i := .frameSingle) rfl, exec_frameSingle (by exact hbusy), drop_length_succ]
  rfl

/-- The raw segment of the frame (rule R222). -/
theorem step_rawSegment {s : State} {c : Byte} {body : List Byte} (hbusy : s.busy = false)
    (hseg : s.presented = some (c :: body)) (hc : compressed c = false) (hfits : body.length ≤ outCap) :
    step s = .next { (s.started c).append body with state := .done } := by
  have hlen : body.length + 1 < 2 ^ 32 := by
    simp only [outCap] at hfits
    omega
  rw [step_of_not_compressed hbusy hseg hc, exec_segRaw hbusy hseg hlen, if_pos hfits]

theorem step_collectSingle {s : State} {bytes : List Byte} (hbusy : s.busy = false) (hnone : s.presented = none)
    (hphase : s.phase = .single) (hdone : s.state = .done) (hbytes : s.outBytes = .ok bytes) :
    step s = .next (s.hostReturn (.ok bytes)) := by
  rw [step_single hbusy hnone hphase]
  rcases collectSingle_cases s with ⟨hf, _⟩ | ⟨_, bytes', hb, e⟩ | ⟨_, f, hb, _⟩
  · cases hdone.symm.trans hf
  · cases hbytes.symm.trans hb
    exact e
  · cases hbytes.symm.trans hb

/-- Settles O58: the frame presents the segment, the segment is emitted, the host collects the output. -/
theorem rawFramesReturnTheirBody : Obligations.RawFramesReturnTheirBody := by
  intro s before body ctrl rest hs hbusy hphase hnone hcalls hc hfits
  have hframe := step_singleFrame hbusy hnone hphase hcalls
  have hraw := step_rawSegment (s := s.singleFrame (before ++ 0xE0 :: ctrl :: body) before.length rest (ctrl :: body))
    hbusy rfl hc hfits
  have hinv := stepKeepsTheInvariant _ _ (stepKeepsTheInvariant _ _ hs hframe) hraw
  have hemitted := started_append_emitted
    (s := s.singleFrame (before ++ 0xE0 :: ctrl :: body) before.length rest (ctrl :: body)) ctrl (body := body)
    hs.ring.idx_lt
  have hcollect := step_collectSingle rfl (State.append_presented _ _) (State.append_phase _ _) rfl
    (outBytes_of_emitted hinv.out hemitted rfl)
  obtain ⟨h1, h2, h3, h4, h5, h6⟩ := hemitted.congr_left (s := { s with outCnt := 0 }) rfl rfl rfl rfl rfl
  exact ⟨_, (run_succ hframe 2).trans ((run_succ hraw 1).trans (run_one hcollect)), rfl, rfl, State.append_calls _ _, rfl,
    h1, h2, h3, h4, h5, h6⟩

/-! ### Compressed segments of one token (properties S2, S3) -/

section
variable {s : State} {ctrl pad : Byte} {bytes : List Byte}

theorem step_opened (hbusy : s.busy = false) (hc : compressed ctrl = true)
    (hseg : s.presented = some (ctrl :: (bytes ++ [pad]))) (hlen : bytes.length + 2 < 2 ^ 32) (hpad : pad.toNat ≤ 7)
    (hfits : pad.toNat ≤ 8 * bytes.length) : step s = .next (s.opened ctrl pad bytes) := by
  rw [step_of_compressed hbusy hseg hc, exec_segComp_opened hbusy hseg hlen hpad hfits]

/-- The bits of a segment are those of its bytes but for the padding (rules R94, R95). -/
theorem opened_tokenBits :
    (s.opened ctrl pad bytes).tokenBits = (streamBits bytes).take (8 * bytes.length - pad.toNat) := by
  change (natToBits 0 0 ++ streamBits ((bytes.take bytes.length).drop 0)).take (8 * bytes.length - pad.toNat) = _
  rw [natToBits, List.nil_append, List.take_length, List.drop_zero]

/-- The first token of a segment, fetched from its first bit on (rules R95, R225). -/
theorem step_opened_token {i : Instr} {rest : List Bool} (hlegal : s.cfg.tablesLegal = true)
    (hpos : pad.toNat < 8 * bytes.length)
    (hdec : decode s.cfg .token ((streamBits bytes).take (8 * bytes.length - pad.toNat)) = .ok (.row i) rest) :
    ∃ t, step (s.opened ctrl pad bytes) = exec i t ∧ t.ReaderInv ∧ t.bitPos = bitLength i ∧
      t.bitsRem + bitLength i = 8 * bytes.length - pad.toNat ∧ t.inBytes = bytes ∧ t.cfg = s.cfg ∧ t.hist = s.hist ∧
      t.histIdx = s.histIdx ∧ t.out = s.out ∧ t.outCnt = 0 ∧ t.err = none := by
  have hreader : (s.opened ctrl pad bytes).ReaderInv :=
    (readerInv_initReader { s.started ctrl with pad := pad } (Nat.sub_le _ _)).congr ⟨rfl, rfl, rfl, rfl, rfl, rfl⟩
  have hstate : (s.opened ctrl pad bytes).state = .readSelector := if_pos (Nat.sub_pos_of_lt hpos)
  rw [← opened_tokenBits (s := s) (ctrl := ctrl)] at hdec
  obtain ⟨t, _, hstep, hsound, _, hbit, hrem, hframe⟩ :=
    stepRunsTheDecodedToken (s.opened ctrl pad bytes) (.row i) rest hreader hlegal hstate hdec
  have hzero : (s.opened ctrl pad bytes).bitPos = 0 := rfl
  rw [hzero, Nat.zero_add] at hbit
  refine ⟨t, hstep i rfl, hsound, hbit, hrem, ?_⟩
  rw [hframe]
  exact ⟨rfl, rfl, rfl, rfl, rfl, rfl, rfl⟩
end

/-- Two bytes that hold nine bits: a zero and a byte (property S3). -/
theorem streamBits_shifted (v : Byte) :
    (streamBits [v >>> (1 : Nat), v <<< (7 : Nat)]).take 9 = false :: byteBits v := by
  have hhigh : byteBits (v >>> (1 : Nat)) = natToBits 8 (v.toNat * 2 ^ 7 / 2 ^ 8) := by
    rw [byteBits, BitVec.toNat_ushiftRight, Nat.shiftRight_eq_div_pow]
    congr 1
    omega
  have hlow : byteBits (v <<< (7 : Nat)) = natToBits 8 (v.toNat * 2 ^ 7) := by
    rw [byteBits, BitVec.toNat_shiftLeft, Nat.shiftLeft_eq, natToBits_mod]
  have hsplit : streamBits [v >>> (1 : Nat), v <<< (7 : Nat)] = natToBits 9 v.toNat ++ natToBits 7 (v.toNat * 2 ^ 7) :=
    calc streamBits [v >>> (1 : Nat), v <<< (7 : Nat)]
        = natToBits 8 (v.toNat * 2 ^ 7 / 2 ^ 8) ++ natToBits 8 (v.toNat * 2 ^ 7) := by
          rw [streamBits_cons, streamBits_cons, hhigh, hlow, streamBits, List.flatMap_nil, List.append_nil]
      _ = natToBits (9 + 7) (v.toNat * 2 ^ 7) := (natToBits_add 8 8 _).symm
      _ = natToBits 9 v.toNat ++ natToBits 7 (v.toNat * 2 ^ 7) := by
          rw [natToBits_add, Nat.mul_div_cancel _ (Nat.two_pow_pos 7)]
  rw [hsplit, List.take_left' (natToBits_length 9 _), natToBits, Nat.testBit_lt_two_pow v.isLt]
  rfl

/-- Settles O60. -/
theorem singleLiteralSegmentsDecode : Obligations.SingleLiteralSegmentsDecode := by
  intro s ctrl v hs hbusy hc hseg
  have hopen := step_opened (bytes := [v >>> (1 : Nat), v <<< (7 : Nat)]) (pad := 7) hbusy hc hseg (by simp) (by decide)
    (by simp)
  obtain ⟨t, hstep, _, _, hrem, _, hcfg, hhist, hidx, hout, hcnt, herr⟩ :=
    step_opened_token (s := s) (ctrl := ctrl) (pad := 7) (bytes := [v >>> (1 : Nat), v <<< (7 : Nat)]) (i := .lit8 v)
      (rest := []) hs.tables (by simp) (by
        have hlit := decode_lit8 s.cfg v []
        rw [List.append_nil] at hlit
        exact (congrArg (decode s.cfg .token) (streamBits_shifted v)).trans hlit)
  obtain ⟨w, hexec, hemitted, haround, _, hstate⟩ := lit8EmitsItsByte v t (by rw [hcnt]; decide)
  have hzero : t.bitsRem = 0 := by
    simp [bitLength] at hrem
    omega
  refine ⟨w, (run_succ hopen 1).trans (run_one (hstep.trans hexec)), ?_, haround.err.trans herr,
    hemitted.congr_left hcfg hhist hidx hout hcnt⟩
  rw [hstate, hzero]
  rfl

theorem packBits_length (n : Nat) (bits : List Bool) : (packBits n bits).length = n := by
  induction n generalizing bits with
  | zero => rfl
  | succ n ih => rw [packBits, List.length_cons, ih]

/-- Whole bytes of bits come back from the stream. -/
theorem streamBits_packBits {n : Nat} {bits : List Bool} (h : bits.length = 8 * n) :
    streamBits (packBits n bits) = bits := by
  induction n generalizing bits with
  | zero => exact (List.length_eq_zero_iff.mp h).symm
  | succ n ih =>
    have hlen : (bits.take 8).length = 8 := by
      rw [List.length_take]
      omega
    have hbyte : byteBits (BitVec.ofNat 8 (bitsToNat (bits.take 8))) = bits.take 8 := by
      have hbits := natToBits_bitsToNat (bits.take 8)
      rw [hlen] at hbits
      rw [byteBits, BitVec.toNat_ofNat, natToBits_mod, hbits]
    rw [packBits, show 8 - bits.length = 0 by omega, List.replicate_zero, List.append_nil, streamBits_cons, hbyte,
      ih (by rw [List.length_drop]; omega), List.take_append_drop]

theorem encode_unenc_length (count : BitVec 15) : (encode (.unenc count)).length = 25 := by
  rw [encode]
  simp

/-- Settles O59: after the 25 bits of the token seven alignment bits are left in the accumulator. -/
theorem unencodedSegmentsDecodeToTheirBytes : Obligations.UnencodedSegmentsDecodeToTheirBytes := by
  intro s ctrl align body hs href hbusy halign hbody hc hseg
  have hnat : (BitVec.ofNat 15 body.length).toNat = body.length := by
    rw [BitVec.toNat_ofNat, Nat.mod_eq_of_lt hbody]
  generalize BitVec.ofNat 15 body.length = count at hseg hnat
  have hhead : (encode (.unenc count) ++ align).length = 8 * 4 := by
    rw [List.length_append, encode_unenc_length, halign]
  have hbytes : (packBits 4 (encode (.unenc count) ++ align) ++ body).length = 4 + body.length := by
    rw [List.length_append, packBits_length]
  have hopen := step_opened hbusy hc hseg (by omega) (by decide) (Nat.zero_le _)
  have hdec := decode_tokenRow href (.unenc count) rfl (align ++ streamBits body)
  obtain ⟨t, hstep, hsound, hbit, hrem, hin, hcfg, hhist, hidx, hout, hcnt, herr⟩ :=
    step_opened_token (s := s) (ctrl := ctrl) (pad := 0) (bytes := packBits 4 (encode (.unenc count) ++ align) ++ body)
      (i := .unenc count) (rest := align ++ streamBits body) hs.tables (by rw [hbytes]; exact Nat.mul_pos (by decide) (by omega))
      (by
        rw [← hdec, List.take_of_length_le (by rw [streamBits_length]; exact le_rfl), streamBits_append,
          streamBits_packBits hhead, List.append_assoc])
  have hlen : t.inLen = 4 + body.length := by rw [hsound.len_eq, hin, hbytes]
  have hcur := hsound.cnt_le
  rw [State.bitPos, bitLength] at hbit
  rw [hbytes] at hrem
  change t.bitsRem + 25 = 8 * (4 + body.length) - 0 at hrem
  obtain ⟨w, hexec, hrun⟩ := unencodedRunsCopyRawBytes.1 count t (by rw [hcfg, hidx]; exact hs.ring.idx_lt) hsound.len_eq
    (by simp only [hcnt, outCap]; omega) (by omega) (by omega)
  have hemitted := hrun.emitted.congr_left (s := { s with outCnt := 0 }) hcfg hhist hidx hout hcnt
  have hraw : (t.inBytes.drop t.byteCur).take count.toNat = body := by
    rw [hin, show t.byteCur = 4 by omega, List.drop_left' (packBits_length 4 _), hnat, List.take_length]
  refine ⟨w, (run_succ hopen 1).trans (run_one (hstep.trans hexec)), ?_, hrun.err.trans herr, hraw ▸ hemitted⟩
  rw [hrun.state, hrun.bitsRem, show t.bitsRem - min t.accCnt t.bitsRem - 8 * count.toNat = 0 by omega]
  rfl

end Sys2Proof.Machine
